-- ==== Sys2Proof/Word.lean ====
section
/-! DEFINITION. The two word types of the machine (00_scope.md R10: a byte is 8 bits; 10_state.md R20
and R24: registers and addresses are 64 bits). -/

namespace Sys2Proof

/-- A byte (00_scope.md R10). -/
abbrev Byte := BitVec 8

/-- A register value or an address (10_state.md R20, R24). -/
abbrev Word := BitVec 64

end Sys2Proof
end

