-- ==== Sys2Proof/Config.lean ====
section
/-! DEFINITION. What an implementation fixes (00_scope.md R8): the region sizes, the sleep units, the
test mode and the two encoding tables; the small vocabularies those tables speak of; and the free
values, constants with no body that stand for what the spec leaves unspecified. -/

namespace Sys2Proof

/-- The addressing mode of an operand (30_encoding.md R110, R111). -/
inductive Mode where
  | r   -- register-direct
  | i   -- immediate literal
  | mi  -- memory at an absolute address
  | mr  -- memory at the address held in a register
  deriving DecidableEq, Repr, Inhabited

/-- The mnemonics of format Z (30_encoding.md R103). -/
inductive ZeroOp where
  | nac
  | wait
  | stop
  deriving DecidableEq, Repr

/-- The mnemonics of format S (30_encoding.md R104). -/
inductive SleepOp where
  | sleepms
  | sleepsec
  deriving DecidableEq, Repr

/-- The mnemonics of format M (30_encoding.md R105). -/
inductive MoveOp where
  | mval8
  | mval16
  | mval24
  | mval32
  | mval40
  | mval48
  | mval56
  | mval64
  deriving DecidableEq, Repr

/-- What an opcode value selects: a mnemonic, and with it the format (30_encoding.md R107). -/
inductive Operation where
  | zero (o : ZeroOp)
  | sleep (o : SleepOp)
  | move (o : MoveOp)
  deriving DecidableEq, Repr

/-- The nominal width in bytes of a move, `N/8` for `mval<N>` (30_encoding.md R108, R109). -/
def MoveOp.nominal : MoveOp → Nat
  | .mval8 => 1
  | .mval16 => 2
  | .mval24 => 3
  | .mval32 => 4
  | .mval40 => 5
  | .mval48 => 6
  | .mval56 => 7
  | .mval64 => 8

/-- Only the move family has a nominal width (30_encoding.md R114). -/
def Operation.nominal : Operation → Option Nat
  | .zero _ => none
  | .sleep _ => none
  | .move o => some o.nominal

/-- The thirteen mnemonics (00_scope.md R3). -/
def Operation.all : List Operation :=
  [.zero .nac, .zero .wait, .zero .stop, .sleep .sleepms, .sleep .sleepsec,
   .move .mval8, .move .mval16, .move .mval24, .move .mval32,
   .move .mval40, .move .mval48, .move .mval56, .move .mval64]

/-- What a legal descriptor byte stands for: a mode and a width in bytes, 0 meaning that the
instruction supplies the width (30_encoding.md R110). -/
structure Desc where
  mode : Mode
  width : Nat
  deriving DecidableEq, Repr

/-- The 33 descriptors of 30_encoding.md R112: every mode at the widths 1 to 8, and `i<`. -/
def Desc.all : List Desc :=
  (List.range 8).map (fun k => Desc.mk .r (k + 1)) ++
  (List.range 9).map (fun k => Desc.mk .i k) ++
  (List.range 8).map (fun k => Desc.mk .mi (k + 1)) ++
  (List.range 8).map (fun k => Desc.mk .mr (k + 1))

/-- One operand of an instruction, in one of the four modes (30_encoding.md R111). `width` is the
descriptor's width in bytes. A register index is `0..63` by its type (10_state.md R20). -/
inductive Operand where
  | r (width : Nat) (index : Fin 64)
  | i (width : Nat) (value : Word)
  | mi (width : Nat) (address : Word)
  | mr (width : Nat) (index : Fin 64)
  deriving DecidableEq, Repr

/-- A row of the opcode table (30_encoding.md R108). -/
structure OpcodeRow where
  value : BitVec 16
  op : Operation
  deriving DecidableEq, Repr

/-- A row of the descriptor table (30_encoding.md R112). -/
structure DescRow where
  byte : Byte
  desc : Desc
  deriving DecidableEq, Repr

/-- The configuration of a machine (the parameter list of 00_scope.md R8): each parameter is a field,
but for `REG_RESET` and `RAM_RESET`, the free inputs of a reset (`Machine.ResetInputs`,
70_reset_and_hazards.md R262). -/
structure Config where
  xlen : Nat
  nregs : Nat
  alen : Nat
  stackSize : Nat
  romSize : Nat
  ramSize : Nat
  spReset : Word
  opcodes : List OpcodeRow
  descriptors : List DescRow
  cyclesPerMs : Nat
  cyclesPerSec : Nat
  testMode : Bool
  deriving DecidableEq, Repr

/-- FREE VALUE (notes/assumptions/6.md): `ip` after the `n`-th fault (40_cycle_fetch_decode.md R149). -/
opaque Config.freeIp : Nat → Word

/-- FREE VALUE (notes/assumptions/6.md): `cur_op` after the `n`-th fault. -/
opaque Config.freeCurOp : Nat → BitVec 16

/-- FREE VALUE (notes/assumptions/6.md): the mode in an operand latch after the `n`-th fault; the
second argument is the latch's number. -/
opaque Config.freeLatchMode : Nat → Nat → Mode

/-- FREE VALUE (notes/assumptions/6.md): one less than the width in an operand latch after a fault;
the width stays in the `1..8` that 10_state.md R31 gives a latch. -/
opaque Config.freeLatchWidth : Nat → Nat → Fin 8

/-- FREE VALUE (notes/assumptions/6.md): the raw value in an operand latch after a fault. -/
opaque Config.freeLatchRaw : Nat → Nat → Word

/-- FREE VALUE (notes/assumptions/11.md): byte `k` of what a failing host read returns in test mode
(20_memory.md R82). -/
opaque Config.freeHostByte : Nat → Nat → Byte

end Sys2Proof
end

