-- ==== Sys2Proof/Syntax.lean ====
section
/-! DEFINITION. The instructions: one constructor per row of spec/opcode_table.json. In a move the
first operand is the destination and the second the source (30_encoding.md R106). -/

namespace Sys2Proof

/-- The thirteen instructions of 30_encoding.md R108. -/
inductive Instr where
  | nac
  | wait
  | stop
  | sleepms (duration : Operand)
  | sleepsec (duration : Operand)
  | mval8 (dst src : Operand)
  | mval16 (dst src : Operand)
  | mval24 (dst src : Operand)
  | mval32 (dst src : Operand)
  | mval40 (dst src : Operand)
  | mval48 (dst src : Operand)
  | mval56 (dst src : Operand)
  | mval64 (dst src : Operand)
  deriving DecidableEq, Repr

/-- The mnemonic of an instruction. -/
def Instr.operation : Instr → Operation
  | .nac => .zero .nac
  | .wait => .zero .wait
  | .stop => .zero .stop
  | .sleepms _ => .sleep .sleepms
  | .sleepsec _ => .sleep .sleepsec
  | .mval8 _ _ => .move .mval8
  | .mval16 _ _ => .move .mval16
  | .mval24 _ _ => .move .mval24
  | .mval32 _ _ => .move .mval32
  | .mval40 _ _ => .move .mval40
  | .mval48 _ _ => .move .mval48
  | .mval56 _ _ => .move .mval56
  | .mval64 _ _ => .move .mval64

/-- The operands of an instruction in stream order (30_encoding.md R100). -/
def Instr.operands : Instr → List Operand
  | .nac | .wait | .stop => []
  | .sleepms o | .sleepsec o => [o]
  | .mval8 d s | .mval16 d s | .mval24 d s | .mval32 d s => [d, s]
  | .mval40 d s | .mval48 d s | .mval56 d s | .mval64 d s => [d, s]

end Sys2Proof
end

