-- ==== Sys2Proof/WellFormed.lean ====
section
/-! DEFINITION. Which terms of `Instr` stand for instructions: those whose operands have a descriptor
(30_encoding.md R112, R114) and whose literal fits its effective width (30_encoding.md R117). An
immediate destination is well formed: it is decoded, and faults when executed (30_encoding.md R124). -/

namespace Sys2Proof

/-- A width a descriptor can name in bytes, other than 0 (30_encoding.md R112). -/
def widthOk (w : Nat) : Bool := 1 ≤ w && w ≤ 8

/-- The literal `v` fits in `w` bytes, unsigned (30_encoding.md R117, R129). -/
def fits (w : Nat) (v : Word) : Bool := v.toNat < 2 ^ (8 * w)

/-- An operand that has a legal encoding in an instruction of this nominal width (`none` where there
is none, 30_encoding.md R114, R115). -/
def Operand.wf (nominal : Option Nat) : Operand → Bool
  | .r w _ => widthOk w
  | .mr w _ => widthOk w
  | .mi w a => widthOk w && fits w a
  | .i w v =>
    if w = 0 then
      match nominal with
      | some n => fits n v
      | none => false
    else widthOk w && fits w v

/-- Every operand of the instruction has a legal encoding in it. -/
def Instr.wf (i : Instr) : Bool := i.operands.all (Operand.wf i.operation.nominal)

end Sys2Proof
end

