-- ==== Sys2Proof/Decode.lean ====
section
/-! DEFINITION. The address map's constants, the constraints on a configuration, and the decoder and the
encoder (30_encoding.md, 40_cycle_fetch_decode.md R142 to R147). There is ONE decoder, `decodeWith`,
which asks for the bytes it needs, item by item in stream order. `decode` runs it on a list of bytes;
Machine/Cycle.lean runs it on the memory at `ip`, where each request is one bus read that may fault. -/

namespace Sys2Proof

/-! ### The address map -/

/-- `ROM_BASE = STACK_SIZE` (00_scope.md R8, 20_memory.md R61). -/
def Config.romBase (c : Config) : Nat := c.stackSize

/-- `RAM_BASE = ROM_BASE + ROM_SIZE` (00_scope.md R8, 20_memory.md R61). -/
def Config.ramBase (c : Config) : Nat := c.romBase + c.romSize

/-- `TOP = RAM_BASE + RAM_SIZE`, one past the highest mapped address (00_scope.md R8). -/
def Config.top (c : Config) : Nat := c.ramBase + c.ramSize

/-- `RAM_BASE + RAM_SIZE - 1`, the value of the parameter `SP_RESET` (10_state.md R26). -/
def Config.ramLast (c : Config) : Word := BitVec.ofNat 64 (c.ramBase + c.ramSize - 1)

/-! ### Byte order -/

/-- The little-endian value of bytes given in ascending address order (20_memory.md R70,
30_encoding.md R117). -/
def leValue : List Byte → Word
  | [] => 0
  | b :: bs => b.setWidth 64 ||| (leValue bs <<< 8)

/-- The low `n` bytes of `v` in ascending address order (20_memory.md R70). -/
def leBytes : Nat → Word → List Byte
  | 0, _ => []
  | n + 1, v => v.setWidth 8 :: leBytes n (v >>> 8)

/-! ### The two tables -/

/-- The opcode assignment of 30_encoding.md R108. -/
def refOpcodes : List OpcodeRow :=
  [⟨0x0000#16, .zero .nac⟩, ⟨0x0010#16, .zero .wait⟩, ⟨0x0011#16, .zero .stop⟩,
   ⟨0x0012#16, .sleep .sleepms⟩, ⟨0x0013#16, .sleep .sleepsec⟩,
   ⟨0x0101#16, .move .mval8⟩, ⟨0x0102#16, .move .mval16⟩,
   ⟨0x0103#16, .move .mval24⟩, ⟨0x0104#16, .move .mval32⟩,
   ⟨0x0105#16, .move .mval40⟩, ⟨0x0106#16, .move .mval48⟩,
   ⟨0x0107#16, .move .mval56⟩, ⟨0x0108#16, .move .mval64⟩]

/-- The descriptor table of 30_encoding.md R112, row by row of its table. -/
def refDescriptors : List DescRow :=
  [⟨0x10#8, ⟨.i, 0⟩⟩] ++
  [⟨0x01#8, ⟨.r, 1⟩⟩, ⟨0x11#8, ⟨.i, 1⟩⟩, ⟨0x21#8, ⟨.mi, 1⟩⟩, ⟨0x31#8, ⟨.mr, 1⟩⟩] ++
  [⟨0x02#8, ⟨.r, 2⟩⟩, ⟨0x12#8, ⟨.i, 2⟩⟩, ⟨0x22#8, ⟨.mi, 2⟩⟩, ⟨0x32#8, ⟨.mr, 2⟩⟩] ++
  [⟨0x03#8, ⟨.r, 3⟩⟩, ⟨0x13#8, ⟨.i, 3⟩⟩, ⟨0x23#8, ⟨.mi, 3⟩⟩, ⟨0x33#8, ⟨.mr, 3⟩⟩] ++
  [⟨0x04#8, ⟨.r, 4⟩⟩, ⟨0x14#8, ⟨.i, 4⟩⟩, ⟨0x24#8, ⟨.mi, 4⟩⟩, ⟨0x34#8, ⟨.mr, 4⟩⟩] ++
  [⟨0x05#8, ⟨.r, 5⟩⟩, ⟨0x15#8, ⟨.i, 5⟩⟩, ⟨0x25#8, ⟨.mi, 5⟩⟩, ⟨0x35#8, ⟨.mr, 5⟩⟩] ++
  [⟨0x06#8, ⟨.r, 6⟩⟩, ⟨0x16#8, ⟨.i, 6⟩⟩, ⟨0x26#8, ⟨.mi, 6⟩⟩, ⟨0x36#8, ⟨.mr, 6⟩⟩] ++
  [⟨0x07#8, ⟨.r, 7⟩⟩, ⟨0x17#8, ⟨.i, 7⟩⟩, ⟨0x27#8, ⟨.mi, 7⟩⟩, ⟨0x37#8, ⟨.mr, 7⟩⟩] ++
  [⟨0x08#8, ⟨.r, 8⟩⟩, ⟨0x18#8, ⟨.i, 8⟩⟩, ⟨0x28#8, ⟨.mi, 8⟩⟩, ⟨0x38#8, ⟨.mr, 8⟩⟩]

/-- `DescDecode` as 30_encoding.md R112 writes it, over the bit fields of the byte. The decoder reads
the table of the configuration; that the reference table is this function is a statement. -/
def descFields (d : Byte) : Option Desc :=
  if d.extractLsb' 6 2 ≠ 0#2 then none
  else
    let w := (d.extractLsb' 0 4).toNat
    let m : Mode :=
      if d.extractLsb' 4 2 = 0#2 then .r
      else if d.extractLsb' 4 2 = 1#2 then .i
      else if d.extractLsb' 4 2 = 2#2 then .mi
      else .mr
    if 1 ≤ w ∧ w ≤ 8 then some ⟨m, w⟩
    else if w = 0 ∧ m = .i then some ⟨.i, 0⟩
    else none

/-- The reference configuration `CFG_REF` (00_scope.md R9), with the tables above. -/
def Config.ref : Config where
  xlen := 64
  nregs := 64
  alen := 64
  stackSize := 0x100
  romSize := 0x100
  ramSize := 0x200
  spReset := 0x3FF
  opcodes := refOpcodes
  descriptors := refDescriptors
  cyclesPerMs := 1
  cyclesPerSec := 1
  testMode := false

/-- The mnemonic an opcode value selects (40_cycle_fetch_decode.md R144). -/
def Config.operationOf (c : Config) (v : BitVec 16) : Option Operation :=
  (c.opcodes.find? (fun row => row.value == v)).map OpcodeRow.op

/-- The opcode value of a mnemonic (30_encoding.md R108). -/
def Config.opcodeOf (c : Config) (o : Operation) : BitVec 16 :=
  ((c.opcodes.find? (fun row => row.op == o)).map OpcodeRow.value).getD 0

/-- The descriptor a byte stands for, `none` where it is illegal (30_encoding.md R112). -/
def Config.descOf (c : Config) (b : Byte) : Option Desc :=
  (c.descriptors.find? (fun row => row.byte == b)).map DescRow.desc

/-- The byte of a descriptor (30_encoding.md R112). -/
def Config.byteOf (c : Config) (d : Desc) : Byte :=
  ((c.descriptors.find? (fun row => row.desc == d)).map DescRow.byte).getD 0

/-- A first opcode byte that reads a second one: `0x01..0x0F` (30_encoding.md R101). -/
def isPrefixByte (b : Byte) : Bool := 1 ≤ b.toNat && b.toNat ≤ 0x0F

/-- A value that one or two opcode bytes can form: `0x0000`, `0x0010..0x00FF`, `0x0100..0x0FFF`
(30_encoding.md R102). -/
def opcodeValueOk (v : BitVec 16) : Bool :=
  v.toNat < 0x1000 && !(1 ≤ v.toNat && v.toNat ≤ 0x0F)

/-- The opcode table names each of the thirteen mnemonics once, by a value the stream can form. -/
def Config.opcodesOk (c : Config) : Bool :=
  Operation.all.all (fun o =>
    c.operationOf (c.opcodeOf o) == some o && opcodeValueOk (c.opcodeOf o)) &&
  c.opcodes.all (fun row => c.opcodeOf row.op == row.value)

/-- The descriptor table names each of the 33 descriptors once (30_encoding.md R110, R112). -/
def Config.descriptorsOk (c : Config) : Bool :=
  Desc.all.all (fun d => c.descOf (c.byteOf d) == some d) &&
  c.descriptors.all (fun row => Desc.all.contains row.desc && c.byteOf row.desc == row.byte)

/-- The widths and the register count that the types of this model have (00_scope.md R7, 10_state.md R20,
R24). -/
def Config.widthsOk (c : Config) : Bool := c.xlen == 64 && c.nregs == 64 && c.alen == 64

/-- The constraints on a configuration (00_scope.md R8). -/
def Config.wf (c : Config) : Bool :=
  c.widthsOk &&
  1 ≤ c.romSize && 1 ≤ c.ramSize && c.top ≤ 2 ^ 64 - 1 &&
  1 ≤ c.cyclesPerMs && 1 ≤ c.cyclesPerSec && c.opcodesOk && c.descriptorsOk

/-! ### Instructions from mnemonics -/

/-- The instruction of a format Z mnemonic. -/
def Instr.ofZero : ZeroOp → Instr
  | .nac => .nac
  | .wait => .wait
  | .stop => .stop

/-- The instruction of a format S mnemonic and its operand. -/
def Instr.ofSleep : SleepOp → Operand → Instr
  | .sleepms, o => .sleepms o
  | .sleepsec, o => .sleepsec o

/-- The instruction of a format M mnemonic, its destination and its source. -/
def Instr.ofMove : MoveOp → Operand → Operand → Instr
  | .mval8, d, s => .mval8 d s
  | .mval16, d, s => .mval16 d s
  | .mval24, d, s => .mval24 d s
  | .mval32, d, s => .mval32 d s
  | .mval40, d, s => .mval40 d s
  | .mval48, d, s => .mval48 d s
  | .mval56, d, s => .mval56 d s
  | .mval64, d, s => .mval64 d s

/-! ### Operands -/

/-- The descriptor of an operand. -/
def Operand.desc : Operand → Desc
  | .r w _ => ⟨.r, w⟩
  | .i w _ => ⟨.i, w⟩
  | .mi w _ => ⟨.mi, w⟩
  | .mr w _ => ⟨.mr, w⟩

/-- The raw value of an operand: register index, literal or address (30_encoding.md R117). -/
def Operand.raw : Operand → Word
  | .r _ x => BitVec.ofNat 64 x.val
  | .i _ v => v
  | .mi _ a => a
  | .mr _ x => BitVec.ofNat 64 x.val

/-- The effective width (30_encoding.md R115): the descriptor's, or the nominal width for a width of 0.
An operand of width 0 in an instruction with no nominal width is ill formed and gets 0 here. -/
def effWidth (nominal : Option Nat) (w : Nat) : Nat :=
  if w = 0 then nominal.getD 0 else w

/-- The operand data length `L` (30_encoding.md R116). -/
def dataLength (m : Mode) (w : Nat) : Nat :=
  match m with
  | .r => 1
  | .mr => 1
  | .i => w
  | .mi => w

/-- The effective width of an operand. -/
def Operand.width (nominal : Option Nat) (o : Operand) : Nat := effWidth nominal o.desc.width

/-- The number of data bytes of an operand. -/
def Operand.dataBytes (nominal : Option Nat) (o : Operand) : Nat :=
  dataLength o.desc.mode (o.width nominal)

/-! ### The decoder -/

/-- Why bytes are refused: the three decode faults of 60_exceptions.md R224 to R226. -/
inductive DecodeError where
  /-- An opcode value of no mnemonic (60_exceptions.md R224). -/
  | illegalOpcode (value : BitVec 16)
  /-- A byte that is no descriptor here (60_exceptions.md R225). -/
  | illegalDescriptor (byte : Byte)
  /-- A register index above 63 (60_exceptions.md R226). -/
  | badRegisterIndex (byte : Byte)
  deriving DecidableEq, Repr

section Decoder

/- `bad` says how the reader's errors hold a `DecodeError`; `read off n` gives the little-endian value
of the `n` bytes at offset `off` from the first opcode byte. -/
variable {ε : Type} (c : Config) (bad : DecodeError → ε) (read : Nat → Nat → Except ε Word)

/-- The opcode fetch (40_cycle_fetch_decode.md R143): the 16-bit value and how many bytes it took. -/
def fetchOpcode : Except ε (BitVec 16 × Nat) := do
  let b0 ← read 0 1
  if isPrefixByte (b0.setWidth 8) then
    let b1 ← read 1 1
    pure ((b0.setWidth 16 <<< 8) ||| b1.setWidth 16, 2)
  else
    pure (b0.setWidth 16, 1)

/-- Descriptor resolution (40_cycle_fetch_decode.md R145). -/
def resolveDesc (nominal : Option Nat) (b : Byte) : Except ε Desc :=
  match c.descOf b with
  | none => .error (bad (.illegalDescriptor b))
  | some d =>
    if d.width = 0 ∧ nominal = none then .error (bad (.illegalDescriptor b)) else .ok d

/-- Fetches and resolves one descriptor byte (40_cycle_fetch_decode.md R147). -/
def fetchDesc (nominal : Option Nat) (off : Nat) : Except ε Desc := do
  let d ← read off 1
  resolveDesc c bad nominal (d.setWidth 8)

/-- Checks the index byte of an `r` or `mr` operand (40_cycle_fetch_decode.md R146). -/
def checkIndex (v : Word) : Except ε (Fin 64) :=
  if h : v.toNat < 64 then .ok ⟨v.toNat, h⟩ else .error (bad (.badRegisterIndex (v.setWidth 8)))

/-- Operand-data fetch (40_cycle_fetch_decode.md R146). -/
def fetchOperand (nominal : Option Nat) (off : Nat) (d : Desc) : Except ε Operand := do
  let v ← read off (dataLength d.mode (effWidth nominal d.width))
  match d.mode with
  | .r => do
    let x ← checkIndex bad v
    pure (.r d.width x)
  | .i => pure (.i d.width v)
  | .mi => pure (.mi d.width v)
  | .mr => do
    let x ← checkIndex bad v
    pure (.mr d.width x)

/-- Fetch and decode of one instruction (40_cycle_fetch_decode.md R143, R144, R147): the instruction
and the number of bytes it took. -/
def decodeWith : Except ε (Instr × Nat) := do
  let (v, p) ← fetchOpcode read
  match c.operationOf v with
  | none => .error (bad (.illegalOpcode v))
  | some (.zero o) => pure (Instr.ofZero o, p)
  | some (.sleep o) => do
    let d ← fetchDesc c bad read none p
    let x ← fetchOperand bad read none (p + 1) d
    pure (Instr.ofSleep o x, p + 1 + x.dataBytes none)
  | some (.move o) => do
    let n := some o.nominal
    let d1 ← fetchDesc c bad read n p
    let d2 ← fetchDesc c bad read n (p + 1)
    let x1 ← fetchOperand bad read n (p + 2) d1
    let x2 ← fetchOperand bad read n (p + 2 + x1.dataBytes n) d2
    pure (Instr.ofMove o x1 x2, p + 2 + x1.dataBytes n + x2.dataBytes n)

end Decoder

/-- Why a list of bytes is not an instruction. -/
inductive BytesError where
  /-- The list ends before the instruction does. -/
  | truncated
  /-- The bytes are refused by name. -/
  | bad (e : DecodeError)
  deriving DecidableEq, Repr

/-- Reads from a list of bytes. -/
def readBytes (bytes : List Byte) (off n : Nat) : Except BytesError Word :=
  if off + n ≤ bytes.length then .ok (leValue ((bytes.drop off).take n)) else .error .truncated

/-- The decoder on a list of bytes: the instruction and the bytes after it (30_encoding.md R131). -/
def decode (c : Config) (bytes : List Byte) : Except BytesError (Instr × List Byte) :=
  match decodeWith c BytesError.bad (readBytes bytes) with
  | .error e => .error e
  | .ok (i, n) => .ok (i, bytes.drop n)

/-! ### The encoder -/

/-- The opcode bytes in stream order (30_encoding.md R101, R119; 20_memory.md R71). -/
def opcodeBytes (v : BitVec 16) : List Byte :=
  if v.toNat < 0x100 then [v.setWidth 8] else [(v >>> 8).setWidth 8, v.setWidth 8]

/-- The data bytes of an operand (30_encoding.md R116, R117). -/
def Operand.encode (nominal : Option Nat) (o : Operand) : List Byte :=
  leBytes (o.dataBytes nominal) o.raw

/-- The words of an instruction: opcode bytes, descriptor bytes, operand data (30_encoding.md R100). -/
def encode (c : Config) (i : Instr) : List Byte :=
  opcodeBytes (c.opcodeOf i.operation) ++
  i.operands.map (fun o => c.byteOf o.desc) ++
  i.operands.flatMap (Operand.encode i.operation.nominal)

/-- The number of opcode bytes `P` (30_encoding.md R101). -/
def Config.opcodeLength (c : Config) (o : Operation) : Nat :=
  if (c.opcodeOf o).toNat < 0x100 then 1 else 2

/-- The total encoded length (30_encoding.md R118). -/
def Instr.length (c : Config) (i : Instr) : Nat :=
  c.opcodeLength i.operation + i.operands.length +
  (i.operands.map (Operand.dataBytes i.operation.nominal)).sum

/-- The longest instruction, in bytes (30_encoding.md R118). -/
def maxLength : Nat := 20

/-- The bytes of an instruction whose bits are `w`, numbered from bit 0 of the first byte, those from
bit `nbits` on being 0, up to the longest instruction. -/
def tableBytes (nbits w : Nat) : List Byte :=
  (List.range maxLength).map (fun k => BitVec.ofNat 8 ((w % 2 ^ nbits) >>> (8 * k)))

/-- What the decoder reads from such an instruction under the reference tables. -/
def decodeTableWord (nbits w : Nat) : Option Instr :=
  match decode Config.ref (tableBytes nbits w) with
  | .ok (i, _) => some i
  | .error _ => none

end Sys2Proof
end

