-- ==== Sys2Proof/Machine/State.lean ====
section
/-! DEFINITION. The state of the machine as plain data (10_state.md section 9), the fault record of
60_exceptions.md R221, the reasons a host operation can stop, and the state after reset
(70_reset_and_hazards.md R260). -/

namespace Sys2Proof.Machine

/-- The two memories behind the translator (20_memory.md R64). -/
inductive Region where
  | rom
  | ram
  deriving DecidableEq, Repr

/-- What an access was for (60_exceptions.md R221); `fetch` marks a read made by `Fetch`. -/
inductive Access where
  | fetch
  | read
  | write
  deriving DecidableEq, Repr

/-- The eight kinds of fault of the machine (60_exceptions.md R220). -/
inductive FaultKind where
  | busOutOfBounds
  | busWriteToROM
  | regionOverrunROM
  | regionOverrunRAM
  | illegalOpcode
  | illegalDescriptor
  | badRegisterIndex
  | illegalDestination
  deriving DecidableEq, Repr

/-- What a `raise` says of the fault (60_exceptions.md R221, all but the address of the instruction):
`addr`, `width` and `access` for the four memory faults, `info` for the four decode faults. -/
structure FaultCause where
  kind : FaultKind
  addr : Option Word
  width : Option Nat
  access : Option Access
  info : Option (BitVec 16)
  deriving DecidableEq, Repr

/-- The fault record (60_exceptions.md R221). Its `code` is a function of its kind
(`FaultKind.code`, notes/assumptions/14.md). -/
structure FaultRecord extends FaultCause where
  insnIp : Word
  deriving DecidableEq, Repr

/-- An operand latch (10_state.md R31): `width` is the effective width. -/
structure Latch where
  mode : Mode
  width : Nat
  raw : Word
  deriving DecidableEq, Repr

/-- One backing store: offsets strictly rising, no byte listed that equals what an unlisted one reads
as (`Memory.unlisted`). -/
abbrev Memory := List Host.Cell

/-- The reasons a host operation stops (Machine/HostPort.lean). `step` answers none of these: a fault
of the MACHINE is a next state whose fault latch is set (60_exceptions.md R230,
notes/assumptions/7.md). -/
inductive Fault where
  /-- Raised by `hostRead` and `hostWrite` outside test mode when the region's check fails: the source
  terminates the process (20_memory.md R80, R82). Safe: nothing goes on. -/
  | regionError (region : Region) (addr len : Nat)
  /-- Raised by `loadROM` for an image of the wrong size: the Structural error, the machine does not
  start (20_memory.md R83). Safe: nothing goes on. -/
  | structuralError (length : Nat)
  deriving DecidableEq, Repr

/-- The reasons an instruction has no meaning. -/
inductive Refusal where
  /-- Raised by an arm of `exec` whose instruction is not modelled yet; no arm is. Safe. -/
  | notModelled (mnemonic : String)
  deriving DecidableEq, Repr

/-- The state (10_state.md section 9). `cfg` and `draws` are the model's own: the configuration, which
no step writes (notes/assumptions/1.md), and how many times a free value was drawn
(notes/assumptions/6.md). -/
structure State where
  cfg : Config
  regs : Vector Word 64
  ip : Word
  sp : Word
  flags : BitVec 8
  curOp : BitVec 16
  opnd1 : Latch
  opnd2 : Latch
  running : Bool
  countdown : Nat
  cycles : Nat
  fault : Option FaultRecord
  rom : Memory
  ram : Memory
  romErr : Bool
  ramErr : Bool
  draws : Nat
  deriving DecidableEq, Repr

/-- What reset leaves unspecified: registers and RAM (70_reset_and_hazards.md R262), `cur_op` and the
operand latches (R260). They are free inputs of a run. -/
structure ResetInputs where
  regs : Vector Word 64
  ram : Memory
  curOp : BitVec 16
  opnd1 : Latch
  opnd2 : Latch
  deriving DecidableEq, Repr

/-- DESIGN CHOICE (notes/assumptions/3.md, 4.md, 5.md), unsafe: the inputs that `State.reset` takes. -/
def ResetInputs.zero : ResetInputs where
  regs := Vector.replicate 64 0
  ram := []
  curOp := 0
  opnd1 := ⟨.r, 1, 0⟩
  opnd2 := ⟨.r, 1, 0⟩

/-- Reset (70_reset_and_hazards.md R260) for a configuration, a loaded ROM and the free inputs. -/
def State.resetWith (c : Config) (rom : Memory) (x : ResetInputs) : State where
  cfg := c
  regs := x.regs
  ip := BitVec.ofNat 64 c.romBase
  sp := c.spReset
  flags := 0
  curOp := x.curOp
  opnd1 := x.opnd1
  opnd2 := x.opnd2
  running := true
  countdown := 0
  cycles := 0
  fault := none
  rom := rom
  ram := x.ram
  romErr := false
  ramErr := false
  draws := 0

/-- The machine right after reset under `CFG_REF`, with no image loaded (notes/assumptions/12.md) and
the named values of notes/assumptions/3.md to 5.md for what the spec leaves unspecified. -/
def State.reset : State := State.resetWith Config.ref [] ResetInputs.zero

end Sys2Proof.Machine
end

