-- ==== Sys2Proof/Machine/Flags.lean ====
section
/-! DEFINITION. The flags register (10_state.md R27 to R29). Only `sleep` has behaviour; no instruction
computes a flag from a result (42_move.md R185), so there is no flag computation to hold here. -/

namespace Sys2Proof.Machine

/-- The eight flags by name (10_state.md R27). -/
inductive Flag where
  | carry
  | zero
  | negative
  | overflow
  | interrupt
  | sleep
  | direction
  | supervisor
  deriving DecidableEq, Repr

/-- The bit of a flag (10_state.md R27). -/
def Flag.bit : Flag → Nat
  | .carry => 0
  | .zero => 1
  | .negative => 2
  | .overflow => 3
  | .interrupt => 4
  | .sleep => 5
  | .direction => 6
  | .supervisor => 7

/-- One flag of the flags register. -/
def State.flag (s : State) (f : Flag) : Bool := s.flags.getLsbD f.bit

/-- The mask of one flag. -/
def Flag.mask (f : Flag) : BitVec 8 := 1#8 <<< f.bit

/-- `flags.sleep <- 1` (43_sleep.md R211). -/
def State.setSleep (s : State) : State := { s with flags := s.flags ||| Flag.sleep.mask }

/-- `flags.sleep <- 0` (40_cycle_fetch_decode.md R141). -/
def State.clearSleep (s : State) : State := { s with flags := s.flags &&& ~~~Flag.sleep.mask }

end Sys2Proof.Machine
end

