-- ==== Sys2Proof/Machine/Ops.lean ====
section
/-! DEFINITION. The named operations over memory and registers: the byte stores, the translator
(20_memory.md R62 to R67), partial register reads and writes (10_state.md R23), taking a fault
(60_exceptions.md R230), and what every completed normal cycle does around its execute arm
(40_cycle_fetch_decode.md R147 to R150). There is no return from a fault (60_exceptions.md R232): only
reset leaves the Faulted state. -/

namespace Sys2Proof.Machine

/-! ### Byte stores -/

/-- What an unlisted byte reads as. DESIGN CHOICE (notes/assumptions/4.md), unsafe for RAM that nothing
has written. -/
def Memory.unlisted : Byte := 0

/-- The byte at an offset. -/
def Memory.get : Memory → Nat → Byte
  | [], _ => Memory.unlisted
  | (k, b) :: m, a => if k = a then b else Memory.get m a

/-- Puts a byte before a list, unless it is what an unlisted byte reads as. -/
def Memory.cons (a : Nat) (b : Byte) (m : Memory) : Memory :=
  if b = Memory.unlisted then m else (a, b) :: m

/-- Writes the byte at an offset, keeping the canonical form. -/
def Memory.set : Memory → Nat → Byte → Memory
  | [], a, b => Memory.cons a b []
  | (k, x) :: m, a, b =>
    if a < k then Memory.cons a b ((k, x) :: m)
    else if a = k then Memory.cons a b m
    else (k, x) :: Memory.set m a b

/-- The little-endian value of the `n` bytes from offset `a` on (20_memory.md R70). -/
def Memory.readLE (m : Memory) (a : Nat) : Nat → Word
  | 0 => 0
  | n + 1 => (m.get a).setWidth 64 ||| (Memory.readLE m (a + 1) n <<< 8)

/-- Stores bytes from offset `a` on, in ascending order. -/
def Memory.setBytes (m : Memory) (a : Nat) : List Byte → Memory
  | [] => m
  | b :: bs => Memory.setBytes (m.set a b) (a + 1) bs

/-- Stores the low `n` bytes of `v` little-endian from offset `a` on (20_memory.md R67, R70). -/
def Memory.writeLE (m : Memory) (a n : Nat) (v : Word) : Memory := m.setBytes a (leBytes n v)

/-- The bytes of a store that holds exactly this list from offset `a` on. -/
def Memory.ofBytes (a : Nat) : List Byte → Memory
  | [] => []
  | b :: bs => Memory.cons a b (Memory.ofBytes (a + 1) bs)

/-- The canonical form over offsets from `lo` up to `size - 1`: offsets strictly rising, none listed
with the byte that an unlisted offset reads as. -/
def Memory.wfFrom (size : Nat) : Nat → Memory → Bool
  | _, [] => true
  | lo, (k, b) :: m => lo ≤ k && k < size && b ≠ Memory.unlisted && Memory.wfFrom size (k + 1) m

/-- A well-formed store of `size` bytes. -/
def Memory.wf (size : Nat) (m : Memory) : Bool := Memory.wfFrom size 0 m

/-! ### Registers -/

/-- `v[8*w-1:0]`, zero-extended (00_scope.md R11). -/
def lowBytes (w : Nat) (v : Word) : Word := (v.setWidth (8 * w)).setWidth 64

/-- `old` with its low `w` bytes replaced by those of `new` (10_state.md R23). -/
def mergeLow (w : Nat) (old new : Word) : Word := ((old >>> (8 * w)) <<< (8 * w)) ||| lowBytes w new

/-- `x[k]` (00_scope.md R11). -/
def State.reg (s : State) (k : Fin 64) : Word := s.regs[k]

/-- `x[k] <- v` (00_scope.md R11). -/
def State.setReg (s : State) (k : Fin 64) (v : Word) : State := { s with regs := s.regs.set k v }

/-- `x[k][8*w-1:0] <- v`, the upper bytes kept (10_state.md R23). -/
def State.setRegLow (s : State) (k : Fin 64) (w : Nat) (v : Word) : State :=
  s.setReg k (mergeLow w (s.reg k) v)

/-- The state with another RAM store. -/
def State.setRam (s : State) (m : Memory) : State := { s with ram := m }

/-! ### The translator -/

/-- The base address of a region (20_memory.md R61). -/
def Region.base (c : Config) : Region → Nat
  | .rom => c.romBase
  | .ram => c.ramBase

/-- The size of a region (20_memory.md R61). -/
def Region.size (c : Config) : Region → Nat
  | .rom => c.romSize
  | .ram => c.ramSize

/-- The routing function: the region an address is in, `none` for out of bounds (20_memory.md R62). -/
def route (c : Config) (a : Nat) : Option Region :=
  if c.romBase ≤ a ∧ a < c.romBase + c.romSize then some .rom
  else if c.ramBase ≤ a ∧ a < c.ramBase + c.ramSize then some .ram
  else none

/-- The bounds check at a region's own port (20_memory.md R65). -/
def regionCheck (c : Config) (r : Region) (a n : Nat) : Bool :=
  r.base c ≤ a && a < r.base c + r.size c && (a - r.base c) + n ≤ r.size c

/-- The store behind a region. -/
def State.store (s : State) : Region → Memory
  | .rom => s.rom
  | .ram => s.ram

/-- The byte at an absolute address, `none` where no region holds it. -/
def State.byteAt (s : State) (a : Nat) : Option Byte :=
  (route s.cfg a).map (fun r => (s.store r).get (a - r.base s.cfg))

/-- `BusOutOfBounds` (60_exceptions.md R222). -/
def busOutOfBounds (a : Word) (n : Nat) (x : Access) : FaultCause :=
  ⟨.busOutOfBounds, some a, some n, some x, none⟩

/-- `BusWriteToROM` (60_exceptions.md R223). -/
def busWriteToROM (a : Word) (n : Nat) : FaultCause :=
  ⟨.busWriteToROM, some a, some n, some .write, none⟩

/-- `RegionOverrunROM` and `RegionOverrunRAM` (60_exceptions.md R229, R231). -/
def regionOverrun (r : Region) (a : Word) (n : Nat) (x : Access) : FaultCause :=
  ⟨match r with | .rom => .regionOverrunROM | .ram => .regionOverrunRAM,
   some a, some n, some x, none⟩

/-- `IllegalOpcode` (60_exceptions.md R224). -/
def illegalOpcode (v : BitVec 16) : FaultCause := ⟨.illegalOpcode, none, none, none, some v⟩

/-- `IllegalDescriptor` (60_exceptions.md R225). -/
def illegalDescriptor (b : Byte) : FaultCause :=
  ⟨.illegalDescriptor, none, none, none, some (b.setWidth 16)⟩

/-- `BadRegisterIndex` (60_exceptions.md R226). -/
def badRegisterIndex (b : Byte) : FaultCause :=
  ⟨.badRegisterIndex, none, none, none, some (b.setWidth 16)⟩

/-- `IllegalDestination` (60_exceptions.md R227). -/
def illegalDestination (b : Byte) : FaultCause :=
  ⟨.illegalDestination, none, none, none, some (b.setWidth 16)⟩

/-- `MemRead(a, n)` (20_memory.md R66); `x` says whether it is a fetch or a data read. -/
def memRead (s : State) (a : Word) (n : Nat) (x : Access) : Except FaultCause Word :=
  match route s.cfg a.toNat with
  | none => .error (busOutOfBounds a n x)
  | some r =>
    if r.size s.cfg < (a.toNat - r.base s.cfg) + n then .error (regionOverrun r a n x)
    else .ok ((s.store r).readLE (a.toNat - r.base s.cfg) n)

/-- `MemWrite(a, n, v)` (20_memory.md R67). -/
def memWrite (s : State) (a : Word) (n : Nat) (v : Word) : Except FaultCause State :=
  match route s.cfg a.toNat with
  | some .rom => .error (busWriteToROM a n)
  | some .ram =>
    if s.cfg.ramSize < (a.toNat - s.cfg.ramBase) + n then .error (regionOverrun .ram a n .write)
    else .ok (s.setRam (s.ram.writeLE (a.toNat - s.cfg.ramBase) n v))
  | none => .error (busOutOfBounds a n .write)

/-! ### Taking a fault -/

/-- The code of a fault kind (60_exceptions.md R220). -/
def FaultKind.code : FaultKind → Nat
  | .busOutOfBounds => 1
  | .busWriteToROM => 2
  | .regionOverrunROM => 3
  | .regionOverrunRAM => 4
  | .illegalOpcode => 5
  | .illegalDescriptor => 6
  | .badRegisterIndex => 7
  | .illegalDestination => 8

/-- `code` of a fault record (60_exceptions.md R221). -/
def FaultRecord.code (f : FaultRecord) : Nat := f.kind.code

/-- The record of a fault in the instruction at `insnIp` (60_exceptions.md R221). -/
def FaultCause.record (f : FaultCause) (insnIp : Word) : FaultRecord := ⟨f, insnIp⟩

/-- FREE VALUE (notes/assumptions/6.md): what an operand latch holds after a fault. -/
def freeLatch (n k : Nat) : Latch :=
  ⟨Config.freeLatchMode n k, (Config.freeLatchWidth n k).val + 1, Config.freeLatchRaw n k⟩

/-- `RegionFault`'s sticky bit: in test mode an overrun sets its region's bit, and no other fault does
(20_memory.md R80). -/
def stick (s : State) (k : FaultKind) : State :=
  { s with
    romErr := s.romErr || (s.cfg.testMode && k == .regionOverrunROM)
    ramErr := s.ramErr || (s.cfg.testMode && k == .regionOverrunRAM) }

/-- Fault entry (60_exceptions.md R230): the first fault is latched and `running` cleared; `ip`,
`cur_op` and the operand latches are free values (40_cycle_fetch_decode.md R149). -/
def raise (insnIp : Word) (f : FaultCause) (s : State) : State :=
  { stick s f.kind with
    fault := some (s.fault.getD (f.record insnIp))
    running := false
    ip := Config.freeIp s.draws
    curOp := Config.freeCurOp s.draws
    opnd1 := freeLatch s.draws 1
    opnd2 := freeLatch s.draws 2
    draws := s.draws + 1 }

/-! ### The frame of a normal cycle -/

/-- The latch an operand decodes to (40_cycle_fetch_decode.md R146). -/
def latchOf (nominal : Option Nat) (o : Operand) : Latch :=
  ⟨o.desc.mode, o.width nominal, o.raw⟩

/-- The state when decode is complete (40_cycle_fetch_decode.md R147): `ip` past the instruction,
`cur_op` written, and the latches of the operands that the format has. -/
def State.decoded (s : State) (i : Instr) : State :=
  { s with
    ip := s.ip + BitVec.ofNat 64 (i.length s.cfg)
    curOp := s.cfg.opcodeOf i.operation
    opnd1 := (i.operands[0]?.map (latchOf i.operation.nominal)).getD s.opnd1
    opnd2 := (i.operands[1]?.map (latchOf i.operation.nominal)).getD s.opnd2 }

/-- `cycles <- cycles + 1` (40_cycle_fetch_decode.md R150). -/
def State.countCycle (s : State) : State := { s with cycles := s.cycles + 1 }

/-- A normal cycle from the end of decode on (40_cycle_fetch_decode.md R141): the execute arm runs on
the decoded state; then the cycle is counted, or the fault it raised is taken. `s` is the state at the
start of the cycle, so `s.ip` is `insn_ip`. -/
def normalCycle (i : Instr) (arm : State → Except FaultCause State) (s : State) :
    Host.Outcome State Fault Refusal :=
  match arm (s.decoded i) with
  | .ok t => .next t.countCycle
  | .error f => .next (raise s.ip f (s.decoded i))

/-! ### Placing bytes -/

/-- Stores a byte behind an absolute address, in ROM or RAM; nothing where no region holds it. It is no
operation of the machine: Step.lean's `withFetchWord` places an instruction with it. -/
def State.poke (s : State) (a : Nat) (b : Byte) : State :=
  match route s.cfg a with
  | some .rom => { s with rom := s.rom.set (a - s.cfg.romBase) b }
  | some .ram => s.setRam (s.ram.set (a - s.cfg.ramBase) b)
  | none => s

/-- Stores bytes from an absolute address on. -/
def State.pokeBytes (s : State) (a : Nat) : List Byte → State
  | [] => s
  | b :: bs => (s.poke a b).pokeBytes (a + 1) bs

end Sys2Proof.Machine
end

