-- ==== Sys2Proof/Machine/Cycle.lean ====
section
/-! DEFINITION. The parts of the cycle around execute (40_cycle_fetch_decode.md R141 to R149): the sleep
tick, the waking of a sleep of 0, the fetch and decode of the instruction at `ip`, and what a cycle that
faults does with the waking. -/

namespace Sys2Proof.Machine

/-- One sleep tick (40_cycle_fetch_decode.md R141). -/
def sleepTick (s : State) : State :=
  if s.countdown - 1 = 0 then
    { s.clearSleep with countdown := s.countdown - 1, cycles := s.cycles + 1 }
  else
    { s with countdown := s.countdown - 1, cycles := s.cycles + 1 }

/-- `if flags.sleep = 1 then flags.sleep <- 0`, the start of a normal cycle
(40_cycle_fetch_decode.md R141). -/
def wake (s : State) : State := if s.flag .sleep then s.clearSleep else s

/-- One item of the instruction stream, at an offset from `ip` (40_cycle_fetch_decode.md R142). -/
def fetchAt (s : State) (off n : Nat) : Except FaultCause Word :=
  memRead s (s.ip + BitVec.ofNat 64 off) n .fetch

/-- The fault of refused bytes (60_exceptions.md R224 to R226). -/
def decodeFault : DecodeError → FaultCause
  | .illegalOpcode v => illegalOpcode v
  | .illegalDescriptor b => illegalDescriptor b
  | .badRegisterIndex b => badRegisterIndex b

/-- Fetch and decode of the instruction at `ip` (40_cycle_fetch_decode.md R143, R144, R147). -/
def fetchDecode (s : State) : Except FaultCause (Instr × Nat) :=
  decodeWith s.cfg decodeFault (fetchAt s)

/-- A cycle that faulted leaves the flags as they were before it, the waking included
(40_cycle_fetch_decode.md R149, 60_exceptions.md R230, notes/assumptions/8.md). -/
def State.keepFlags (flags : BitVec 8) (t : State) : State :=
  if t.fault = none then t else { t with flags := flags }

/-- `State.keepFlags` of an outcome's next state. -/
def keepFlags (flags : BitVec 8) :
    Host.Outcome State Fault Refusal → Host.Outcome State Fault Refusal
  | .next t => .next (t.keepFlags flags)
  | .fault f => .fault f
  | .refused r => .refused r

end Sys2Proof.Machine
end

