-- ==== Sys2Proof/Machine/Operands.lean ====
section
/-! DEFINITION. The operand resolver (42_move.md section 2): the effective address, the source value
and the destination write, in every mode. -/

namespace Sys2Proof.Machine

/-- `EffAddr(o)` (42_move.md R182), `none` for an operand that is not in memory. -/
def effAddr (s : State) : Operand → Option Word
  | .mi _ a => some a
  | .mr _ k => some (s.reg k)
  | .r _ _ => none
  | .i _ _ => none

/-- `SrcValue(o)`, at the operand's own effective width (42_move.md R183). -/
def srcValue (nominal : Option Nat) (o : Operand) (s : State) : Except FaultCause Word :=
  match o with
  | .r w k => .ok (lowBytes w (s.reg k))
  | .i w v => .ok (lowBytes (effWidth nominal w) v)
  | .mi w a => memRead s a w .read
  | .mr w k => memRead s (s.reg k) w .read

/-- `DstWrite(o, t)` (42_move.md R184). -/
def dstWrite (o : Operand) (t : Word) (s : State) : Except FaultCause State :=
  match o with
  | .r w k => .ok (s.setRegLow k w t)
  | .i _ _ => .error (illegalDestination (s.cfg.byteOf o.desc))
  | .mi w a => memWrite s a w t
  | .mr w k => memWrite s (s.reg k) w t

end Sys2Proof.Machine
end

