-- ==== Sys2Proof/Machine/Move.lean ====
section
/-! DEFINITION. The move family (42_move.md). -/

namespace Sys2Proof.Machine

/-- The source half of `ExecMove`: an immediate destination faults before any data access
(42_move.md R185). -/
def moveValue (nominal : Nat) (d src : Operand) (s : State) : Except FaultCause Word :=
  match d with
  | .i _ _ => .error (illegalDestination (s.cfg.byteOf d.desc))
  | .r _ _ => srcValue (some nominal) src s
  | .mi _ _ => srcValue (some nominal) src s
  | .mr _ _ => srcValue (some nominal) src s

/-- `ExecMove` (42_move.md R185): the source is read whole, then its low bytes go to the destination,
zero-extended or truncated to the destination's width (R195). -/
def moveArm (nominal : Nat) (d src : Operand) (s : State) : Except FaultCause State :=
  match moveValue nominal d src s with
  | .error f => .error f
  | .ok v => dstWrite d (lowBytes (d.width (some nominal)) v) s

/-- `mval8` (42_move.md R186). -/
def execMval8 (d src : Operand) (s : State) : Host.Outcome State Fault Refusal :=
  normalCycle (.mval8 d src) (moveArm 1 d src) s

/-- `mval16` (42_move.md R187). -/
def execMval16 (d src : Operand) (s : State) : Host.Outcome State Fault Refusal :=
  normalCycle (.mval16 d src) (moveArm 2 d src) s

/-- `mval24` (42_move.md R188). -/
def execMval24 (d src : Operand) (s : State) : Host.Outcome State Fault Refusal :=
  normalCycle (.mval24 d src) (moveArm 3 d src) s

/-- `mval32` (42_move.md R189). -/
def execMval32 (d src : Operand) (s : State) : Host.Outcome State Fault Refusal :=
  normalCycle (.mval32 d src) (moveArm 4 d src) s

/-- `mval40` (42_move.md R190). -/
def execMval40 (d src : Operand) (s : State) : Host.Outcome State Fault Refusal :=
  normalCycle (.mval40 d src) (moveArm 5 d src) s

/-- `mval48` (42_move.md R191). -/
def execMval48 (d src : Operand) (s : State) : Host.Outcome State Fault Refusal :=
  normalCycle (.mval48 d src) (moveArm 6 d src) s

/-- `mval56` (42_move.md R192). -/
def execMval56 (d src : Operand) (s : State) : Host.Outcome State Fault Refusal :=
  normalCycle (.mval56 d src) (moveArm 7 d src) s

/-- `mval64` (42_move.md R193). -/
def execMval64 (d src : Operand) (s : State) : Host.Outcome State Fault Refusal :=
  normalCycle (.mval64 d src) (moveArm 8 d src) s

end Sys2Proof.Machine
end

