-- ==== Sys2Proof/Machine/Sleep.lean ====
section
/-! DEFINITION. The sleep instructions (43_sleep.md). -/

namespace Sys2Proof.Machine

/-- `countdown <- n; flags.sleep <- 1` (43_sleep.md R211). -/
def State.startSleep (s : State) (n : Nat) : State := { s.setSleep with countdown := n }

/-- `ExecSleep(unit)` (43_sleep.md R211). A sleep has no nominal width (30_encoding.md R114). -/
def sleepArm (unit : Nat) (o : Operand) (s : State) : Except FaultCause State :=
  match srcValue none o s with
  | .error f => .error f
  | .ok k => .ok (s.startSleep (k.toNat * unit))

/-- `sleepms` (43_sleep.md R212). -/
def execSleepms (o : Operand) (s : State) : Host.Outcome State Fault Refusal :=
  normalCycle (.sleepms o) (sleepArm s.cfg.cyclesPerMs o) s

/-- `sleepsec` (43_sleep.md R213). -/
def execSleepsec (o : Operand) (s : State) : Host.Outcome State Fault Refusal :=
  normalCycle (.sleepsec o) (sleepArm s.cfg.cyclesPerSec o) s

end Sys2Proof.Machine
end

