-- ==== Sys2Proof/Machine/Zero.lean ====
section
/-! DEFINITION. The zero-operand instructions (41_zero_operand.md). -/

namespace Sys2Proof.Machine

/-- `nac`: a no-operation (41_zero_operand.md R170). -/
def execNac (s : State) : Host.Outcome State Fault Refusal :=
  normalCycle .nac (fun t => .ok t) s

/-- `wait`: consumes one cycle (41_zero_operand.md R171). -/
def execWait (s : State) : Host.Outcome State Fault Refusal :=
  normalCycle .wait (fun t => .ok t) s

/-- `running <- 0` (41_zero_operand.md R172). -/
def State.halt (s : State) : State := { s with running := false }

/-- `stop`: clears `running`; its cycle is counted (41_zero_operand.md R172). -/
def execStop (s : State) : Host.Outcome State Fault Refusal :=
  normalCycle .stop (fun t => .ok t.halt) s

end Sys2Proof.Machine
end

