-- ==== Sys2Proof/Machine/Dispatch.lean ====
section
/-! DEFINITION. The execute dispatch (40_cycle_fetch_decode.md R148): one arm per instruction. `exec i s`
is the normal cycle that runs `i`, from the state `s` at the start of the cycle, where `s.ip` is the
address of `i`'s first opcode byte (notes/assumptions/10.md). -/

namespace Sys2Proof.Machine

-- The meaning of each instruction, by constructor.
def exec (i : Instr) (s : State) : Host.Outcome State Fault Refusal :=
  match i with
  | .nac => Sys2Proof.Machine.execNac s
  | .wait => Sys2Proof.Machine.execWait s
  | .stop => Sys2Proof.Machine.execStop s
  | .sleepms o => Sys2Proof.Machine.execSleepms o s
  | .sleepsec o => Sys2Proof.Machine.execSleepsec o s
  | .mval8 d src => Sys2Proof.Machine.execMval8 d src s
  | .mval16 d src => Sys2Proof.Machine.execMval16 d src s
  | .mval24 d src => Sys2Proof.Machine.execMval24 d src s
  | .mval32 d src => Sys2Proof.Machine.execMval32 d src s
  | .mval40 d src => Sys2Proof.Machine.execMval40 d src s
  | .mval48 d src => Sys2Proof.Machine.execMval48 d src s
  | .mval56 d src => Sys2Proof.Machine.execMval56 d src s
  | .mval64 d src => Sys2Proof.Machine.execMval64 d src s

end Sys2Proof.Machine
end

