-- ==== Sys2Proof/Machine/Step.lean ====
section
/-! DEFINITION. One cycle of the machine (40_cycle_fetch_decode.md R141). -/

namespace Sys2Proof.Machine

/-- `Cycle()` (40_cycle_fetch_decode.md R141). Every outcome is a next state: a fault of the machine is
taken (60_exceptions.md R230). -/
def step (s : State) : Host.Outcome State Fault Refusal :=
  if s.fault ≠ none ∨ s.running = false then .next s
  else if s.flag .sleep = true ∧ s.countdown ≠ 0 then .next (sleepTick s)
  else
    match fetchDecode s with
    | .error f => .next (raise s.ip f s)
    | .ok (i, _) => keepFlags s.flags (exec i (wake s))

/-- `s` with an instruction stored at `ip` (notes/assumptions/12.md). -/
def State.withFetchWord (s : State) (nbits w : Nat) : State :=
  s.pokeBytes s.ip.toNat (tableBytes nbits w)

end Sys2Proof.Machine
end

