-- ==== Sys2Proof/Machine/Assembler.lean ====
section
/-! DEFINITION. The assembler's contract with the decoder, from the tokens of a source line to its bytes
(30_encoding.md R127 to R131). The tokenizer, comments and files are out of scope (00_scope.md R5). No
part of the machine uses this file. -/

namespace Sys2Proof.Machine

/-- The assembler's errors (60_exceptions.md R236): nothing is emitted. -/
inductive AsmError where
  /-- An unknown mnemonic or descriptor, or a missing token. -/
  | syntaxError
  /-- A literal that cannot be read or does not fit, or a register index above 63. -/
  | valueError
  deriving DecidableEq, Repr

/-- The mnemonics, in lower case (30_encoding.md R127). -/
def mnemonicNames : List (String × Operation) :=
  [("nac", .zero .nac), ("wait", .zero .wait), ("stop", .zero .stop),
   ("sleepms", .sleep .sleepms), ("sleepsec", .sleep .sleepsec),
   ("mval8", .move .mval8), ("mval16", .move .mval16), ("mval24", .move .mval24),
   ("mval32", .move .mval32), ("mval40", .move .mval40), ("mval48", .move .mval48),
   ("mval56", .move .mval56), ("mval64", .move .mval64)]

/-- The mnemonic a token names. -/
def mnemonicOf (t : String) : Option Operation :=
  (mnemonicNames.find? (fun p => p.1 == t)).map Prod.snd

/-- The value of a digit. -/
def digitOf (ch : Char) : Option Nat :=
  if '0'.toNat ≤ ch.toNat ∧ ch.toNat ≤ '9'.toNat then some (ch.toNat - '0'.toNat)
  else if 'a'.toNat ≤ ch.toNat ∧ ch.toNat ≤ 'f'.toNat then some (ch.toNat - 'a'.toNat + 10)
  else if 'A'.toNat ≤ ch.toNat ∧ ch.toNat ≤ 'F'.toNat then some (ch.toNat - 'A'.toNat + 10)
  else none

/-- The value of digits in a base, most significant first, after those already read. -/
def digitsFrom (base : Nat) : Nat → List Char → Option Nat
  | acc, [] => some acc
  | acc, ch :: rest =>
    match digitOf ch with
    | some d => if d < base then digitsFrom base (acc * base + d) rest else none
    | none => none

/-- The value of one or more digits in a base. -/
def digits (base : Nat) (t : List Char) : Option Nat :=
  if t = [] then none else digitsFrom base 0 t

/-- A literal: decimal, `0x` hexadecimal or `0b` binary, unsigned (30_encoding.md R129). -/
def literal (t : String) : Except AsmError Nat :=
  let v := match t.toList with
    | '0' :: 'x' :: rest => digits 16 rest
    | '0' :: 'b' :: rest => digits 2 rest
    | rest => digits 10 rest
  match v with
  | some n => .ok n
  | none => .error .valueError

/-- The width in bytes that the digits of a descriptor token give in bits (30_encoding.md R113). -/
def tokenWidth (t : List Char) : Option Nat :=
  match digits 10 t with
  | some n => if n % 8 = 0 ∧ widthOk (n / 8) ∧ t.head? ≠ some '0' then some (n / 8) else none
  | none => none

/-- The descriptor of a token without its closing `<`: mode letters, then bits (30_encoding.md R113);
`i` alone is the descriptor of width 0 (R114). -/
def descOfToken : List Char → Option Desc
  | 'm' :: 'i' :: t => (tokenWidth t).map (Desc.mk .mi)
  | 'm' :: 'r' :: t => (tokenWidth t).map (Desc.mk .mr)
  | 'r' :: t => (tokenWidth t).map (Desc.mk .r)
  | ['i'] => some ⟨.i, 0⟩
  | 'i' :: t => (tokenWidth t).map (Desc.mk .i)
  | _ => none

/-- The non-empty parts of a compound token split on `<` (30_encoding.md R128). -/
def tokenParts (t : String) : List (List Char) := (t.toList.splitOn '<').filter (· ≠ [])

/-- The descriptor of a sleep: its token is one descriptor with its closing `<`
(30_encoding.md R104, R113). -/
def singleDesc (t : String) : Except AsmError Desc :=
  match if t.toList.getLast? = some '<' then descOfToken t.toList.dropLast else none with
  | some d => .ok d
  | none => .error .syntaxError

/-- The two descriptors of a move: the first two parts of its token, the second the same as the first if
it is absent or malformed; parts after the second are not looked at (30_encoding.md R105, R128). -/
def compoundDesc (t : String) : Except AsmError (Desc × Desc) :=
  match tokenParts t with
  | [] => .error .syntaxError
  | p :: rest =>
    match descOfToken p with
    | some d => .ok (d, (rest.head?.bind descOfToken).getD d)
    | none => .error .syntaxError

/-- The operand of a descriptor and a literal (30_encoding.md R129). -/
def operandOf (nominal : Option Nat) (d : Desc) (v : Nat) : Except AsmError Operand :=
  match d.mode with
  | .r => if h : v < 64 then .ok (.r d.width ⟨v, h⟩) else .error .valueError
  | .mr => if h : v < 64 then .ok (.mr d.width ⟨v, h⟩) else .error .valueError
  | .i =>
    if d.width = 0 ∧ nominal = none then .error .syntaxError
    else if v < 2 ^ (8 * effWidth nominal d.width) then .ok (.i d.width (BitVec.ofNat 64 v))
    else .error .valueError
  | .mi =>
    if v < 2 ^ (8 * effWidth nominal d.width) then .ok (.mi d.width (BitVec.ofNat 64 v))
    else .error .valueError

/-- The instruction of a source line's tokens (30_encoding.md R127). -/
def parseLine (tokens : List String) : Except AsmError Instr :=
  match tokens with
  | [] => .error .syntaxError
  | m :: rest =>
    match mnemonicOf m, rest with
    | some (.zero o), [] => .ok (Instr.ofZero o)
    | some (.sleep o), [d, l] => do
      let d ← singleDesc d
      let v ← literal l
      let x ← operandOf none d v
      pure (Instr.ofSleep o x)
    | some (.move o), [d, l1, l2] => do
      let (d1, d2) ← compoundDesc d
      let v1 ← literal l1
      let v2 ← literal l2
      let x1 ← operandOf (some o.nominal) d1 v1
      let x2 ← operandOf (some o.nominal) d2 v2
      pure (Instr.ofMove o x1 x2)
    | _, _ => .error .syntaxError

/-- The bytes of a source line's tokens. -/
def assembleLine (c : Config) (tokens : List String) : Except AsmError (List Byte) := do
  let i ← parseLine tokens
  pure (encode c i)

/-- The image of a source text's lines, blank lines skipped; any failure ends the run with no output
(30_encoding.md R126, R127). -/
def assemble (c : Config) : List (List String) → Except AsmError (List Byte)
  | [] => .ok []
  | [] :: rest => assemble c rest
  | (m :: ts) :: rest => do
    let bytes ← assembleLine c (m :: ts)
    let more ← assemble c rest
    pure (bytes ++ more)

end Sys2Proof.Machine
end

