-- ==== Sys2Proof/Machine/HostPort.lean ====
section
/-! DEFINITION. What the host does to the machine between two cycles (70_reset_and_hazards.md R266 to
R269, 20_memory.md R81 to R83): load an image, reset, use the test port, query and reset the sticky
bits, read the end-of-run report. No instruction's meaning depends on this file. -/

namespace Sys2Proof.Machine

/-- A host operation that gives the host a value: the value and the state after it, or the reason the
host's run ends. -/
abbrev HostOutcome (α : Type) := Host.Outcome (α × State) Fault Refusal

/-- `LoadROM(image)` (20_memory.md R83): the image replaces ROM entirely; one of another size is the
Structural error, and the machine does not start. -/
def loadROM (image : List Byte) (s : State) : Host.Outcome State Fault Refusal :=
  if image.length = s.cfg.romSize then .next { s with rom := Memory.ofBytes 0 image }
  else .fault (.structuralError image.length)

/-- Reset of an existing machine (70_reset_and_hazards.md R260, R269): ROM and configuration stay, the
unspecified elements take new inputs, and nothing else is carried over (`draws` is the model's own
counter and goes on). -/
def machineReset (x : ResetInputs) (s : State) : State :=
  { State.resetWith s.cfg s.rom x with draws := s.draws }

/-- The power-up sequence (70_reset_and_hazards.md R266): configuration, RAM contents, image, reset. -/
def powerUp (c : Config) (image : List Byte) (x : ResetInputs) : Host.Outcome State Fault Refusal :=
  loadROM image (State.resetWith c [] x)

/-- The failing check of the test port (20_memory.md R80, R82): in test mode the region's sticky bit is
set. -/
def State.setRegionError (s : State) : Region → State
  | .rom => { s with romErr := true }
  | .ram => { s with ramErr := true }

/-- `QueryRegionError(R)` (20_memory.md R81). -/
def queryRegionError (r : Region) (s : State) : Bool :=
  match r with
  | .rom => s.romErr
  | .ram => s.ramErr

/-- `ResetRegionError(R)` (20_memory.md R81). -/
def resetRegionError (r : Region) (s : State) : State :=
  match r with
  | .rom => { s with romErr := false }
  | .ram => { s with ramErr := false }

/-- `n` bytes of a store from an offset on, in ascending order. -/
def Memory.readBytes (m : Memory) (a : Nat) : Nat → List Byte
  | 0 => []
  | n + 1 => m.get a :: Memory.readBytes m (a + 1) n

/-- FREE VALUE (notes/assumptions/11.md): the `n` bytes of a failing host read in test mode. -/
def freeHostBytes (draw n : Nat) : List Byte := (List.range n).map (Config.freeHostByte draw)

/-- `HostRead(R, a, n)` at a region's own port (20_memory.md R65, R82). -/
def hostRead (r : Region) (a n : Nat) (s : State) : HostOutcome (List Byte) :=
  if regionCheck s.cfg r a n then .next ((s.store r).readBytes (a - r.base s.cfg) n, s)
  else if s.cfg.testMode then
    .next (freeHostBytes s.draws n, { s.setRegionError r with draws := s.draws + 1 })
  else .fault (.regionError r a n)

/-- `HostWrite(RAM, a, n, bytes)` (20_memory.md R65, R82); there is none to ROM. -/
def hostWrite (a : Nat) (bytes : List Byte) (s : State) : Host.Outcome State Fault Refusal :=
  if regionCheck s.cfg .ram a bytes.length then
    .next (s.setRam (s.ram.setBytes (a - s.cfg.ramBase) bytes))
  else if s.cfg.testMode then .next (s.setRegionError .ram)
  else .fault (.regionError .ram a bytes.length)

/-- The end-of-run report (60_exceptions.md R247): the cycle count, owed only on halt, which a faulted
machine never is (60_exceptions.md R230). -/
def report (s : State) : Option Nat :=
  if s.running = false ∧ s.fault = none then some s.cycles else none

end Sys2Proof.Machine
end

