-- ==== Sys2Proof/Safety.lean ====
section
/-! DEFINITION. The terms in which claims speak of runs: the phase of the machine (10_state.md R40), the
two ways a run ends (40_cycle_fetch_decode.md R151), and the invariant of the state. -/

namespace Sys2Proof.Machine

/-- The phase between cycles (10_state.md R40). -/
inductive Phase where
  | fetching
  | sleeping
  | halted
  | faulted
  deriving DecidableEq, Repr

/-- The phase is a function of the state and is not stored (10_state.md R40). -/
def State.phase (s : State) : Phase :=
  if s.fault ≠ none then .faulted
  else if s.running = false then .halted
  else if s.flag .sleep = true ∧ s.countdown ≠ 0 then .sleeping
  else .fetching

/-- A successful end: halted by `stop`, never a faulted one (60_exceptions.md R230). -/
def State.succeeded (s : State) : Prop := s.phase = .halted

/-- The run is over (40_cycle_fetch_decode.md R151). -/
def State.ended (s : State) : Prop := s.phase = .halted ∨ s.phase = .faulted

/-- A width an operand latch holds (10_state.md R31). -/
def Latch.wf (l : Latch) : Prop := 1 ≤ l.width ∧ l.width ≤ 8

/-- What holds in every state of a run: the configuration meets its constraints; the stores are in
canonical form and hold no byte beyond their size; `sp` and the seven inert flags hold their reset
value (10_state.md R26, R29); a faulted machine does not run (R32); a clear sleep flag means no
countdown (41_zero_operand.md R172); without test mode no sticky bit is set (10_state.md R38); and the
latches hold widths of 1 to 8 bytes (R31). -/
structure State.Inv (s : State) : Prop where
  cfg : s.cfg.wf = true
  rom : s.rom.wf s.cfg.romSize = true
  ram : s.ram.wf s.cfg.ramSize = true
  sp : s.sp = s.cfg.spReset
  inert : s.flags &&& ~~~Flag.sleep.mask = 0
  stopped : s.fault ≠ none → s.running = false
  awake : s.flag .sleep = false → s.countdown = 0
  sticky : s.cfg.testMode = false → s.romErr = false ∧ s.ramErr = false
  opnd1 : s.opnd1.wf
  opnd2 : s.opnd2.wf

/-- `ip` points into the mapped range or just past it, unless the machine has faulted (10_state.md R25,
20_memory.md R69). -/
def State.ipMapped (s : State) : Prop := s.fault = none → s.cfg.romBase ≤ s.ip.toNat ∧ s.ip.toNat ≤ s.cfg.top

/-- The free inputs of a reset that a machine of this configuration can have. -/
structure ResetInputs.Ok (c : Config) (x : ResetInputs) : Prop where
  ram : x.ram.wf c.ramSize = true
  opnd1 : x.opnd1.wf
  opnd2 : x.opnd2.wf

end Sys2Proof.Machine
end

