-- ==== Sys2Proof/Certificates/Slice0/Obligations.lean ====
section
/-! DEFINITION. The statements for the provers, from the numbered rules of spec/. First the words they
are written in, each in terms of the bytes and numbers of the spec; then the statements by subject. -/

namespace Sys2Proof.Claims

open Sys2Proof.Machine

/-- Byte `j` of a value (00_scope.md R10). -/
def byte (v : Word) (j : Nat) : Byte := v.extractLsb' (8 * j) 8

/-- The `n` bytes from address `a` on lie in one region (20_memory.md R66, R84). -/
def InOneRegion (c : Config) (a n : Nat) : Prop :=
  (c.romBase ≤ a ∧ a + n ≤ c.romBase + c.romSize) ∨ (c.ramBase ≤ a ∧ a + n ≤ c.ramBase + c.ramSize)

/-- The bytes from address `a` on are these. -/
def BytesAt (s : State) (a : Nat) (bytes : List Byte) : Prop :=
  ∀ k, (h : k < bytes.length) → s.byteAt (a + k) = some bytes[k]

/-- The `n` bytes from address `a` on lie in one region and hold the little-endian value `v`
(20_memory.md R66, R70). -/
def HoldsValue (s : State) (a n : Nat) (v : Word) : Prop :=
  InOneRegion s.cfg a n ∧ v.toNat < 2 ^ (8 * n) ∧ ∀ j < n, s.byteAt (a + j) = some (byte v j)

/-- The operand, taken as a source, has the value `v` (42_move.md R183): the low bytes of its register,
its literal, or the bytes at its address. -/
def SourceIs (s : State) (x : Operand) (v : Word) : Prop :=
  match x with
  | .r w k => v.toNat = (s.reg k).toNat % 2 ^ (8 * w)
  | .i _ y => v = y
  | .mi w a => HoldsValue s a.toNat w v
  | .mr w k => HoldsValue s (s.reg k).toNat w v

/-- The address and the number of bytes of an operand in memory (42_move.md R182). -/
def MemoryPlace (s : State) (x : Operand) (a : Word) (n : Nat) : Prop :=
  (x = .mi n a) ∨ (∃ k, x = .mr n k ∧ a = s.reg k)

/-- The two sleeps with one operand. -/
def sleeps (x : Operand) : List Instr := [.sleepms x, .sleepsec x]

/-- The eight moves with one pair of operands. -/
def moves (d x : Operand) : List Instr :=
  [.mval8 d x, .mval16 d x, .mval24 d x, .mval32 d x, .mval40 d x, .mval48 d x, .mval56 d x,
   .mval64 d x]

/-- What every completed instruction does besides its own effect (40_cycle_fetch_decode.md R147, R149,
R150): `ip` past it, `cur_op` its opcode, the latches its operands, one more cycle. -/
def after (i : Instr) (l1 l2 : Latch) (s : State) : State :=
  { s with
    ip := s.ip + BitVec.ofNat 64 (i.length s.cfg)
    curOp := s.cfg.opcodeOf i.operation
    opnd1 := l1
    opnd2 := l2
    cycles := s.cycles + 1 }

/-- Fault entry (60_exceptions.md R230, 20_memory.md R80) from `s`, which has not faulted, to `t`: the
record latched, `running` cleared, the sticky bit of an overrun in test mode, and all else as it was,
but for `ip`, `cur_op` and the latches, of which nothing is said. -/
structure Faulted (s t : State) (f : FaultRecord) : Prop where
  fault : t.fault = some f
  running : t.running = false
  regs : t.regs = s.regs
  rom : t.rom = s.rom
  ram : t.ram = s.ram
  flags : t.flags = s.flags
  sp : t.sp = s.sp
  countdown : t.countdown = s.countdown
  cycles : t.cycles = s.cycles
  cfg : t.cfg = s.cfg
  romErr : t.romErr = (s.romErr || (s.cfg.testMode && f.kind == .regionOverrunROM))
  ramErr : t.ramErr = (s.ramErr || (s.cfg.testMode && f.kind == .regionOverrunRAM))

/-- A memory fault's record (60_exceptions.md R221). -/
def memoryFault (kind : FaultKind) (a : Word) (n : Nat) (x : Access) (insnIp : Word) : FaultRecord where
  kind := kind
  addr := some a
  width := some n
  access := some x
  info := none
  insnIp := insnIp

/-- A decode fault's record (60_exceptions.md R221). -/
def decodeRecord (kind : FaultKind) (info : BitVec 16) (insnIp : Word) : FaultRecord where
  kind := kind
  addr := none
  width := none
  access := none
  info := some info
  insnIp := insnIp

/-- The overrun kind of a region (60_exceptions.md R220). -/
def overrunKind : Region → FaultKind
  | .rom => .regionOverrunROM
  | .ram => .regionOverrunRAM

/-- The next cycle is a normal one (40_cycle_fetch_decode.md R141). -/
def Ready (s : State) : Prop :=
  s.fault = none ∧ s.running = true ∧ ¬ (s.flags.getLsbD 5 = true ∧ s.countdown ≠ 0)

/-- The state with bit 5 of the flags, `sleep`, cleared (40_cycle_fetch_decode.md R141). -/
def woken (s : State) : State := { s with flags := s.flags &&& 0xDF#8 }

/-- The next step runs the instruction `i` (40_cycle_fetch_decode.md R141): it is `exec` of it from the
state with the sleep flag cleared, but for the flags, which a cycle that faults keeps as they were
before it (R149). -/
def StepRuns (s : State) (i : Instr) : Prop :=
  ∃ t, exec i (woken s) = .next t ∧
    step s = .next (if t.fault = none then t else { t with flags := s.flags })

/-- The next step takes a fault with this record. -/
def StepFaults (s : State) (f : FaultRecord) : Prop := ∃ t, step s = .next t ∧ Faulted s t f

/-- At `ip` stand the opcode bytes of a mnemonic, then the bytes of these descriptors, then these bytes. -/
def StandsAtIp (s : State) (o : Operation) (ds : List Desc) (rest : List Byte) : Prop :=
  BytesAt s s.ip.toNat (opcodeBytes (s.cfg.opcodeOf o) ++ ds.map s.cfg.byteOf ++ rest)

/-- The length of the data field of an operand (30_encoding.md R115, R116): one byte for a register
index; else the descriptor's width, or the nominal width where that is 0. -/
def fieldLength (nominal : Nat) (e : Desc) : Nat :=
  match e.mode with
  | .r => 1
  | .mr => 1
  | .i => if e.width = 0 then nominal else e.width
  | .mi => e.width

/-- A fetch of `n` bytes at `ip + off` starts in no region (60_exceptions.md R222): the next step takes
`BusOutOfBounds`. -/
def OutsideFaults (s : State) (off n : Nat) : Prop :=
  route s.cfg (s.ip.toNat + off) = none →
    StepFaults s (memoryFault .busOutOfBounds (s.ip + BitVec.ofNat 64 off) n .fetch s.ip)

/-- A fetch of `n` bytes at `ip + off` starts in a region and overruns it (60_exceptions.md R229, R231):
the next step takes that region's overrun. -/
def StraddleFaults (s : State) (off n : Nat) : Prop :=
  ∀ r, route s.cfg (s.ip.toNat + off) = some r →
    r.base s.cfg + r.size s.cfg < s.ip.toNat + off + n →
    StepFaults s (memoryFault (overrunKind r) (s.ip + BitVec.ofNat 64 off) n .fetch s.ip)

/-- Offset and length of each operand data field of an instruction (30_encoding.md R103 to R105). -/
def dataFields (c : Config) (i : Instr) : List (Nat × Nat) :=
  let p := c.opcodeLength i.operation
  let n := i.operation.nominal
  match i.operands with
  | [x] => [(p + 1, x.dataBytes n)]
  | [d, x] => [(p + 2, d.dataBytes n), (p + 2 + d.dataBytes n, x.dataBytes n)]
  | _ => []

end Sys2Proof.Claims

open Sys2Proof Sys2Proof.Machine Sys2Proof.Claims

/-! ### Encoding -/

/-- 30_encoding.md R131, R100 to R118, for every instruction and every configuration of the two tables:
decoding the encoder's bytes gives the instruction back and leaves the rest. -/
def Obligations.DecodeInvertsEncode : Prop :=
  ∀ (c : Config) (i : Instr) (rest : List Byte), c.wf = true → i.wf = true →
    decode c (encode c i ++ rest) = .ok (i, rest)

/-- 30_encoding.md R100 to R118: bytes that decode are the encoding of what they decode to, so each
instruction has one encoding and no bit is ignored; and it is well formed. -/
def Obligations.EncodeInvertsDecode : Prop :=
  ∀ (c : Config) (bytes rest : List Byte) (i : Instr), c.wf = true →
    decode c bytes = .ok (i, rest) → i.wf = true ∧ bytes = encode c i ++ rest

/-- 30_encoding.md R112: the reference table of 33 descriptors is the bit-field function `DescDecode`,
legal on exactly the 33 bytes the rule lists. -/
def Obligations.DescriptorTableIsBitFields : Prop :=
  ∀ b : Byte, Config.ref.descOf b = descFields b ∧
    ((Config.ref.descOf b).isSome = true ↔
      (0x01 ≤ b.toNat ∧ b.toNat ≤ 0x08) ∨ (0x10 ≤ b.toNat ∧ b.toNat ≤ 0x18) ∨
      (0x21 ≤ b.toNat ∧ b.toNat ≤ 0x28) ∨ (0x31 ≤ b.toNat ∧ b.toNat ≤ 0x38))

/-- 95_test_vectors.md section 2.3, from 30_encoding.md R103 to R118: words written out from the spec's
encodings decode to the instructions they stand for. -/
def Obligations.SpecWordsDecode : Prop :=
  decode Config.ref [0x11] = .ok (.stop, []) ∧
  decode Config.ref [0x12, 0x11, 0x03] = .ok (.sleepms (.i 1 3), []) ∧
  decode Config.ref [0x01, 0x03, 0x03, 0x10, 0x03, 0x56, 0x34, 0x12] =
    .ok (.mval24 (.r 3 3) (.i 0 0x123456), []) ∧
  decode Config.ref [0x01, 0x05, 0x35, 0x05, 0x04, 0x07] = .ok (.mval40 (.mr 5 4) (.r 5 7), [])

/-- 30_encoding.md R131 with R127 to R129: a source line that assembles gives bytes that decode to the
instruction the line names. -/
def Obligations.AssembledLineDecodes : Prop :=
  ∀ (c : Config) (line : List String) (bytes rest : List Byte), c.wf = true →
    assembleLine c line = .ok bytes →
    ∃ i, parseLine line = .ok i ∧ i.wf = true ∧ bytes.length = i.length c ∧
      decode c (bytes ++ rest) = .ok (i, rest)

/-- 30_encoding.md R129, at the bound: index 63 is emitted as the byte 0x3F and 64 is a Value error, for
an `r` and for an `mr` operand; the largest literal of a width is emitted and the next is a Value error. -/
def Obligations.LiteralBounds : Prop :=
  assembleLine Config.ref ["mval8", "r8<r8<", "63", "63"] =
    .ok [0x01, 0x01, 0x01, 0x01, 0x3F, 0x3F] ∧
  assembleLine Config.ref ["mval8", "r8<r8<", "64", "5"] = .error .valueError ∧
  assembleLine Config.ref ["mval8", "r8<mr8<", "5", "63"] =
    .ok [0x01, 0x01, 0x01, 0x31, 0x05, 0x3F] ∧
  assembleLine Config.ref ["mval8", "r8<mr8<", "5", "64"] = .error .valueError ∧
  assembleLine Config.ref ["mval8", "r8<i8<", "2", "255"] =
    .ok [0x01, 0x01, 0x01, 0x11, 0x02, 0xFF] ∧
  assembleLine Config.ref ["mval8", "r8<i8<", "2", "256"] = .error .valueError

/-! ### Memory -/

/-- 20_memory.md R62: the routing function is the partition. -/
def Obligations.RouteIsThePartition : Prop :=
  ∀ (c : Config) (a : Nat),
    (route c a = some .rom ↔ c.romBase ≤ a ∧ a < c.romBase + c.romSize) ∧
    (route c a = some .ram ↔ c.ramBase ≤ a ∧ a < c.ramBase + c.ramSize) ∧
    (route c a = none ↔ a < c.romBase ∨ c.top ≤ a)

/-- 20_memory.md R66, R70: a read inside one region answers the little-endian value of its bytes, for a
fetch as for a data read. -/
def Obligations.ReadIsLittleEndian : Prop :=
  ∀ (s : State) (a : Word) (n : Nat) (x : Access), 1 ≤ n → n ≤ 8 → InOneRegion s.cfg a.toNat n →
    ∃ v, memRead s a n x = .ok v ∧ HoldsValue s a.toNat n v

/-- 20_memory.md R84: a read that starts in ROM and would end at or beyond `RAM_BASE` is a ROM overrun,
although those bytes are in RAM; one that starts at `RAM_BASE` is a RAM read. -/
def Obligations.ReadNeverSpansRegions : Prop :=
  ∀ (s : State) (a : Word) (n : Nat) (x : Access), 1 ≤ n →
    (s.cfg.romBase ≤ a.toNat → a.toNat < s.cfg.ramBase → s.cfg.ramBase < a.toNat + n →
      memRead s a n x = .error (regionOverrun .rom a n x)) ∧
    (a.toNat = s.cfg.ramBase → n ≤ s.cfg.ramSize → n ≤ 8 →
      ∃ v, memRead s a n x = .ok v ∧ ∀ j < n, byte v j = s.ram.get j)

/-- 20_memory.md R67, R70, R77, R79: after a store inside RAM, a fetch or read of any width at any
address that answers gives, byte by byte, the stored bytes where it overlaps them and the old bytes
elsewhere. -/
def Obligations.StoreIsSeenByLaterReads : Prop :=
  ∀ (s t : State) (a b : Word) (n m : Nat) (v w : Word) (x : Access),
    s.ram.wf s.cfg.ramSize = true → 1 ≤ m → m ≤ 8 → memWrite s a n v = .ok t →
    memRead t b m x = .ok w →
    ∀ j < m, some (byte w j) =
      if a.toNat ≤ b.toNat + j ∧ b.toNat + j < a.toNat + n then some (byte v (b.toNat + j - a.toNat))
      else s.byteAt (b.toNat + j)

/-! ### The zero-operand instructions -/

/-- 41_zero_operand.md R170: `nac` is the byte 00; its cycle moves `ip` by 1, sets `cur_op` to 0x0000,
counts one cycle, and does nothing else. -/
def Obligations.NacOnlyTakesItsCycle : Prop :=
  ∀ s : State, s.cfg.opcodes = refOpcodes →
    encode s.cfg .nac = [0x00] ∧
    exec .nac s = .next { s with ip := s.ip + 1, curOp := 0x0000, cycles := s.cycles + 1 }

/-- 41_zero_operand.md R171: `wait` is the byte 10; its cycle moves `ip` by 1, sets `cur_op` to 0x0010,
counts one cycle, and does nothing else. -/
def Obligations.WaitOnlyTakesItsCycle : Prop :=
  ∀ s : State, s.cfg.opcodes = refOpcodes →
    encode s.cfg .wait = [0x10] ∧
    exec .wait s = .next { s with ip := s.ip + 1, curOp := 0x0010, cycles := s.cycles + 1 }

/-- 41_zero_operand.md R172: `stop` is the byte 11; its cycle is a complete one that clears `running`,
and no cycle after it changes anything. -/
def Obligations.StopHaltsForGood : Prop :=
  ∀ s : State, s.cfg.opcodes = refOpcodes →
    encode s.cfg .stop = [0x11] ∧
    ∃ t, exec .stop s = .next t ∧
      t = { s with ip := s.ip + 1, curOp := 0x0011, cycles := s.cycles + 1, running := false } ∧
      step t = .next t

/-! ### The sleeps -/

/-- 43_sleep.md R211: a sleep whose operand has the value `k` completes: it loads `k` times its unit
into `countdown` and sets bit 5 of the flags, also when `k` is 0; nothing else but its cycle (that
`opnd[2]` stays is notes/assumptions/16.md). -/
def Obligations.SleepsLoadTheCountdown : Prop :=
  ∀ (s : State) (x : Operand) (k : Word), x.wf none = true → SourceIs s x k →
    exec (.sleepms x) s = .next
      { after (.sleepms x) (latchOf none x) s.opnd2 s with
        countdown := k.toNat * s.cfg.cyclesPerMs, flags := s.flags ||| 0x20#8 } ∧
    exec (.sleepsec x) s = .next
      { after (.sleepsec x) (latchOf none x) s.opnd2 s with
        countdown := k.toNat * s.cfg.cyclesPerSec, flags := s.flags ||| 0x20#8 }

/-- 40_cycle_fetch_decode.md R141: one sleep tick. -/
def Obligations.SleepTickOnlyCounts : Prop :=
  ∀ s : State, s.fault = none → s.running = true → s.flags.getLsbD 5 = true →
    (s.countdown = 1 → step s = .next
      { s with countdown := 0, cycles := s.cycles + 1, flags := s.flags &&& 0xDF#8 }) ∧
    (2 ≤ s.countdown → step s = .next
      { s with countdown := s.countdown - 1, cycles := s.cycles + 1 })

/-- 43_sleep.md R214: a machine that starts to sleep with countdown `c` takes exactly `c` cycles, which
change nothing but the countdown, the cycle count and, in the last, the sleep flag. -/
def Obligations.SleepLastsItsCountdown : Prop :=
  ∀ s : State, s.fault = none → s.running = true → s.flags.getLsbD 5 = true → 1 ≤ s.countdown →
    (∀ k < s.countdown, Host.Core.run core k s = .next
      { s with countdown := s.countdown - k, cycles := s.cycles + k }) ∧
    Host.Core.run core s.countdown s = .next
      { s with countdown := 0, cycles := s.cycles + s.countdown, flags := s.flags &&& 0xDF#8 }

/-! ### The moves -/

/-- 42_move.md R183, R184, R195: a move into a register from a source whose value is `v` completes: the
low bytes of the register become the low bytes of `v`, zero-extended, its other bytes and every other
register stay, and nothing else changes but the move's own cycle. For all eight moves, every source
form, and a source that is also the destination. -/
def Obligations.MoveIntoRegister : Prop :=
  ∀ (s : State) (w : Nat) (k : Fin 64) (x : Operand) (v : Word) (i : Instr),
    i ∈ moves (.r w k) x → i.wf = true → SourceIs s x v →
    ∃ t, exec i s = .next t ∧
      (t.reg k).toNat = (s.reg k).toNat / 2 ^ (8 * w) * 2 ^ (8 * w) + v.toNat % 2 ^ (8 * w) ∧
      (∀ j, j ≠ k → t.reg j = s.reg j) ∧
      t = { after i (latchOf i.operation.nominal (.r w k)) (latchOf i.operation.nominal x) s with
            regs := t.regs }

/-- 42_move.md R183, R184, R195: a move into RAM from a source whose value is `v` completes: the `n`
bytes at the destination's address become the low `n` bytes of `v`, zero-extended, every other byte
reads as before, and nothing else changes but the move's own cycle; the canonical form of RAM is kept.
For all eight moves, both memory modes, every source form, and overlapping places. -/
def Obligations.MoveIntoMemory : Prop :=
  ∀ (s : State) (d x : Operand) (a : Word) (n : Nat) (v : Word) (i : Instr),
    i ∈ moves d x → i.wf = true → s.ram.wf s.cfg.ramSize = true → SourceIs s x v →
    MemoryPlace s d a n → s.cfg.ramBase ≤ a.toNat → a.toNat + n ≤ s.cfg.top →
    ∃ t, exec i s = .next t ∧
      (∀ j < n, t.byteAt (a.toNat + j) = some (byte v j)) ∧
      (∀ b, b < a.toNat ∨ a.toNat + n ≤ b → t.byteAt b = s.byteAt b) ∧
      t.ram.wf s.cfg.ramSize = true ∧
      t = { after i (latchOf i.operation.nominal d) (latchOf i.operation.nominal x) s with
            ram := t.ram }

/-- 30_encoding.md R115, 42_move.md R185: the nominal width matters for `i<` alone. Two moves of
different mnemonics with the same operands, neither of them `i<`, leave the same registers, stores,
flags and counters, and the same fault kind if they fault. -/
def Obligations.MnemonicOnlyWidensImmediates : Prop :=
  ∀ (s : State) (d x : Operand) (i j : Instr) (t u : State),
    i ∈ moves d x → j ∈ moves d x → d.desc.width ≠ 0 → x.desc.width ≠ 0 →
    exec i s = .next t → exec j s = .next u →
    t.regs = u.regs ∧ t.rom = u.rom ∧ t.ram = u.ram ∧ t.flags = u.flags ∧ t.cycles = u.cycles ∧
    t.running = u.running ∧ t.countdown = u.countdown ∧ t.fault = u.fault

/-- 42_move.md R184 and 60_exceptions.md R227: an immediate destination faults, before any data access
(the source may be anything), and records the descriptor byte. -/
def Obligations.ImmediateDestinationFaults : Prop :=
  ∀ (s : State) (w : Nat) (y : Word) (x : Operand) (i : Instr), i ∈ moves (.i w y) x →
    s.fault = none →
    ∃ t, exec i s = .next t ∧
      Faulted s t (decodeRecord .illegalDestination ((s.cfg.byteOf ⟨.i, w⟩).setWidth 16) s.ip)

/-- 60_exceptions.md R222, R229, R231 for data reads (20_memory.md R66): a source in no region, or one
that overruns its region, faults and records the address and width; for every move whose destination
is not an immediate, and for both sleeps. -/
def Obligations.UnreadableSourceFaults : Prop :=
  ∀ (s : State) (d x : Operand) (a : Word) (n : Nat) (i : Instr), s.fault = none →
    MemoryPlace s x a n → (i ∈ sleeps x ∨ (i ∈ moves d x ∧ d.desc.mode ≠ .i)) →
    (route s.cfg a.toNat = none → ∃ t, exec i s = .next t ∧
      Faulted s t (memoryFault .busOutOfBounds a n .read s.ip)) ∧
    (∀ r, route s.cfg a.toNat = some r → r.base s.cfg + r.size s.cfg < a.toNat + n →
      ∃ t, exec i s = .next t ∧ Faulted s t (memoryFault (overrunKind r) a n .read s.ip))

/-- 60_exceptions.md R222, R223, R231 for data writes (20_memory.md R67, R68): a destination in no
region, in ROM (before any length check), or overrunning RAM faults, when the source can be read (that
the record of a write to ROM carries `write` is notes/assumptions/15.md). -/
def Obligations.UnwritableDestinationFaults : Prop :=
  ∀ (s : State) (d x : Operand) (v a : Word) (n : Nat) (i : Instr), s.fault = none →
    i ∈ moves d x → i.wf = true → SourceIs s x v → MemoryPlace s d a n →
    (route s.cfg a.toNat = none → ∃ t, exec i s = .next t ∧
      Faulted s t (memoryFault .busOutOfBounds a n .write s.ip)) ∧
    (route s.cfg a.toNat = some .rom → ∃ t, exec i s = .next t ∧
      Faulted s t (memoryFault .busWriteToROM a n .write s.ip)) ∧
    (route s.cfg a.toNat = some .ram → s.cfg.top < a.toNat + n → ∃ t, exec i s = .next t ∧
      Faulted s t (memoryFault .regionOverrunRAM a n .write s.ip))

/-! ### The cycle -/

/-- 40_cycle_fetch_decode.md R141: when a normal cycle is due and the fetch and decode at `ip` answer an
instruction, the step is `exec` of it from the state with the sleep flag cleared, but that a cycle which
faults keeps the flags as they were before it (R149, 60_exceptions.md R230). `exec` itself moves `ip`
past the instruction, writes `cur_op` and the latches and counts the cycle. -/
def Obligations.StepRunsTheDecodedInstruction : Prop :=
  ∀ (s : State) (i : Instr) (n : Nat), Ready s → fetchDecode s = .ok (i, n) → StepRuns s i

/-- 40_cycle_fetch_decode.md R142 to R147, 20_memory.md R84, R85: when the encoding of a well-formed
instruction stands at `ip`, each operand field of it inside one region (the instruction itself may
start in ROM and end in RAM), the step runs that instruction (the flags of a cycle that faults are those
before it, R149). -/
def Obligations.StepRunsTheInstructionInMemory : Prop :=
  ∀ (s : State) (i : Instr), s.cfg.wf = true → Ready s → i.wf = true →
    BytesAt s s.ip.toNat (encode s.cfg i) →
    (∀ f ∈ dataFields s.cfg i, InOneRegion s.cfg (s.ip.toNat + f.1) f.2) →
    StepRuns s i

/-- 60_exceptions.md R222 for a fetch: `ip` in no region. -/
def Obligations.FetchOutsideMemoryFaults : Prop :=
  ∀ s : State, Ready s → route s.cfg s.ip.toNat = none →
    ∃ t, step s = .next t ∧
      Faulted s t (memoryFault .busOutOfBounds s.ip 1 .fetch s.ip)

/-- 30_encoding.md R121: a prefix byte reads its second byte before the opcode is judged: where that byte
is in no region, its fetch faults; where it is there, the 16-bit value, if it is no opcode, is
recorded by `IllegalOpcode`. -/
def Obligations.PrefixReadsItsSecondByteFirst : Prop :=
  ∀ (s : State) (b0 : Byte), s.cfg.wf = true → Ready s → 0x01 ≤ b0.toNat → b0.toNat ≤ 0x0F →
    s.byteAt s.ip.toNat = some b0 →
    (route s.cfg (s.ip.toNat + 1) = none → ∃ t, step s = .next t ∧
      Faulted s t (memoryFault .busOutOfBounds (s.ip + 1) 1 .fetch s.ip)) ∧
    (∀ b1 : Byte, s.byteAt (s.ip.toNat + 1) = some b1 → s.cfg.operationOf (b0 ++ b1) = none →
      ∃ t, step s = .next t ∧ Faulted s t (decodeRecord .illegalOpcode (b0 ++ b1) s.ip))

/-- 60_exceptions.md R224 with 30_encoding.md R101, R120: a complete one-byte opcode of no mnemonic. -/
def Obligations.IllegalOneByteOpcodeFaults : Prop :=
  ∀ (s : State) (b0 : Byte), Ready s → (b0.toNat = 0 ∨ 0x10 ≤ b0.toNat) →
    s.byteAt s.ip.toNat = some b0 → s.cfg.operationOf (b0.setWidth 16) = none →
    ∃ t, step s = .next t ∧
      Faulted s t (decodeRecord .illegalOpcode (b0.setWidth 16) s.ip)

/-- 60_exceptions.md R225, 40_cycle_fetch_decode.md R145, R147: an illegal descriptor byte faults as soon
as it is fetched: a sleep's descriptor, which may not be of width 0 either; a move's first; a move's
second when the first is legal. -/
def Obligations.IllegalDescriptorFaults : Prop :=
  ∀ (s : State) (d : Byte), s.cfg.wf = true → Ready s →
    (∀ o : SleepOp, BytesAt s s.ip.toNat (opcodeBytes (s.cfg.opcodeOf (.sleep o)) ++ [d]) →
      (∀ e, s.cfg.descOf d = some e → e.width = 0) →
      ∃ t, step s = .next t ∧
        Faulted s t (decodeRecord .illegalDescriptor (d.setWidth 16) s.ip)) ∧
    (∀ o : MoveOp, BytesAt s s.ip.toNat (opcodeBytes (s.cfg.opcodeOf (.move o)) ++ [d]) →
      s.cfg.descOf d = none →
      ∃ t, step s = .next t ∧
        Faulted s t (decodeRecord .illegalDescriptor (d.setWidth 16) s.ip)) ∧
    (∀ (o : MoveOp) (d1 : Byte) (e : Desc),
      BytesAt s s.ip.toNat (opcodeBytes (s.cfg.opcodeOf (.move o)) ++ [d1, d]) →
      s.cfg.descOf d1 = some e → s.cfg.descOf d = none →
      ∃ t, step s = .next t ∧
        Faulted s t (decodeRecord .illegalDescriptor (d.setWidth 16) s.ip))

/-- 60_exceptions.md R226, 40_cycle_fetch_decode.md R146: an index byte above 63 of an `r` or `mr`
operand faults as soon as it is fetched: of a sleep, of a move's destination, and of a move's source
after a legal destination operand. It is not masked. -/
def Obligations.BadRegisterIndexFaults : Prop :=
  ∀ (s : State) (k : Byte) (e : Desc), s.cfg.wf = true → Ready s → 63 < k.toNat →
    (e.mode = .r ∨ e.mode = .mr) → e ∈ Desc.all →
    (∀ o : SleepOp, BytesAt s s.ip.toNat
        (opcodeBytes (s.cfg.opcodeOf (.sleep o)) ++ [s.cfg.byteOf e, k]) →
      ∃ t, step s = .next t ∧
        Faulted s t (decodeRecord .badRegisterIndex (k.setWidth 16) s.ip)) ∧
    (∀ (o : MoveOp) (e2 : Desc), e2 ∈ Desc.all → BytesAt s s.ip.toNat
        (opcodeBytes (s.cfg.opcodeOf (.move o)) ++ [s.cfg.byteOf e, s.cfg.byteOf e2, k]) →
      ∃ t, step s = .next t ∧
        Faulted s t (decodeRecord .badRegisterIndex (k.setWidth 16) s.ip)) ∧
    (∀ (o : MoveOp) (d : Operand), d.wf (some o.nominal) = true → BytesAt s s.ip.toNat
        (opcodeBytes (s.cfg.opcodeOf (.move o)) ++ [s.cfg.byteOf d.desc, s.cfg.byteOf e] ++
          d.encode (some o.nominal) ++ [k]) →
      InOneRegion s.cfg (s.ip.toNat + (s.cfg.opcodeLength (.move o) + 2))
        (d.dataBytes (some o.nominal)) →
      ∃ t, step s = .next t ∧
        Faulted s t (decodeRecord .badRegisterIndex (k.setWidth 16) s.ip))

/-- 60_exceptions.md R229, R231 for a fetch, 20_memory.md R84: an operand's data field that starts in a
region and overruns it: a sleep's, a move's first, and a move's second after a whole first one; of the
effective width, that of `i<` under a move included. -/
def Obligations.StraddlingOperandFieldFaults : Prop :=
  ∀ (s : State) (e : Desc), s.cfg.wf = true → Ready s → e ∈ Desc.all →
    (∀ o : SleepOp, e.width ≠ 0 → StandsAtIp s (.sleep o) [e] [] →
      StraddleFaults s (s.cfg.opcodeLength (.sleep o) + 1) (fieldLength 0 e)) ∧
    (∀ (o : MoveOp) (e2 : Desc), e2 ∈ Desc.all → StandsAtIp s (.move o) [e, e2] [] →
      StraddleFaults s (s.cfg.opcodeLength (.move o) + 2) (fieldLength o.nominal e)) ∧
    (∀ (o : MoveOp) (d : Operand), d.wf (some o.nominal) = true →
      StandsAtIp s (.move o) [d.desc, e] (d.encode (some o.nominal)) →
      InOneRegion s.cfg (s.ip.toNat + (s.cfg.opcodeLength (.move o) + 2))
        (fieldLength o.nominal d.desc) →
      StraddleFaults s (s.cfg.opcodeLength (.move o) + 2 + fieldLength o.nominal d.desc)
        (fieldLength o.nominal e))

/-- 60_exceptions.md R222 for a fetch after the opcode, 20_memory.md R85: a descriptor byte or a data
field that starts in no region (at `TOP`): of a sleep the descriptor and the field, of a move the two
descriptors and the two fields, each after what comes before it. -/
def Obligations.FetchAfterTheOpcodeOutsideMemoryFaults : Prop :=
  ∀ (s : State) (e : Desc), s.cfg.wf = true → Ready s → e ∈ Desc.all →
    (∀ o : SleepOp, StandsAtIp s (.sleep o) [] [] →
      OutsideFaults s (s.cfg.opcodeLength (.sleep o)) 1) ∧
    (∀ o : SleepOp, e.width ≠ 0 → StandsAtIp s (.sleep o) [e] [] →
      OutsideFaults s (s.cfg.opcodeLength (.sleep o) + 1) (fieldLength 0 e)) ∧
    (∀ o : MoveOp, StandsAtIp s (.move o) [] [] →
      OutsideFaults s (s.cfg.opcodeLength (.move o)) 1) ∧
    (∀ o : MoveOp, StandsAtIp s (.move o) [e] [] →
      OutsideFaults s (s.cfg.opcodeLength (.move o) + 1) 1) ∧
    (∀ (o : MoveOp) (e2 : Desc), e2 ∈ Desc.all → StandsAtIp s (.move o) [e, e2] [] →
      OutsideFaults s (s.cfg.opcodeLength (.move o) + 2) (fieldLength o.nominal e)) ∧
    (∀ (o : MoveOp) (d : Operand), d.wf (some o.nominal) = true →
      StandsAtIp s (.move o) [d.desc, e] (d.encode (some o.nominal)) →
      InOneRegion s.cfg (s.ip.toNat + (s.cfg.opcodeLength (.move o) + 2))
        (fieldLength o.nominal d.desc) →
      OutsideFaults s (s.cfg.opcodeLength (.move o) + 2 + fieldLength o.nominal d.desc)
        (fieldLength o.nominal e))

/-! ### Rules of the whole machine -/

/-- 10_state.md R32: only reset sets `running`; a cycle that clears it runs `stop` or takes a fault; and
while it is 0 no cycle changes anything. -/
def Obligations.RunningIsClearedByStopOrFault : Prop :=
  ∀ s t : State, step s = .next t →
    (s.running = false → t = s) ∧
    (s.running = true → t.running = false →
      (s.fault = none ∧ t.fault ≠ none) ∨ ∃ n, fetchDecode s = .ok (.stop, n)) ∧
    (s.fault = none → t.fault ≠ none → t.running = false)

/-- 10_state.md R35, 60_exceptions.md R230, R233: a faulted machine stays exactly as it is. -/
def Obligations.FaultIsTerminal : Prop :=
  ∀ s : State, s.fault ≠ none → ∀ n, Host.Core.run core n s = .next s

/-- 10_state.md R34, 70_reset_and_hazards.md R272: a cycle of a machine that has ended counts nothing, a
cycle that faults counts nothing, and every other cycle counts one. -/
def Obligations.CyclesCountCompletedCycles : Prop :=
  ∀ s t : State, step s = .next t →
    t.cycles = if s.fault ≠ none ∨ s.running = false ∨ t.fault ≠ none then s.cycles
               else s.cycles + 1

/-- 10_state.md R36, R26, R29, R39: no cycle changes ROM, `sp`, the seven flags other than `sleep`, or
the configuration. -/
def Obligations.NoStepChangesRomSpOrInertFlags : Prop :=
  ∀ s t : State, step s = .next t →
    t.rom = s.rom ∧ t.sp = s.sp ∧ t.flags &&& 0xDF#8 = s.flags &&& 0xDF#8 ∧ t.cfg = s.cfg

/-- 10_state.md R22: an instruction that changes a register is a move into that register. -/
def Obligations.OnlyMovesWriteRegisters : Prop :=
  ∀ (i : Instr) (s t : State) (k : Fin 64), exec i s = .next t → t.reg k ≠ s.reg k →
    ∃ w x, i ∈ moves (.r w k) x

/-- 20_memory.md R87: an instruction that changes a byte of memory is a move whose destination is in
memory, and the byte is one of the `n` it stores to, in RAM. -/
def Obligations.OnlyMovesWriteMemory : Prop :=
  ∀ (i : Instr) (s t : State) (b : Nat), s.ram.wf s.cfg.ramSize = true → exec i s = .next t →
    t.byteAt b ≠ s.byteAt b →
    ∃ d x a n, i ∈ moves d x ∧ MemoryPlace s d a n ∧ a.toNat ≤ b ∧ b < a.toNat + n ∧
      route s.cfg b = some .ram

/-- 10_state.md R28, R33: an instruction that changes the flags or the countdown is a sleep. -/
def Obligations.OnlySleepsSetTheTimer : Prop :=
  ∀ (i : Instr) (s t : State), exec i s = .next t → (t.flags ≠ s.flags ∨ t.countdown ≠ s.countdown) →
    ∃ x, i ∈ sleeps x

/-- 60_exceptions.md R230, R234, 40_cycle_fetch_decode.md R149: a cycle that takes a fault changes no
register, no memory byte, no flag, no counter and not `sp`, and names the instruction it stopped in. The
sleep flag too is as it was before the cycle, whose start clears it (R141). -/
def Obligations.FaultsArePrecise : Prop :=
  ∀ s t : State, step s = .next t → s.fault = none → t.fault ≠ none →
    (∃ f, t.fault = some f ∧ f.insnIp = s.ip ∧ Faulted s t f)

/-- 60_exceptions.md R221: the record has `addr`, `width` and `access` for the four memory faults and
`info` for the four decode faults, in every state in which a cycle latches one (that the other fields are
absent is notes/assumptions/15.md). -/
def Obligations.FaultRecordFields : Prop :=
  ∀ (s t : State) (f : FaultRecord), step s = .next t → s.fault = none → t.fault = some f →
    (f.code ≤ 4 → f.addr ≠ none ∧ f.width ≠ none ∧ f.access ≠ none ∧ f.info = none) ∧
    (4 < f.code → f.addr = none ∧ f.width = none ∧ f.access = none ∧ f.info ≠ none)

/-- 60_exceptions.md R220: the eight kinds of fault and their codes; a code names one kind. -/
def Obligations.FaultCodesOfTheTable : Prop :=
  (FaultKind.busOutOfBounds.code = 1 ∧ FaultKind.busWriteToROM.code = 2 ∧
    FaultKind.regionOverrunROM.code = 3 ∧ FaultKind.regionOverrunRAM.code = 4 ∧
    FaultKind.illegalOpcode.code = 5 ∧ FaultKind.illegalDescriptor.code = 6 ∧
    FaultKind.badRegisterIndex.code = 7 ∧ FaultKind.illegalDestination.code = 8) ∧
  ∀ j k : FaultKind, j.code = k.code → j = k

/-- 10_state.md R38, 20_memory.md R80: a sticky bit that a cycle sets is the bit of the region whose
overrun the cycle's fault is, in test mode; no cycle clears one. -/
def Obligations.StickyBitsFollowOverruns : Prop :=
  ∀ s t : State, step s = .next t →
    (t.romErr = true ↔ s.romErr = true ∨ (s.cfg.testMode = true ∧ s.fault = none ∧
      s.running = true ∧ ∃ f, t.fault = some f ∧ f.kind = .regionOverrunROM)) ∧
    (t.ramErr = true ↔ s.ramErr = true ∨ (s.cfg.testMode = true ∧ s.fault = none ∧
      s.running = true ∧ ∃ f, t.fault = some f ∧ f.kind = .regionOverrunRAM))

/-- 40_cycle_fetch_decode.md R152, 10_state.md R25: a normal cycle that completes advances `ip` by the
length of the instruction just run, 1 to 20 bytes, without a wrap; a tick or a stopped cycle leaves it. -/
def Obligations.IpOnlyAdvances : Prop :=
  ∀ s t : State, s.cfg.wf = true → step s = .next t → t.fault = none →
    (¬ Ready s → t.ip = s.ip) ∧
    (Ready s → ∃ i n, fetchDecode s = .ok (i, n) ∧ n = i.length s.cfg ∧ 1 ≤ n ∧ n ≤ 20 ∧
      t.ip.toNat = s.ip.toNat + n)

/-- 10_state.md R31, R30: `cur_op` and the operand latches carry nothing from one cycle to the next: a
machine with others takes the same step, up to those three. -/
def Obligations.LatchesCarryNothing : Prop :=
  ∀ (s t : State) (v : BitVec 16) (l1 l2 : Latch), step s = .next t →
    ∃ t', step { s with curOp := v, opnd1 := l1, opnd2 := l2 } = .next t' ∧
      t' = { t with curOp := t'.curOp, opnd1 := t'.opnd1, opnd2 := t'.opnd2 }

/-- 10_state.md R26, R29, 60_exceptions.md R235, R240: `sp` and the seven flags other than `sleep` steer
nothing: a machine with others takes the same step and keeps them. -/
def Obligations.SpAndInertFlagsSteerNothing : Prop :=
  ∀ (s t : State) (p : Word) (g : BitVec 8), g.getLsbD 5 = s.flags.getLsbD 5 → step s = .next t →
    step { s with sp := p, flags := g } =
      .next { t with sp := p, flags := (g &&& 0xDF#8) ||| (t.flags &&& 0x20#8) }

/-- The model's own rule (notes/assumptions/7.md): every cycle of every state answers a next state, a
fault of the machine among them. -/
def Obligations.EveryStepAnswers : Prop := ∀ s : State, ∃ t, step s = .next t

/-! ### Invariants and runs -/

/-- 10_state.md section 9, R26, R29, R31, R32, R38, 41_zero_operand.md R172: the invariant of the state
is kept by every step. -/
def Obligations.StepKeepsTheInvariant : Prop :=
  ∀ s t : State, s.Inv → step s = .next t → t.Inv

/-- The invariant holds after reset, for every configuration that meets its constraints, every loaded
ROM and every value of what reset leaves unspecified (70_reset_and_hazards.md R260, R262); and of the
host's `State.reset`, which rests on notes/assumptions/1.md and 3.md to 5.md. -/
def Obligations.ResetMeetsTheInvariant : Prop :=
  (∀ (c : Config) (rom : Memory) (x : ResetInputs), c.wf = true → rom.wf c.romSize = true →
    x.Ok c → (State.resetWith c rom x).Inv ∧ (State.resetWith c rom x).ipMapped) ∧
  State.reset.Inv ∧ State.reset.ipMapped

/-- 10_state.md R25, 20_memory.md R69: `ip` stays in the mapped range or just past it. -/
def Obligations.StepKeepsIpMapped : Prop :=
  ∀ s t : State, s.cfg.wf = true → s.ipMapped → step s = .next t → t.ipMapped

/-- 40_cycle_fetch_decode.md R151: a run that does not end is impossible: from every state, after some
number of cycles the machine is halted or faulted. -/
def Obligations.EveryRunEnds : Prop :=
  ∀ s : State, s.cfg.wf = true → ∃ n t, Host.Core.run core n s = .next t ∧ t.ended

/-! ### Reset and the host -/

/-- 70_reset_and_hazards.md R260, R261, 20_memory.md R83: power-up with an image of exactly `ROM_SIZE`
bytes leaves the state the rule lists, the image's byte 0 at `ROM_BASE`, and every register, RAM byte,
`cur_op` and latch as the free inputs say. `sp` holds the parameter `SP_RESET`, which by 10_state.md R26
is `RAM_BASE + RAM_SIZE - 1`. -/
def Obligations.PowerUpLeavesTheResetState : Prop :=
  ∀ (c : Config) (image : List Byte) (x : ResetInputs), c.wf = true → image.length = c.romSize →
    ∃ s, powerUp c image x = .next s ∧
      s.ip.toNat = c.romBase ∧ s.sp = c.spReset ∧
      (c.spReset = c.ramLast → s.sp.toNat = c.ramBase + c.ramSize - 1) ∧ s.running = true ∧
      s.flags = 0 ∧ s.countdown = 0 ∧ s.cycles = 0 ∧ s.fault = none ∧ s.romErr = false ∧
      s.ramErr = false ∧ s.regs = x.regs ∧ s.ram = x.ram ∧ s.curOp = x.curOp ∧
      s.opnd1 = x.opnd1 ∧ s.opnd2 = x.opnd2 ∧ s.cfg = c ∧
      s.rom.wf c.romSize = true ∧ BytesAt s c.romBase image

/-- 70_reset_and_hazards.md R269, 10_state.md R32, R35: a reset of any machine, a halted or a faulted one
among them, re-establishes the reset state with the ROM kept and the registers, RAM, `cur_op` and
latches the new free inputs: `running` set, the fault cleared, a normal cycle due at `ROM_BASE`; and
where the ROM was well formed, the invariant holds again. -/
def Obligations.MachineResetStartsAnew : Prop :=
  ∀ (s : State) (x : ResetInputs), s.cfg.wf = true →
    let t := machineReset x s
    Ready t ∧ t.running = true ∧ t.fault = none ∧ t.ip.toNat = s.cfg.romBase ∧
    t.sp = s.cfg.spReset ∧ t.flags = 0 ∧ t.countdown = 0 ∧ t.cycles = 0 ∧ t.romErr = false ∧
    t.ramErr = false ∧ t.rom = s.rom ∧ t.cfg = s.cfg ∧ t.regs = x.regs ∧ t.ram = x.ram ∧
    t.curOp = x.curOp ∧ t.opnd1 = x.opnd1 ∧ t.opnd2 = x.opnd2 ∧
    (s.rom.wf s.cfg.romSize = true → x.Ok s.cfg → t.Inv ∧ t.ipMapped)

/-- 20_memory.md R83: loading an image replaces ROM entirely and touches nothing else; an image of any
other length is refused. -/
def Obligations.LoadReplacesRomEntirely : Prop :=
  ∀ (s : State) (image : List Byte),
    (image.length = s.cfg.romSize → ∃ t, loadROM image s = .next t ∧ t = { s with rom := t.rom } ∧
      BytesAt t s.cfg.romBase image) ∧
    (image.length ≠ s.cfg.romSize → loadROM image s = .fault (.structuralError image.length))

/-- 20_memory.md R82 with R65: a host write inside RAM puts each byte at its address, a host read of the
same bytes gives them back, and every other byte is as before; nothing else of the state changes. -/
def Obligations.HostWriteThenReadBack : Prop :=
  ∀ (s : State) (a : Nat) (bytes : List Byte), s.ram.wf s.cfg.ramSize = true → bytes ≠ [] →
    s.cfg.ramBase ≤ a → a + bytes.length ≤ s.cfg.top →
    ∃ t, hostWrite a bytes s = .next t ∧ t = { s with ram := t.ram } ∧ BytesAt t a bytes ∧
      hostRead .ram a bytes.length t = .next (bytes, t) ∧
      (∀ b, b < a ∨ a + bytes.length ≤ b → t.byteAt b = s.byteAt b)

/-- 20_memory.md R82 with R65: a host read inside ROM or RAM gives the `n` bytes at those addresses, the
first one first, and changes nothing. -/
def Obligations.HostReadGivesTheBytes : Prop :=
  ∀ (s : State) (r : Region) (a n : Nat), 1 ≤ n → r.base s.cfg ≤ a →
    a + n ≤ r.base s.cfg + r.size s.cfg →
    ∃ bytes, hostRead r a n s = .next (bytes, s) ∧ bytes.length = n ∧ BytesAt s a bytes

/-- 20_memory.md R65, R80, R82: an access at a region's own port that starts outside the region or
overruns it is a Region error: in test mode the region's sticky bit is set, no byte is stored and the
machine goes on; otherwise the host's run ends. -/
def Obligations.HostPortRegionErrors : Prop :=
  ∀ (s : State) (r : Region) (a n : Nat), 1 ≤ n →
    (a < r.base s.cfg ∨ r.base s.cfg + r.size s.cfg < a + n) →
    (s.cfg.testMode = true → ∃ bytes t, hostRead r a n s = .next (bytes, t) ∧
      queryRegionError r t = true ∧ t.rom = s.rom ∧ t.ram = s.ram ∧ t.fault = s.fault ∧
      t.running = s.running) ∧
    (s.cfg.testMode = false → hostRead r a n s = .fault (.regionError r a n)) ∧
    (∀ bytes, r = .ram → bytes.length = n → s.cfg.testMode = true →
      hostWrite a bytes s = .next { s with ramErr := true }) ∧
    (∀ bytes, r = .ram → bytes.length = n → s.cfg.testMode = false →
      hostWrite a bytes s = .fault (.regionError .ram a n))

/-- 20_memory.md R81: the sticky bits are queried without change and reset one by one; a machine reset
clears both; and once set a bit stays set through any cycle, and through a successful host read or host
write. -/
def Obligations.StickyBitsAreResettable : Prop :=
  ∀ s : State,
    (queryRegionError .rom s = s.romErr ∧ queryRegionError .ram s = s.ramErr) ∧
    resetRegionError .rom s = { s with romErr := false } ∧
    resetRegionError .ram s = { s with ramErr := false } ∧
    (∀ x, (machineReset x s).romErr = false ∧ (machineReset x s).ramErr = false) ∧
    (∀ t r, step s = .next t → queryRegionError r s = true → queryRegionError r t = true) ∧
    (∀ r q a n, 1 ≤ n → q.base s.cfg ≤ a → a + n ≤ q.base s.cfg + q.size s.cfg →
      ∃ bytes t, hostRead q a n s = .next (bytes, t) ∧
        (queryRegionError r s = true → queryRegionError r t = true)) ∧
    (∀ r a bytes, bytes ≠ [] → s.cfg.ramBase ≤ a → a + bytes.length ≤ s.cfg.top →
      ∃ t, hostWrite a bytes s = .next t ∧
        (queryRegionError r s = true → queryRegionError r t = true))
end

