-- ==== Sys2Proof/Laws/State.lean ====
section
/-! SUPPORT. For each named update of the state, what every field holds after it. -/

namespace Sys2Proof.Machine

/-! ### `State.setSleep` -/

@[simp] theorem State.setSleep_cfg (s : State) : s.setSleep.cfg = s.cfg := rfl
@[simp] theorem State.setSleep_regs (s : State) : s.setSleep.regs = s.regs := rfl
@[simp] theorem State.setSleep_ip (s : State) : s.setSleep.ip = s.ip := rfl
@[simp] theorem State.setSleep_sp (s : State) : s.setSleep.sp = s.sp := rfl
@[simp] theorem State.setSleep_flags (s : State) :
    s.setSleep.flags = s.flags ||| Flag.sleep.mask := rfl
@[simp] theorem State.setSleep_curOp (s : State) : s.setSleep.curOp = s.curOp := rfl
@[simp] theorem State.setSleep_opnd1 (s : State) : s.setSleep.opnd1 = s.opnd1 := rfl
@[simp] theorem State.setSleep_opnd2 (s : State) : s.setSleep.opnd2 = s.opnd2 := rfl
@[simp] theorem State.setSleep_running (s : State) : s.setSleep.running = s.running := rfl
@[simp] theorem State.setSleep_countdown (s : State) : s.setSleep.countdown = s.countdown := rfl
@[simp] theorem State.setSleep_cycles (s : State) : s.setSleep.cycles = s.cycles := rfl
@[simp] theorem State.setSleep_fault (s : State) : s.setSleep.fault = s.fault := rfl
@[simp] theorem State.setSleep_rom (s : State) : s.setSleep.rom = s.rom := rfl
@[simp] theorem State.setSleep_ram (s : State) : s.setSleep.ram = s.ram := rfl
@[simp] theorem State.setSleep_romErr (s : State) : s.setSleep.romErr = s.romErr := rfl
@[simp] theorem State.setSleep_ramErr (s : State) : s.setSleep.ramErr = s.ramErr := rfl
@[simp] theorem State.setSleep_draws (s : State) : s.setSleep.draws = s.draws := rfl

/-! ### `State.clearSleep` -/

@[simp] theorem State.clearSleep_cfg (s : State) : s.clearSleep.cfg = s.cfg := rfl
@[simp] theorem State.clearSleep_regs (s : State) : s.clearSleep.regs = s.regs := rfl
@[simp] theorem State.clearSleep_ip (s : State) : s.clearSleep.ip = s.ip := rfl
@[simp] theorem State.clearSleep_sp (s : State) : s.clearSleep.sp = s.sp := rfl
@[simp] theorem State.clearSleep_flags (s : State) :
    s.clearSleep.flags = s.flags &&& ~~~Flag.sleep.mask := rfl
@[simp] theorem State.clearSleep_curOp (s : State) : s.clearSleep.curOp = s.curOp := rfl
@[simp] theorem State.clearSleep_opnd1 (s : State) : s.clearSleep.opnd1 = s.opnd1 := rfl
@[simp] theorem State.clearSleep_opnd2 (s : State) : s.clearSleep.opnd2 = s.opnd2 := rfl
@[simp] theorem State.clearSleep_running (s : State) : s.clearSleep.running = s.running := rfl
@[simp] theorem State.clearSleep_countdown (s : State) : s.clearSleep.countdown = s.countdown := rfl
@[simp] theorem State.clearSleep_cycles (s : State) : s.clearSleep.cycles = s.cycles := rfl
@[simp] theorem State.clearSleep_fault (s : State) : s.clearSleep.fault = s.fault := rfl
@[simp] theorem State.clearSleep_rom (s : State) : s.clearSleep.rom = s.rom := rfl
@[simp] theorem State.clearSleep_ram (s : State) : s.clearSleep.ram = s.ram := rfl
@[simp] theorem State.clearSleep_romErr (s : State) : s.clearSleep.romErr = s.romErr := rfl
@[simp] theorem State.clearSleep_ramErr (s : State) : s.clearSleep.ramErr = s.ramErr := rfl
@[simp] theorem State.clearSleep_draws (s : State) : s.clearSleep.draws = s.draws := rfl

/-! ### `State.setReg` -/

@[simp] theorem State.setReg_cfg (s : State) (k : Fin 64) (v : Word) :
    (s.setReg k v).cfg = s.cfg := rfl
@[simp] theorem State.setReg_regs (s : State) (k : Fin 64) (v : Word) :
    (s.setReg k v).regs = s.regs.set k v := rfl
@[simp] theorem State.setReg_ip (s : State) (k : Fin 64) (v : Word) :
    (s.setReg k v).ip = s.ip := rfl
@[simp] theorem State.setReg_sp (s : State) (k : Fin 64) (v : Word) :
    (s.setReg k v).sp = s.sp := rfl
@[simp] theorem State.setReg_flags (s : State) (k : Fin 64) (v : Word) :
    (s.setReg k v).flags = s.flags := rfl
@[simp] theorem State.setReg_curOp (s : State) (k : Fin 64) (v : Word) :
    (s.setReg k v).curOp = s.curOp := rfl
@[simp] theorem State.setReg_opnd1 (s : State) (k : Fin 64) (v : Word) :
    (s.setReg k v).opnd1 = s.opnd1 := rfl
@[simp] theorem State.setReg_opnd2 (s : State) (k : Fin 64) (v : Word) :
    (s.setReg k v).opnd2 = s.opnd2 := rfl
@[simp] theorem State.setReg_running (s : State) (k : Fin 64) (v : Word) :
    (s.setReg k v).running = s.running := rfl
@[simp] theorem State.setReg_countdown (s : State) (k : Fin 64) (v : Word) :
    (s.setReg k v).countdown = s.countdown := rfl
@[simp] theorem State.setReg_cycles (s : State) (k : Fin 64) (v : Word) :
    (s.setReg k v).cycles = s.cycles := rfl
@[simp] theorem State.setReg_fault (s : State) (k : Fin 64) (v : Word) :
    (s.setReg k v).fault = s.fault := rfl
@[simp] theorem State.setReg_rom (s : State) (k : Fin 64) (v : Word) :
    (s.setReg k v).rom = s.rom := rfl
@[simp] theorem State.setReg_ram (s : State) (k : Fin 64) (v : Word) :
    (s.setReg k v).ram = s.ram := rfl
@[simp] theorem State.setReg_romErr (s : State) (k : Fin 64) (v : Word) :
    (s.setReg k v).romErr = s.romErr := rfl
@[simp] theorem State.setReg_ramErr (s : State) (k : Fin 64) (v : Word) :
    (s.setReg k v).ramErr = s.ramErr := rfl
@[simp] theorem State.setReg_draws (s : State) (k : Fin 64) (v : Word) :
    (s.setReg k v).draws = s.draws := rfl

/-! ### `State.setRegLow` -/

@[simp] theorem State.setRegLow_cfg (s : State) (k : Fin 64) (w : Nat) (v : Word) :
    (s.setRegLow k w v).cfg = s.cfg := rfl
@[simp] theorem State.setRegLow_regs (s : State) (k : Fin 64) (w : Nat) (v : Word) :
    (s.setRegLow k w v).regs = s.regs.set k (mergeLow w (s.reg k) v) := rfl
@[simp] theorem State.setRegLow_ip (s : State) (k : Fin 64) (w : Nat) (v : Word) :
    (s.setRegLow k w v).ip = s.ip := rfl
@[simp] theorem State.setRegLow_sp (s : State) (k : Fin 64) (w : Nat) (v : Word) :
    (s.setRegLow k w v).sp = s.sp := rfl
@[simp] theorem State.setRegLow_flags (s : State) (k : Fin 64) (w : Nat) (v : Word) :
    (s.setRegLow k w v).flags = s.flags := rfl
@[simp] theorem State.setRegLow_curOp (s : State) (k : Fin 64) (w : Nat) (v : Word) :
    (s.setRegLow k w v).curOp = s.curOp := rfl
@[simp] theorem State.setRegLow_opnd1 (s : State) (k : Fin 64) (w : Nat) (v : Word) :
    (s.setRegLow k w v).opnd1 = s.opnd1 := rfl
@[simp] theorem State.setRegLow_opnd2 (s : State) (k : Fin 64) (w : Nat) (v : Word) :
    (s.setRegLow k w v).opnd2 = s.opnd2 := rfl
@[simp] theorem State.setRegLow_running (s : State) (k : Fin 64) (w : Nat) (v : Word) :
    (s.setRegLow k w v).running = s.running := rfl
@[simp] theorem State.setRegLow_countdown (s : State) (k : Fin 64) (w : Nat) (v : Word) :
    (s.setRegLow k w v).countdown = s.countdown := rfl
@[simp] theorem State.setRegLow_cycles (s : State) (k : Fin 64) (w : Nat) (v : Word) :
    (s.setRegLow k w v).cycles = s.cycles := rfl
@[simp] theorem State.setRegLow_fault (s : State) (k : Fin 64) (w : Nat) (v : Word) :
    (s.setRegLow k w v).fault = s.fault := rfl
@[simp] theorem State.setRegLow_rom (s : State) (k : Fin 64) (w : Nat) (v : Word) :
    (s.setRegLow k w v).rom = s.rom := rfl
@[simp] theorem State.setRegLow_ram (s : State) (k : Fin 64) (w : Nat) (v : Word) :
    (s.setRegLow k w v).ram = s.ram := rfl
@[simp] theorem State.setRegLow_romErr (s : State) (k : Fin 64) (w : Nat) (v : Word) :
    (s.setRegLow k w v).romErr = s.romErr := rfl
@[simp] theorem State.setRegLow_ramErr (s : State) (k : Fin 64) (w : Nat) (v : Word) :
    (s.setRegLow k w v).ramErr = s.ramErr := rfl
@[simp] theorem State.setRegLow_draws (s : State) (k : Fin 64) (w : Nat) (v : Word) :
    (s.setRegLow k w v).draws = s.draws := rfl

/-! ### `State.setRam` -/

@[simp] theorem State.setRam_cfg (s : State) (m : Memory) : (s.setRam m).cfg = s.cfg := rfl
@[simp] theorem State.setRam_regs (s : State) (m : Memory) : (s.setRam m).regs = s.regs := rfl
@[simp] theorem State.setRam_ip (s : State) (m : Memory) : (s.setRam m).ip = s.ip := rfl
@[simp] theorem State.setRam_sp (s : State) (m : Memory) : (s.setRam m).sp = s.sp := rfl
@[simp] theorem State.setRam_flags (s : State) (m : Memory) : (s.setRam m).flags = s.flags := rfl
@[simp] theorem State.setRam_curOp (s : State) (m : Memory) : (s.setRam m).curOp = s.curOp := rfl
@[simp] theorem State.setRam_opnd1 (s : State) (m : Memory) : (s.setRam m).opnd1 = s.opnd1 := rfl
@[simp] theorem State.setRam_opnd2 (s : State) (m : Memory) : (s.setRam m).opnd2 = s.opnd2 := rfl
@[simp] theorem State.setRam_running (s : State) (m : Memory) :
    (s.setRam m).running = s.running := rfl
@[simp] theorem State.setRam_countdown (s : State) (m : Memory) :
    (s.setRam m).countdown = s.countdown := rfl
@[simp] theorem State.setRam_cycles (s : State) (m : Memory) : (s.setRam m).cycles = s.cycles := rfl
@[simp] theorem State.setRam_fault (s : State) (m : Memory) : (s.setRam m).fault = s.fault := rfl
@[simp] theorem State.setRam_rom (s : State) (m : Memory) : (s.setRam m).rom = s.rom := rfl
@[simp] theorem State.setRam_ram (s : State) (m : Memory) : (s.setRam m).ram = m := rfl
@[simp] theorem State.setRam_romErr (s : State) (m : Memory) : (s.setRam m).romErr = s.romErr := rfl
@[simp] theorem State.setRam_ramErr (s : State) (m : Memory) : (s.setRam m).ramErr = s.ramErr := rfl
@[simp] theorem State.setRam_draws (s : State) (m : Memory) : (s.setRam m).draws = s.draws := rfl

/-! ### `State.halt` -/

@[simp] theorem State.halt_cfg (s : State) : s.halt.cfg = s.cfg := rfl
@[simp] theorem State.halt_regs (s : State) : s.halt.regs = s.regs := rfl
@[simp] theorem State.halt_ip (s : State) : s.halt.ip = s.ip := rfl
@[simp] theorem State.halt_sp (s : State) : s.halt.sp = s.sp := rfl
@[simp] theorem State.halt_flags (s : State) : s.halt.flags = s.flags := rfl
@[simp] theorem State.halt_curOp (s : State) : s.halt.curOp = s.curOp := rfl
@[simp] theorem State.halt_opnd1 (s : State) : s.halt.opnd1 = s.opnd1 := rfl
@[simp] theorem State.halt_opnd2 (s : State) : s.halt.opnd2 = s.opnd2 := rfl
@[simp] theorem State.halt_running (s : State) : s.halt.running = false := rfl
@[simp] theorem State.halt_countdown (s : State) : s.halt.countdown = s.countdown := rfl
@[simp] theorem State.halt_cycles (s : State) : s.halt.cycles = s.cycles := rfl
@[simp] theorem State.halt_fault (s : State) : s.halt.fault = s.fault := rfl
@[simp] theorem State.halt_rom (s : State) : s.halt.rom = s.rom := rfl
@[simp] theorem State.halt_ram (s : State) : s.halt.ram = s.ram := rfl
@[simp] theorem State.halt_romErr (s : State) : s.halt.romErr = s.romErr := rfl
@[simp] theorem State.halt_ramErr (s : State) : s.halt.ramErr = s.ramErr := rfl
@[simp] theorem State.halt_draws (s : State) : s.halt.draws = s.draws := rfl

/-! ### `State.startSleep` -/

@[simp] theorem State.startSleep_cfg (s : State) (n : Nat) : (s.startSleep n).cfg = s.cfg := rfl
@[simp] theorem State.startSleep_regs (s : State) (n : Nat) : (s.startSleep n).regs = s.regs := rfl
@[simp] theorem State.startSleep_ip (s : State) (n : Nat) : (s.startSleep n).ip = s.ip := rfl
@[simp] theorem State.startSleep_sp (s : State) (n : Nat) : (s.startSleep n).sp = s.sp := rfl
@[simp] theorem State.startSleep_flags (s : State) (n : Nat) :
    (s.startSleep n).flags = s.flags ||| Flag.sleep.mask := rfl
@[simp] theorem State.startSleep_curOp (s : State) (n : Nat) :
    (s.startSleep n).curOp = s.curOp := rfl
@[simp] theorem State.startSleep_opnd1 (s : State) (n : Nat) :
    (s.startSleep n).opnd1 = s.opnd1 := rfl
@[simp] theorem State.startSleep_opnd2 (s : State) (n : Nat) :
    (s.startSleep n).opnd2 = s.opnd2 := rfl
@[simp] theorem State.startSleep_running (s : State) (n : Nat) :
    (s.startSleep n).running = s.running := rfl
@[simp] theorem State.startSleep_countdown (s : State) (n : Nat) :
    (s.startSleep n).countdown = n := rfl
@[simp] theorem State.startSleep_cycles (s : State) (n : Nat) :
    (s.startSleep n).cycles = s.cycles := rfl
@[simp] theorem State.startSleep_fault (s : State) (n : Nat) :
    (s.startSleep n).fault = s.fault := rfl
@[simp] theorem State.startSleep_rom (s : State) (n : Nat) : (s.startSleep n).rom = s.rom := rfl
@[simp] theorem State.startSleep_ram (s : State) (n : Nat) : (s.startSleep n).ram = s.ram := rfl
@[simp] theorem State.startSleep_romErr (s : State) (n : Nat) :
    (s.startSleep n).romErr = s.romErr := rfl
@[simp] theorem State.startSleep_ramErr (s : State) (n : Nat) :
    (s.startSleep n).ramErr = s.ramErr := rfl
@[simp] theorem State.startSleep_draws (s : State) (n : Nat) :
    (s.startSleep n).draws = s.draws := rfl

/-! ### `State.countCycle` -/

@[simp] theorem State.countCycle_cfg (s : State) : s.countCycle.cfg = s.cfg := rfl
@[simp] theorem State.countCycle_regs (s : State) : s.countCycle.regs = s.regs := rfl
@[simp] theorem State.countCycle_ip (s : State) : s.countCycle.ip = s.ip := rfl
@[simp] theorem State.countCycle_sp (s : State) : s.countCycle.sp = s.sp := rfl
@[simp] theorem State.countCycle_flags (s : State) : s.countCycle.flags = s.flags := rfl
@[simp] theorem State.countCycle_curOp (s : State) : s.countCycle.curOp = s.curOp := rfl
@[simp] theorem State.countCycle_opnd1 (s : State) : s.countCycle.opnd1 = s.opnd1 := rfl
@[simp] theorem State.countCycle_opnd2 (s : State) : s.countCycle.opnd2 = s.opnd2 := rfl
@[simp] theorem State.countCycle_running (s : State) : s.countCycle.running = s.running := rfl
@[simp] theorem State.countCycle_countdown (s : State) : s.countCycle.countdown = s.countdown := rfl
@[simp] theorem State.countCycle_cycles (s : State) : s.countCycle.cycles = s.cycles + 1 := rfl
@[simp] theorem State.countCycle_fault (s : State) : s.countCycle.fault = s.fault := rfl
@[simp] theorem State.countCycle_rom (s : State) : s.countCycle.rom = s.rom := rfl
@[simp] theorem State.countCycle_ram (s : State) : s.countCycle.ram = s.ram := rfl
@[simp] theorem State.countCycle_romErr (s : State) : s.countCycle.romErr = s.romErr := rfl
@[simp] theorem State.countCycle_ramErr (s : State) : s.countCycle.ramErr = s.ramErr := rfl
@[simp] theorem State.countCycle_draws (s : State) : s.countCycle.draws = s.draws := rfl

/-! ### `State.decoded` -/

@[simp] theorem State.decoded_cfg (s : State) (i : Instr) : (s.decoded i).cfg = s.cfg := rfl
@[simp] theorem State.decoded_regs (s : State) (i : Instr) : (s.decoded i).regs = s.regs := rfl
@[simp] theorem State.decoded_ip (s : State) (i : Instr) :
    (s.decoded i).ip = s.ip + BitVec.ofNat 64 (i.length s.cfg) := rfl
@[simp] theorem State.decoded_sp (s : State) (i : Instr) : (s.decoded i).sp = s.sp := rfl
@[simp] theorem State.decoded_flags (s : State) (i : Instr) : (s.decoded i).flags = s.flags := rfl
@[simp] theorem State.decoded_curOp (s : State) (i : Instr) :
    (s.decoded i).curOp = s.cfg.opcodeOf i.operation := rfl
@[simp] theorem State.decoded_opnd1 (s : State) (i : Instr) :
    (s.decoded i).opnd1 = (i.operands[0]?.map (latchOf i.operation.nominal)).getD s.opnd1 := rfl
@[simp] theorem State.decoded_opnd2 (s : State) (i : Instr) :
    (s.decoded i).opnd2 = (i.operands[1]?.map (latchOf i.operation.nominal)).getD s.opnd2 := rfl
@[simp] theorem State.decoded_running (s : State) (i : Instr) :
    (s.decoded i).running = s.running := rfl
@[simp] theorem State.decoded_countdown (s : State) (i : Instr) :
    (s.decoded i).countdown = s.countdown := rfl
@[simp] theorem State.decoded_cycles (s : State) (i : Instr) :
    (s.decoded i).cycles = s.cycles := rfl
@[simp] theorem State.decoded_fault (s : State) (i : Instr) : (s.decoded i).fault = s.fault := rfl
@[simp] theorem State.decoded_rom (s : State) (i : Instr) : (s.decoded i).rom = s.rom := rfl
@[simp] theorem State.decoded_ram (s : State) (i : Instr) : (s.decoded i).ram = s.ram := rfl
@[simp] theorem State.decoded_romErr (s : State) (i : Instr) :
    (s.decoded i).romErr = s.romErr := rfl
@[simp] theorem State.decoded_ramErr (s : State) (i : Instr) :
    (s.decoded i).ramErr = s.ramErr := rfl
@[simp] theorem State.decoded_draws (s : State) (i : Instr) : (s.decoded i).draws = s.draws := rfl

/-! ### `stick` -/

@[simp] theorem stick_cfg (s : State) (k : FaultKind) : (stick s k).cfg = s.cfg := rfl
@[simp] theorem stick_regs (s : State) (k : FaultKind) : (stick s k).regs = s.regs := rfl
@[simp] theorem stick_ip (s : State) (k : FaultKind) : (stick s k).ip = s.ip := rfl
@[simp] theorem stick_sp (s : State) (k : FaultKind) : (stick s k).sp = s.sp := rfl
@[simp] theorem stick_flags (s : State) (k : FaultKind) : (stick s k).flags = s.flags := rfl
@[simp] theorem stick_curOp (s : State) (k : FaultKind) : (stick s k).curOp = s.curOp := rfl
@[simp] theorem stick_opnd1 (s : State) (k : FaultKind) : (stick s k).opnd1 = s.opnd1 := rfl
@[simp] theorem stick_opnd2 (s : State) (k : FaultKind) : (stick s k).opnd2 = s.opnd2 := rfl
@[simp] theorem stick_running (s : State) (k : FaultKind) : (stick s k).running = s.running := rfl
@[simp] theorem stick_countdown (s : State) (k : FaultKind) :
    (stick s k).countdown = s.countdown := rfl
@[simp] theorem stick_cycles (s : State) (k : FaultKind) : (stick s k).cycles = s.cycles := rfl
@[simp] theorem stick_fault (s : State) (k : FaultKind) : (stick s k).fault = s.fault := rfl
@[simp] theorem stick_rom (s : State) (k : FaultKind) : (stick s k).rom = s.rom := rfl
@[simp] theorem stick_ram (s : State) (k : FaultKind) : (stick s k).ram = s.ram := rfl
@[simp] theorem stick_romErr (s : State) (k : FaultKind) :
    (stick s k).romErr = (s.romErr || (s.cfg.testMode && k == .regionOverrunROM)) := rfl
@[simp] theorem stick_ramErr (s : State) (k : FaultKind) :
    (stick s k).ramErr = (s.ramErr || (s.cfg.testMode && k == .regionOverrunRAM)) := rfl
@[simp] theorem stick_draws (s : State) (k : FaultKind) : (stick s k).draws = s.draws := rfl

/-! ### `raise` -/

@[simp] theorem raise_cfg (a : Word) (f : FaultCause) (s : State) : (raise a f s).cfg = s.cfg := rfl
@[simp] theorem raise_regs (a : Word) (f : FaultCause) (s : State) :
    (raise a f s).regs = s.regs := rfl
@[simp] theorem raise_ip (a : Word) (f : FaultCause) (s : State) :
    (raise a f s).ip = Config.freeIp s.draws := rfl
@[simp] theorem raise_sp (a : Word) (f : FaultCause) (s : State) : (raise a f s).sp = s.sp := rfl
@[simp] theorem raise_flags (a : Word) (f : FaultCause) (s : State) :
    (raise a f s).flags = s.flags := rfl
@[simp] theorem raise_curOp (a : Word) (f : FaultCause) (s : State) :
    (raise a f s).curOp = Config.freeCurOp s.draws := rfl
@[simp] theorem raise_opnd1 (a : Word) (f : FaultCause) (s : State) :
    (raise a f s).opnd1 = freeLatch s.draws 1 := rfl
@[simp] theorem raise_opnd2 (a : Word) (f : FaultCause) (s : State) :
    (raise a f s).opnd2 = freeLatch s.draws 2 := rfl
@[simp] theorem raise_running (a : Word) (f : FaultCause) (s : State) :
    (raise a f s).running = false := rfl
@[simp] theorem raise_countdown (a : Word) (f : FaultCause) (s : State) :
    (raise a f s).countdown = s.countdown := rfl
@[simp] theorem raise_cycles (a : Word) (f : FaultCause) (s : State) :
    (raise a f s).cycles = s.cycles := rfl
@[simp] theorem raise_fault (a : Word) (f : FaultCause) (s : State) :
    (raise a f s).fault = some (s.fault.getD (f.record a)) := rfl
@[simp] theorem raise_rom (a : Word) (f : FaultCause) (s : State) : (raise a f s).rom = s.rom := rfl
@[simp] theorem raise_ram (a : Word) (f : FaultCause) (s : State) : (raise a f s).ram = s.ram := rfl
@[simp] theorem raise_romErr (a : Word) (f : FaultCause) (s : State) :
    (raise a f s).romErr = (s.romErr || (s.cfg.testMode && f.kind == .regionOverrunROM)) := rfl
@[simp] theorem raise_ramErr (a : Word) (f : FaultCause) (s : State) :
    (raise a f s).ramErr = (s.ramErr || (s.cfg.testMode && f.kind == .regionOverrunRAM)) := rfl
@[simp] theorem raise_draws (a : Word) (f : FaultCause) (s : State) :
    (raise a f s).draws = s.draws + 1 := rfl

/-! ### `wake` and `sleepTick` -/

theorem wake_eq (s : State) : wake s = { s with flags := (wake s).flags } := by
  unfold wake; split <;> rfl

theorem wake_of_clear (s : State) (h : s.flag .sleep = false) : wake s = s := by
  simp [wake, h]

@[simp] theorem wake_cfg (s : State) : (wake s).cfg = s.cfg := by
  unfold wake; split <;> rfl
@[simp] theorem wake_regs (s : State) : (wake s).regs = s.regs := by
  unfold wake; split <;> rfl
@[simp] theorem wake_ip (s : State) : (wake s).ip = s.ip := by
  unfold wake; split <;> rfl
@[simp] theorem wake_sp (s : State) : (wake s).sp = s.sp := by
  unfold wake; split <;> rfl
@[simp] theorem wake_curOp (s : State) : (wake s).curOp = s.curOp := by
  unfold wake; split <;> rfl
@[simp] theorem wake_opnd1 (s : State) : (wake s).opnd1 = s.opnd1 := by
  unfold wake; split <;> rfl
@[simp] theorem wake_opnd2 (s : State) : (wake s).opnd2 = s.opnd2 := by
  unfold wake; split <;> rfl
@[simp] theorem wake_running (s : State) : (wake s).running = s.running := by
  unfold wake; split <;> rfl
@[simp] theorem wake_countdown (s : State) : (wake s).countdown = s.countdown := by
  unfold wake; split <;> rfl
@[simp] theorem wake_cycles (s : State) : (wake s).cycles = s.cycles := by
  unfold wake; split <;> rfl
@[simp] theorem wake_fault (s : State) : (wake s).fault = s.fault := by
  unfold wake; split <;> rfl
@[simp] theorem wake_rom (s : State) : (wake s).rom = s.rom := by
  unfold wake; split <;> rfl
@[simp] theorem wake_ram (s : State) : (wake s).ram = s.ram := by
  unfold wake; split <;> rfl
@[simp] theorem wake_romErr (s : State) : (wake s).romErr = s.romErr := by
  unfold wake; split <;> rfl
@[simp] theorem wake_ramErr (s : State) : (wake s).ramErr = s.ramErr := by
  unfold wake; split <;> rfl
@[simp] theorem wake_draws (s : State) : (wake s).draws = s.draws := by
  unfold wake; split <;> rfl

theorem flags_of_clear_sleep (f : BitVec 8) (h : f.getLsbD 5 = false) :
    f = f &&& ~~~Flag.sleep.mask := by
  revert f; decide

@[simp] theorem wake_flags (s : State) : (wake s).flags = s.flags &&& ~~~Flag.sleep.mask := by
  unfold wake
  split
  · rfl
  · rename_i h
    exact flags_of_clear_sleep s.flags (by simpa [State.flag, Flag.bit] using h)

theorem sleepTick_eq (s : State) :
    sleepTick s = { s with
      countdown := s.countdown - 1, cycles := s.cycles + 1, flags := (sleepTick s).flags } := by
  unfold sleepTick; split <;> rfl

@[simp] theorem sleepTick_cfg (s : State) : (sleepTick s).cfg = s.cfg := by
  unfold sleepTick; split <;> rfl
@[simp] theorem sleepTick_regs (s : State) : (sleepTick s).regs = s.regs := by
  unfold sleepTick; split <;> rfl
@[simp] theorem sleepTick_ip (s : State) : (sleepTick s).ip = s.ip := by
  unfold sleepTick; split <;> rfl
@[simp] theorem sleepTick_sp (s : State) : (sleepTick s).sp = s.sp := by
  unfold sleepTick; split <;> rfl
@[simp] theorem sleepTick_curOp (s : State) : (sleepTick s).curOp = s.curOp := by
  unfold sleepTick; split <;> rfl
@[simp] theorem sleepTick_opnd1 (s : State) : (sleepTick s).opnd1 = s.opnd1 := by
  unfold sleepTick; split <;> rfl
@[simp] theorem sleepTick_opnd2 (s : State) : (sleepTick s).opnd2 = s.opnd2 := by
  unfold sleepTick; split <;> rfl
@[simp] theorem sleepTick_running (s : State) : (sleepTick s).running = s.running := by
  unfold sleepTick; split <;> rfl
@[simp] theorem sleepTick_countdown (s : State) : (sleepTick s).countdown = s.countdown - 1 := by
  unfold sleepTick; split <;> rfl
@[simp] theorem sleepTick_cycles (s : State) : (sleepTick s).cycles = s.cycles + 1 := by
  unfold sleepTick; split <;> rfl
@[simp] theorem sleepTick_fault (s : State) : (sleepTick s).fault = s.fault := by
  unfold sleepTick; split <;> rfl
@[simp] theorem sleepTick_rom (s : State) : (sleepTick s).rom = s.rom := by
  unfold sleepTick; split <;> rfl
@[simp] theorem sleepTick_ram (s : State) : (sleepTick s).ram = s.ram := by
  unfold sleepTick; split <;> rfl
@[simp] theorem sleepTick_romErr (s : State) : (sleepTick s).romErr = s.romErr := by
  unfold sleepTick; split <;> rfl
@[simp] theorem sleepTick_ramErr (s : State) : (sleepTick s).ramErr = s.ramErr := by
  unfold sleepTick; split <;> rfl
@[simp] theorem sleepTick_draws (s : State) : (sleepTick s).draws = s.draws := by
  unfold sleepTick; split <;> rfl

theorem sleepTick_flags_last (s : State) (h : s.countdown = 1) :
    (sleepTick s).flags = s.flags &&& ~~~Flag.sleep.mask := by
  simp [sleepTick, h]

theorem sleepTick_flags_more (s : State) (h : 1 < s.countdown) : (sleepTick s).flags = s.flags := by
  have : ¬ s.countdown - 1 = 0 := by omega
  simp [sleepTick, this]

/-! ### `State.keepFlags` -/

@[simp] theorem State.keepFlags_cfg (g : BitVec 8) (t : State) : (t.keepFlags g).cfg = t.cfg := by
  unfold State.keepFlags; split <;> rfl
@[simp] theorem State.keepFlags_regs (g : BitVec 8) (t : State) : (t.keepFlags g).regs = t.regs := by
  unfold State.keepFlags; split <;> rfl
@[simp] theorem State.keepFlags_ip (g : BitVec 8) (t : State) : (t.keepFlags g).ip = t.ip := by
  unfold State.keepFlags; split <;> rfl
@[simp] theorem State.keepFlags_sp (g : BitVec 8) (t : State) : (t.keepFlags g).sp = t.sp := by
  unfold State.keepFlags; split <;> rfl
@[simp] theorem State.keepFlags_curOp (g : BitVec 8) (t : State) : (t.keepFlags g).curOp = t.curOp := by
  unfold State.keepFlags; split <;> rfl
@[simp] theorem State.keepFlags_opnd1 (g : BitVec 8) (t : State) : (t.keepFlags g).opnd1 = t.opnd1 := by
  unfold State.keepFlags; split <;> rfl
@[simp] theorem State.keepFlags_opnd2 (g : BitVec 8) (t : State) : (t.keepFlags g).opnd2 = t.opnd2 := by
  unfold State.keepFlags; split <;> rfl
@[simp] theorem State.keepFlags_running (g : BitVec 8) (t : State) : (t.keepFlags g).running = t.running := by
  unfold State.keepFlags; split <;> rfl
@[simp] theorem State.keepFlags_countdown (g : BitVec 8) (t : State) : (t.keepFlags g).countdown = t.countdown := by
  unfold State.keepFlags; split <;> rfl
@[simp] theorem State.keepFlags_cycles (g : BitVec 8) (t : State) : (t.keepFlags g).cycles = t.cycles := by
  unfold State.keepFlags; split <;> rfl
@[simp] theorem State.keepFlags_fault (g : BitVec 8) (t : State) : (t.keepFlags g).fault = t.fault := by
  unfold State.keepFlags; split <;> rfl
@[simp] theorem State.keepFlags_rom (g : BitVec 8) (t : State) : (t.keepFlags g).rom = t.rom := by
  unfold State.keepFlags; split <;> rfl
@[simp] theorem State.keepFlags_ram (g : BitVec 8) (t : State) : (t.keepFlags g).ram = t.ram := by
  unfold State.keepFlags; split <;> rfl
@[simp] theorem State.keepFlags_romErr (g : BitVec 8) (t : State) : (t.keepFlags g).romErr = t.romErr := by
  unfold State.keepFlags; split <;> rfl
@[simp] theorem State.keepFlags_ramErr (g : BitVec 8) (t : State) : (t.keepFlags g).ramErr = t.ramErr := by
  unfold State.keepFlags; split <;> rfl
@[simp] theorem State.keepFlags_draws (g : BitVec 8) (t : State) : (t.keepFlags g).draws = t.draws := by
  unfold State.keepFlags; split <;> rfl

theorem State.keepFlags_of_none {t : State} (g : BitVec 8) (h : t.fault = none) : t.keepFlags g = t :=
  if_pos h

theorem State.keepFlags_of_fault {t : State} (g : BitVec 8) (h : t.fault ≠ none) :
    t.keepFlags g = { t with flags := g } := if_neg h

@[simp] theorem keepFlags_next (g : BitVec 8) (t : State) : keepFlags g (.next t) = .next (t.keepFlags g) :=
  rfl

/-- A fault taken after the waking, the flags kept, is the fault taken from the start of the cycle. -/
theorem raise_decoded_wake (a : Word) (f : FaultCause) (i : Instr) (s : State) :
    (raise a f ((wake s).decoded i)).keepFlags s.flags = raise a f s := by
  rw [State.keepFlags_of_fault _ (by simp), wake_eq s]
  rfl

/-! ### Registers -/

@[simp] theorem setReg_reg (s : State) (k j : Fin 64) (v : Word) :
    (s.setReg k v).reg j = if k = j then v else s.reg j := by
  simp only [State.reg, State.setReg, Fin.getElem_fin, Vector.getElem_set, Fin.ext_iff]

@[simp] theorem setRegLow_reg (s : State) (k j : Fin 64) (w : Nat) (v : Word) :
    (s.setRegLow k w v).reg j = if k = j then mergeLow w (s.reg k) v else s.reg j := by
  simp [State.setRegLow]

@[simp] theorem decoded_reg (s : State) (i : Instr) (k : Fin 64) : (s.decoded i).reg k = s.reg k := rfl

@[simp] theorem wake_reg (s : State) (k : Fin 64) : (wake s).reg k = s.reg k := by
  simp [State.reg]

theorem lowBytes_toNat (w : Nat) (v : Word) (h : w ≤ 8) :
    (lowBytes w v).toNat = v.toNat % 2 ^ (8 * w) := by
  simp only [lowBytes, BitVec.toNat_setWidth]
  refine Nat.mod_eq_of_lt (lt_of_lt_of_le (Nat.mod_lt _ (by positivity)) ?_)
  exact Nat.pow_le_pow_right (by norm_num) (by omega)

theorem lowBytes_getLsbD (w : Nat) (v : Word) (j : Nat) :
    (lowBytes w v).getLsbD j = (decide (j < 8 * w) && v.getLsbD j) := by
  simp only [lowBytes, BitVec.getLsbD_setWidth]
  by_cases h : j < 64
  · simp [h]
  · simp [h, BitVec.getLsbD_of_ge v j (by omega)]

theorem mergeLow_getLsbD (w : Nat) (x v : Word) (j : Nat) :
    (mergeLow w x v).getLsbD j = if j < 8 * w then v.getLsbD j else x.getLsbD j := by
  unfold mergeLow
  rw [BitVec.getLsbD_or, lowBytes_getLsbD, BitVec.getLsbD_shiftLeft, BitVec.getLsbD_ushiftRight]
  by_cases h : j < 8 * w
  · simp [h]
  · by_cases h2 : j < 64
    · simp [h, h2, show 8 * w + (j - 8 * w) = j by omega]
    · simp [h, h2, BitVec.getLsbD_of_ge x j (by omega)]

end Sys2Proof.Machine
end

