-- ==== Sys2Proof/Laws/Bytes.lean ====
section
/-! SUPPORT. Little-endian values and bytes: each bit of `leValue`, each byte of `leBytes`, and that they
undo each other. -/

namespace Sys2Proof.Machine

/-- Byte `k` of a word (00_scope.md R10). -/
theorem extract_getLsbD (v : Word) (k j : Nat) (hj : j < 8) :
    (v.extractLsb' (8 * k) 8).getLsbD j = v.getLsbD (8 * k + j) := by
  simp [hj]

theorem leValue_getLsbD (bs : List Byte) (j : Nat) (hj : j < 64) :
    (leValue bs).getLsbD j = (bs.getD (j / 8) 0).getLsbD (j % 8) := by
  induction bs generalizing j with
  | nil => simp [leValue]
  | cons b bs ih =>
    rw [leValue, BitVec.getLsbD_or, BitVec.getLsbD_setWidth, BitVec.getLsbD_shiftLeft]
    by_cases h : j < 8
    · simp [h, hj, show j / 8 = 0 by omega, show j % 8 = j by omega]
    · obtain ⟨i, rfl⟩ : ∃ i, j = 8 + i := ⟨j - 8, by omega⟩
      have hb : b.getLsbD (8 + i) = false := BitVec.getLsbD_of_ge _ _ (by omega)
      simp only [hj, hb, decide_true, Bool.and_false, Bool.false_or, Bool.true_and,
        show ¬ 8 + i < 8 by omega, decide_false, Bool.not_false, Nat.add_sub_cancel_left]
      rw [ih i (by omega), show (8 + i) / 8 = i / 8 + 1 by omega, show (8 + i) % 8 = i % 8 by omega,
        List.getD_cons_succ]

theorem leValue_byte (bs : List Byte) (k : Nat) (hk : k < 8) :
    (leValue bs).extractLsb' (8 * k) 8 = bs.getD k 0 := by
  apply BitVec.eq_of_getLsbD_eq
  intro j hj
  rw [extract_getLsbD _ _ _ hj, leValue_getLsbD _ _ (by omega)]
  rw [show (8 * k + j) / 8 = k by omega, show (8 * k + j) % 8 = j by omega]

theorem leValue_toNat_lt (bs : List Byte) : (leValue bs).toNat < 2 ^ (8 * bs.length) := by
  apply Nat.lt_pow_two_of_testBit
  intro j hj
  rw [BitVec.testBit_toNat]
  by_cases h : j < 64
  · rw [leValue_getLsbD _ _ h, List.getD_eq_default _ _ (by omega)]
    simp
  · exact BitVec.getLsbD_of_ge _ _ (by omega)

@[simp] theorem leBytes_length (n : Nat) (v : Word) : (leBytes n v).length = n := by
  induction n generalizing v with
  | zero => rfl
  | succ n ih => simp [leBytes, ih]

theorem leBytes_getElem (n : Nat) (v : Word) (k : Nat) (h : k < (leBytes n v).length) :
    (leBytes n v)[k] = v.extractLsb' (8 * k) 8 := by
  induction n generalizing v k with
  | zero => simp at h
  | succ n ih =>
    cases k with
    | zero =>
      apply BitVec.eq_of_getLsbD_eq
      intro j hj
      simp [leBytes, hj]
    | succ k =>
      simp only [leBytes, List.getElem_cons_succ]
      rw [ih]
      apply BitVec.eq_of_getLsbD_eq
      intro j hj
      simp only [BitVec.getLsbD_extractLsb', hj, decide_true, Bool.true_and,
        BitVec.getLsbD_ushiftRight]
      congr 1
      omega

theorem leBytes_getD (n : Nat) (v : Word) (k : Nat) (h : k < n) :
    (leBytes n v).getD k 0 = v.extractLsb' (8 * k) 8 := by
  rw [List.getD_eq_getElem _ _ (by simpa using h), leBytes_getElem]

/-- Storing little-endian and reading back gives the low bytes (20_memory.md R70). -/
theorem leValue_leBytes (n : Nat) (v : Word) : leValue (leBytes n v) = lowBytes n v := by
  apply BitVec.eq_of_getLsbD_eq
  intro j hj
  rw [leValue_getLsbD _ _ hj, lowBytes_getLsbD]
  by_cases h : j < 8 * n
  · rw [leBytes_getD _ _ _ (by omega), extract_getLsbD _ _ _ (by omega)]
    simp [h, show 8 * (j / 8) + j % 8 = j by omega]
  · rw [List.getD_eq_default _ _ (by simp; omega)]
    simp [h]

theorem leBytes_leValue (bs : List Byte) (h : bs.length ≤ 8) : leBytes bs.length (leValue bs) = bs := by
  apply List.ext_getElem (by simp)
  intro k h1 h2
  rw [leBytes_getElem, leValue_byte _ _ (by omega), List.getD_eq_getElem]

/-- A value that fits in `w` bytes is its own low bytes. -/
theorem lowBytes_of_fits (w : Nat) (v : Word) (h : v.toNat < 2 ^ (8 * w)) : lowBytes w v = v := by
  apply BitVec.eq_of_getLsbD_eq
  intro j hj
  rw [lowBytes_getLsbD]
  by_cases hw : j < 8 * w
  · simp [hw]
  · have : v.getLsbD j = false := by
      rw [← BitVec.testBit_toNat]
      exact Nat.testBit_lt_two_pow (lt_of_lt_of_le h (Nat.pow_le_pow_right (by norm_num) (by omega)))
    simp [this]

@[simp] theorem lowBytes_lowBytes (w : Nat) (v : Word) : lowBytes w (lowBytes w v) = lowBytes w v := by
  apply BitVec.eq_of_getLsbD_eq
  intro j _
  simp only [lowBytes_getLsbD]
  cases decide (j < 8 * w) <;> rfl

/-- A register write keeps its upper part and takes the low bytes of the value (10_state.md R23). -/
theorem mergeLow_toNat (w : Nat) (x v : Word) :
    (mergeLow w x v).toNat = x.toNat / 2 ^ (8 * w) * 2 ^ (8 * w) + v.toNat % 2 ^ (8 * w) := by
  apply Nat.eq_of_testBit_eq
  intro j
  rw [BitVec.testBit_toNat, mergeLow_getLsbD, Nat.mul_comm (x.toNat / 2 ^ (8 * w)),
    Nat.testBit_two_pow_mul_add _ (Nat.mod_lt _ (by positivity)), Nat.testBit_mod_two_pow]
  by_cases hj : j < 8 * w
  · simp [hj, BitVec.testBit_toNat]
  · simp only [hj, if_false]
    rw [← Nat.shiftRight_eq_div_pow, Nat.testBit_shiftRight, BitVec.testBit_toNat]
    congr 1
    omega

theorem mergeLow_lowBytes (w : Nat) (x v : Word) : mergeLow w x (lowBytes w v) = mergeLow w x v := by
  simp [mergeLow]

end Sys2Proof.Machine
end

