-- ==== Sys2Proof/Laws/Memory.lean ====
section
/-! SUPPORT. The byte stores: read after write, writes elsewhere, the canonical form is kept by every
operation, and equal contents are equal data. -/

namespace Sys2Proof.Machine

/-! ### The canonical form -/

theorem wfFrom_cons (size lo k : Nat) (b : Byte) (m : Memory) :
    Memory.wfFrom size lo ((k, b) :: m) = true ↔
      lo ≤ k ∧ k < size ∧ b ≠ Memory.unlisted ∧ Memory.wfFrom size (k + 1) m = true := by
  simp [Memory.wfFrom, and_assoc]

theorem wfFrom_weaken {size lo lo' : Nat} {m : Memory} (h : Memory.wfFrom size lo m = true)
    (hl : lo' ≤ lo) : Memory.wfFrom size lo' m = true := by
  cases m with
  | nil => rfl
  | cons c m =>
    obtain ⟨k, b⟩ := c
    rw [wfFrom_cons] at h ⊢
    exact ⟨hl.trans h.1, h.2⟩

theorem get_below {size lo : Nat} {m : Memory} (h : Memory.wfFrom size lo m = true) {a : Nat}
    (ha : a < lo) : m.get a = Memory.unlisted := by
  induction m generalizing lo with
  | nil => rfl
  | cons c m ih =>
    obtain ⟨k, b⟩ := c
    rw [wfFrom_cons] at h
    rw [Memory.get, if_neg (by omega)]
    exact ih h.2.2.2 (by omega)

theorem get_cons {size lo : Nat} {m : Memory} (h : Memory.wfFrom size lo m = true) {a : Nat}
    (ha : a < lo) (b : Byte) (x : Nat) :
    (Memory.cons a b m).get x = if x = a then b else m.get x := by
  unfold Memory.cons
  by_cases hb : b = Memory.unlisted
  · rw [if_pos hb]
    by_cases hx : x = a
    · rw [if_pos hx, hx, get_below h ha, hb]
    · rw [if_neg hx]
  · rw [if_neg hb, Memory.get]
    by_cases hx : x = a
    · rw [if_pos hx.symm, if_pos hx]
    · rw [if_neg (Ne.symm hx), if_neg hx]

theorem wfFrom_cons_op {size lo a : Nat} {m : Memory} (h : Memory.wfFrom size (a + 1) m = true)
    (hl : lo ≤ a) (hs : a < size) (b : Byte) :
    Memory.wfFrom size lo (Memory.cons a b m) = true := by
  unfold Memory.cons
  split
  · exact wfFrom_weaken h (by omega)
  · rename_i hb
    rw [wfFrom_cons]
    exact ⟨hl, hs, hb, h⟩

/-- Read after write (20_memory.md R77 c), in a store in canonical form. -/
theorem get_set {size lo : Nat} {m : Memory} (h : Memory.wfFrom size lo m = true) (a : Nat) (b : Byte)
    (x : Nat) : (m.set a b).get x = if x = a then b else m.get x := by
  induction m generalizing lo with
  | nil => exact get_cons (size := 0) (lo := a + 1) rfl (by omega) b x
  | cons c m ih =>
    obtain ⟨k, y⟩ := c
    have h' := h
    rw [wfFrom_cons] at h
    unfold Memory.set
    by_cases h1 : a < k
    · rw [if_pos h1]
      exact get_cons (size := size) (lo := k) ((wfFrom_cons ..).2 ⟨le_rfl, h.2⟩) h1 b x
    · rw [if_neg h1]
      by_cases h2 : a = k
      · subst h2
        rw [if_pos rfl, get_cons h.2.2.2 (by omega)]
        by_cases hx : x = a
        · simp [hx]
        · simp [hx, Memory.get, Ne.symm hx]
      · rw [if_neg h2, Memory.get, Memory.get, ih h.2.2.2]
        by_cases hk : k = x
        · rw [if_pos hk, if_pos hk, if_neg (by omega)]
        · rw [if_neg hk, if_neg hk]

/-- A write inside the store keeps the canonical form. -/
theorem wfFrom_set {size lo : Nat} {m : Memory} (h : Memory.wfFrom size lo m = true) {a : Nat}
    (hl : lo ≤ a) (hs : a < size) (b : Byte) : Memory.wfFrom size lo (m.set a b) = true := by
  induction m generalizing lo with
  | nil => exact wfFrom_cons_op rfl hl hs b
  | cons c m ih =>
    obtain ⟨k, y⟩ := c
    rw [wfFrom_cons] at h
    unfold Memory.set
    by_cases h1 : a < k
    · rw [if_pos h1]
      exact wfFrom_cons_op ((wfFrom_cons ..).2 ⟨by omega, h.2⟩) hl hs b
    · rw [if_neg h1]
      by_cases h2 : a = k
      · subst h2
        rw [if_pos rfl]
        exact wfFrom_cons_op h.2.2.2 hl hs b
      · rw [if_neg h2, wfFrom_cons]
        exact ⟨h.1, h.2.1, h.2.2.1, ih h.2.2.2 (by omega)⟩

theorem wf_set {size : Nat} {m : Memory} (h : m.wf size = true) {a : Nat} (hs : a < size) (b : Byte) :
    (m.set a b).wf size = true := wfFrom_set h (Nat.zero_le _) hs b

/-! ### Several bytes -/

theorem wf_setBytes {size : Nat} {m : Memory} (h : m.wf size = true) (a : Nat) (bs : List Byte)
    (hs : a + bs.length ≤ size) : (m.setBytes a bs).wf size = true := by
  induction bs generalizing m a with
  | nil => exact h
  | cons b bs ih =>
    simp only [List.length_cons] at hs
    exact ih (wf_set h (by omega) b) (a + 1) (by omega)

theorem get_setBytes {size : Nat} {m : Memory} (h : m.wf size = true) (a : Nat) (bs : List Byte)
    (hs : a + bs.length ≤ size) (x : Nat) :
    (m.setBytes a bs).get x = if a ≤ x ∧ x < a + bs.length then bs.getD (x - a) 0 else m.get x := by
  induction bs generalizing m a with
  | nil => simp [Memory.setBytes, show ¬ (a ≤ x ∧ x < a) by omega]
  | cons b bs ih =>
    simp only [List.length_cons] at hs ⊢
    rw [Memory.setBytes, ih (wf_set h (by omega) b) (a + 1) (by omega), get_set h]
    by_cases h1 : a + 1 ≤ x ∧ x < a + 1 + bs.length
    · rw [if_pos h1, if_pos (by omega), show x - a = (x - (a + 1)) + 1 by omega, List.getD_cons_succ]
    · rw [if_neg h1]
      by_cases h2 : x = a
      · subst h2
        rw [if_pos rfl, if_pos (by omega)]
        simp
      · rw [if_neg h2, if_neg (by omega)]

theorem wf_writeLE {size : Nat} {m : Memory} (h : m.wf size = true) (a n : Nat) (v : Word)
    (hs : a + n ≤ size) : (m.writeLE a n v).wf size = true :=
  wf_setBytes h a _ (by simpa using hs)

/-- A little-endian store (20_memory.md R70): byte `x - a` of the value inside, nothing outside. -/
theorem get_writeLE {size : Nat} {m : Memory} (h : m.wf size = true) (a n : Nat) (v : Word)
    (hs : a + n ≤ size) (x : Nat) :
    (m.writeLE a n v).get x =
      if a ≤ x ∧ x < a + n then v.extractLsb' (8 * (x - a)) 8 else m.get x := by
  rw [Memory.writeLE, get_setBytes h a _ (by simpa using hs), leBytes_length]
  split
  · rw [leBytes_getD _ _ _ (by omega)]
  · rfl

theorem readBytes_length (m : Memory) (a n : Nat) : (m.readBytes a n).length = n := by
  induction n generalizing a with
  | zero => rfl
  | succ n ih => simp [Memory.readBytes, ih]

theorem readBytes_getD (m : Memory) (a n k : Nat) (h : k < n) :
    (m.readBytes a n).getD k 0 = m.get (a + k) := by
  induction n generalizing a k with
  | zero => omega
  | succ n ih =>
    cases k with
    | zero => simp [Memory.readBytes]
    | succ k =>
      rw [Memory.readBytes, List.getD_cons_succ, ih _ _ (by omega)]
      congr 1
      omega

theorem readLE_eq (m : Memory) (a n : Nat) : m.readLE a n = leValue (m.readBytes a n) := by
  induction n generalizing a with
  | zero => rfl
  | succ n ih => simp [Memory.readLE, Memory.readBytes, leValue, ih]

/-- Byte `k` of a little-endian read (20_memory.md R66, R70). -/
theorem readLE_byte (m : Memory) (a n k : Nat) (hk : k < n) (h8 : n ≤ 8) :
    (m.readLE a n).extractLsb' (8 * k) 8 = m.get (a + k) := by
  rw [readLE_eq, leValue_byte _ _ (by omega), readBytes_getD _ _ _ _ hk]

theorem readLE_lt (m : Memory) (a n : Nat) : (m.readLE a n).toNat < 2 ^ (8 * n) := by
  have := leValue_toNat_lt (m.readBytes a n)
  rwa [readBytes_length, ← readLE_eq] at this

/-- A value that fits in `n` bytes is known from its `n` bytes. -/
theorem eq_of_bytes (n : Nat) (u v : Word) (hu : u.toNat < 2 ^ (8 * n)) (hv : v.toNat < 2 ^ (8 * n))
    (h : ∀ k < n, u.extractLsb' (8 * k) 8 = v.extractLsb' (8 * k) 8) : u = v := by
  rw [← lowBytes_of_fits n u hu, ← lowBytes_of_fits n v hv]
  apply BitVec.eq_of_getLsbD_eq
  intro j _
  rw [lowBytes_getLsbD, lowBytes_getLsbD]
  by_cases hj : j < 8 * n
  · have := congrArg (fun b => b.getLsbD (j % 8)) (h (j / 8) (by omega))
    simp only [extract_getLsbD _ _ _ (Nat.mod_lt j (by omega : 0 < 8))] at this
    rw [show 8 * (j / 8) + j % 8 = j by omega] at this
    simp [this]
  · simp [hj]

/-! ### Images and equality -/

theorem wf_ofBytes (size a : Nat) (bs : List Byte) (h : a + bs.length ≤ size) :
    Memory.wfFrom size a (Memory.ofBytes a bs) = true := by
  induction bs generalizing a with
  | nil => rfl
  | cons b bs ih =>
    simp only [List.length_cons] at h
    exact wfFrom_cons_op (ih (a + 1) (by omega)) le_rfl (by omega) b

theorem get_ofBytes (a : Nat) (bs : List Byte) (x : Nat) :
    (Memory.ofBytes a bs).get x =
      if a ≤ x ∧ x < a + bs.length then bs.getD (x - a) 0 else Memory.unlisted := by
  induction bs generalizing a with
  | nil => simp [Memory.ofBytes, Memory.get, show ¬ (a ≤ x ∧ x < a) by omega]
  | cons b bs ih =>
    rw [Memory.ofBytes, get_cons (wf_ofBytes (a + 1 + bs.length) (a + 1) bs le_rfl) (by omega), ih]
    simp only [List.length_cons]
    by_cases h2 : x = a
    · subst h2
      rw [if_pos rfl, if_pos (by omega)]
      simp
    · rw [if_neg h2]
      by_cases h1 : a + 1 ≤ x ∧ x < a + 1 + bs.length
      · rw [if_pos h1, if_pos (by omega), show x - a = (x - (a + 1)) + 1 by omega,
          List.getD_cons_succ]
      · rw [if_neg h1, if_neg (by omega)]

/-- Stores in canonical form that hold the same bytes are the same data. -/
theorem eq_of_get {size lo : Nat} {m m' : Memory} (h : Memory.wfFrom size lo m = true)
    (h' : Memory.wfFrom size lo m' = true) (heq : ∀ a, m.get a = m'.get a) : m = m' := by
  induction m generalizing lo m' with
  | nil =>
    cases m' with
    | nil => rfl
    | cons c m' =>
      obtain ⟨k, b⟩ := c
      rw [wfFrom_cons] at h'
      have := heq k
      simp only [Memory.get, if_true] at this
      exact absurd this.symm h'.2.2.1
  | cons c m ih =>
    obtain ⟨k, b⟩ := c
    rw [wfFrom_cons] at h
    cases m' with
    | nil =>
      have := heq k
      simp only [Memory.get, if_true] at this
      exact absurd this h.2.2.1
    | cons c' m' =>
      obtain ⟨k', b'⟩ := c'
      rw [wfFrom_cons] at h'
      have hk : k = k' := by
        rcases Nat.lt_trichotomy k k' with hlt | he | hgt
        · have := heq k
          rw [Memory.get, if_pos rfl, Memory.get, if_neg (by omega),
            get_below h'.2.2.2 (by omega)] at this
          exact absurd this h.2.2.1
        · exact he
        · have := heq k'
          rw [Memory.get, if_neg (by omega), get_below h.2.2.2 (by omega), Memory.get,
            if_pos rfl] at this
          exact absurd this.symm h'.2.2.1
      subst hk
      have hb : b = b' := by simpa [Memory.get] using heq k
      subst hb
      have : m = m' := ih h.2.2.2 h'.2.2.2 (fun a => by
        by_cases ha : k = a
        · subst ha
          rw [get_below h.2.2.2 (by omega), get_below h'.2.2.2 (by omega)]
        · simpa [Memory.get, ha] using heq a)
      rw [this]

/-- `State.reset`'s stores are in canonical form. -/
theorem reset_stores_wf : State.reset.rom.wf Config.ref.romSize = true ∧
    State.reset.ram.wf Config.ref.ramSize = true := ⟨rfl, rfl⟩

end Sys2Proof.Machine
end

