-- ==== Sys2Proof/Laws/Decode.lean ====
section
/-! SUPPORT. What a successful decode has read, once for every reader; then the tables, the number of
bytes taken, the well-formedness of what is decoded, and the decoder on the encoder's bytes. -/

namespace Sys2Proof.Machine

/-! ### Widths and lengths, form by form -/

theorem effWidth_zero (n : Option Nat) : effWidth n 0 = n.getD 0 := rfl
theorem effWidth_pos (n : Option Nat) {w : Nat} (h : w ≠ 0) : effWidth n w = w := if_neg h

@[simp] theorem desc_r (w : Nat) (k : Fin 64) : (Operand.r w k).desc = ⟨.r, w⟩ := rfl
@[simp] theorem desc_i (w : Nat) (v : Word) : (Operand.i w v).desc = ⟨.i, w⟩ := rfl
@[simp] theorem desc_mi (w : Nat) (a : Word) : (Operand.mi w a).desc = ⟨.mi, w⟩ := rfl
@[simp] theorem desc_mr (w : Nat) (k : Fin 64) : (Operand.mr w k).desc = ⟨.mr, w⟩ := rfl

@[simp] theorem width_r (n : Option Nat) (w : Nat) (k : Fin 64) :
    (Operand.r w k).width n = effWidth n w := rfl
@[simp] theorem width_i (n : Option Nat) (w : Nat) (v : Word) :
    (Operand.i w v).width n = effWidth n w := rfl
@[simp] theorem width_mi (n : Option Nat) (w : Nat) (a : Word) :
    (Operand.mi w a).width n = effWidth n w := rfl
@[simp] theorem width_mr (n : Option Nat) (w : Nat) (k : Fin 64) :
    (Operand.mr w k).width n = effWidth n w := rfl

@[simp] theorem dataBytes_r (n : Option Nat) (w : Nat) (k : Fin 64) :
    (Operand.r w k).dataBytes n = 1 := rfl
@[simp] theorem dataBytes_i (n : Option Nat) (w : Nat) (v : Word) :
    (Operand.i w v).dataBytes n = effWidth n w := rfl
@[simp] theorem dataBytes_mi (n : Option Nat) (w : Nat) (a : Word) :
    (Operand.mi w a).dataBytes n = effWidth n w := rfl
@[simp] theorem dataBytes_mr (n : Option Nat) (w : Nat) (k : Fin 64) :
    (Operand.mr w k).dataBytes n = 1 := rfl

@[simp] theorem raw_i (w : Nat) (v : Word) : (Operand.i w v).raw = v := rfl
@[simp] theorem raw_mi (w : Nat) (a : Word) : (Operand.mi w a).raw = a := rfl
theorem raw_r_toNat (w : Nat) (k : Fin 64) : (Operand.r w k).raw.toNat = k.val := by
  have := k.isLt
  simp only [Operand.raw, BitVec.toNat_ofNat]
  omega
theorem raw_mr_toNat (w : Nat) (k : Fin 64) : (Operand.mr w k).raw.toNat = k.val := by
  have := k.isLt
  simp only [Operand.raw, BitVec.toNat_ofNat]
  omega

theorem widthOk_iff (w : Nat) : widthOk w = true ↔ 1 ≤ w ∧ w ≤ 8 := by
  simp [widthOk]

theorem fits_iff (w : Nat) (v : Word) : fits w v = true ↔ v.toNat < 2 ^ (8 * w) := by
  simp [fits]

theorem wf_i_zero_some (k : Nat) (v : Word) : (Operand.i 0 v).wf (some k) = fits k v := rfl
theorem wf_i_zero_none (v : Word) : (Operand.i 0 v).wf none = false := rfl
theorem wf_i_pos (n : Option Nat) {w : Nat} (v : Word) (h : w ≠ 0) :
    (Operand.i w v).wf n = (widthOk w && fits w v) := by
  simp [Operand.wf, h]

section Inversion
variable {ε : Type} {c : Config} {bad : DecodeError → ε} {read : Nat → Nat → Except ε Word}

theorem bind_ok {α β : Type} {x : Except ε α} {f : α → Except ε β} {b : β}
    (h : (x >>= f) = .ok b) : ∃ a, x = .ok a ∧ f a = .ok b := by
  cases x with
  | error e => cases h
  | ok a => exact ⟨a, rfl, h⟩

theorem bind_of_ok {α β : Type} {x : Except ε α} {a : α} (h : x = .ok a) (f : α → Except ε β) :
    (x >>= f) = f a := by
  rw [h]; rfl

theorem bind_of_error {α β : Type} {x : Except ε α} {e : ε} (h : x = .error e)
    (f : α → Except ε β) : (x >>= f) = .error e := by
  rw [h]; rfl

/-- The opcode fetch reads one byte, or a prefix byte and one more (40_cycle_fetch_decode.md R143). -/
theorem fetchOpcode_ok {v : BitVec 16} {p : Nat} (h : fetchOpcode read = .ok (v, p)) :
    (∃ b0, read 0 1 = .ok b0 ∧ isPrefixByte (b0.setWidth 8) = false ∧ v = b0.setWidth 16 ∧ p = 1) ∨
    (∃ b0 b1, read 0 1 = .ok b0 ∧ isPrefixByte (b0.setWidth 8) = true ∧ read 1 1 = .ok b1 ∧
      v = (b0.setWidth 16 <<< 8) ||| b1.setWidth 16 ∧ p = 2) := by
  obtain ⟨b0, h0, h⟩ := bind_ok h
  by_cases hp : isPrefixByte (b0.setWidth 8) = true
  · rw [if_pos hp] at h
    obtain ⟨b1, h1, h⟩ := bind_ok h
    obtain ⟨rfl, rfl⟩ := Prod.mk.inj (Except.ok.inj h)
    exact .inr ⟨b0, b1, h0, hp, h1, rfl, rfl⟩
  · rw [if_neg hp] at h
    obtain ⟨rfl, rfl⟩ := Prod.mk.inj (Except.ok.inj h)
    exact .inl ⟨b0, h0, by simpa using hp, rfl, rfl⟩

theorem resolveDesc_ok {nominal : Option Nat} {b : Byte} {d : Desc}
    (h : resolveDesc c bad nominal b = .ok d) :
    c.descOf b = some d ∧ ¬ (d.width = 0 ∧ nominal = none) := by
  unfold resolveDesc at h
  split at h
  · cases h
  · split at h
    · cases h
    · rename_i hd hw
      cases h
      exact ⟨hd, hw⟩

theorem fetchDesc_ok {nominal : Option Nat} {off : Nat} {d : Desc}
    (h : fetchDesc c bad read nominal off = .ok d) :
    ∃ b, read off 1 = .ok b ∧ c.descOf (b.setWidth 8) = some d ∧
      ¬ (d.width = 0 ∧ nominal = none) := by
  obtain ⟨b, hb, h⟩ := bind_ok h
  exact ⟨b, hb, resolveDesc_ok h⟩

theorem checkIndex_ok {v : Word} {k : Fin 64} (h : checkIndex bad v = .ok k) : v.toNat = k.val := by
  unfold checkIndex at h
  split at h
  · cases h; rfl
  · cases h

/-- An operand fetch reads its data once; the operand has the descriptor it was fetched for, and its
raw value is what was read (40_cycle_fetch_decode.md R146). -/
theorem fetchOperand_ok {nominal : Option Nat} {off : Nat} {d : Desc} {x : Operand}
    (h : fetchOperand bad read nominal off d = .ok x) :
    read off (x.dataBytes nominal) = .ok x.raw ∧ x.desc = d := by
  obtain ⟨v, hv, h⟩ := bind_ok h
  obtain ⟨m, w⟩ := d
  cases m <;> simp only at h hv
  · obtain ⟨k, hk, h⟩ := bind_ok h
    cases h
    refine ⟨?_, rfl⟩
    rw [show (Operand.r w k).raw = v by rw [← BitVec.toNat_inj, raw_r_toNat, checkIndex_ok hk]]
    exact hv
  · cases h
    exact ⟨hv, rfl⟩
  · cases h
    exact ⟨hv, rfl⟩
  · obtain ⟨k, hk, h⟩ := bind_ok h
    cases h
    refine ⟨?_, rfl⟩
    rw [show (Operand.mr w k).raw = v by rw [← BitVec.toNat_inj, raw_mr_toNat, checkIndex_ok hk]]
    exact hv

/-- Everything a successful decode can have done (40_cycle_fetch_decode.md R147). -/
theorem decodeWith_ok {i : Instr} {n : Nat} (h : decodeWith c bad read = .ok (i, n)) :
    ∃ v p, fetchOpcode read = .ok (v, p) ∧
    ((∃ o, c.operationOf v = some (.zero o) ∧ i = Instr.ofZero o ∧ n = p) ∨
     (∃ o d x, c.operationOf v = some (.sleep o) ∧ fetchDesc c bad read none p = .ok d ∧
       fetchOperand bad read none (p + 1) d = .ok x ∧ i = Instr.ofSleep o x ∧
       n = p + 1 + x.dataBytes none) ∨
     (∃ o d1 d2 x1 x2, c.operationOf v = some (.move o) ∧
       fetchDesc c bad read (some o.nominal) p = .ok d1 ∧
       fetchDesc c bad read (some o.nominal) (p + 1) = .ok d2 ∧
       fetchOperand bad read (some o.nominal) (p + 2) d1 = .ok x1 ∧
       fetchOperand bad read (some o.nominal) (p + 2 + x1.dataBytes (some o.nominal)) d2 = .ok x2 ∧
       i = Instr.ofMove o x1 x2 ∧
       n = p + 2 + x1.dataBytes (some o.nominal) + x2.dataBytes (some o.nominal))) := by
  obtain ⟨⟨v, p⟩, hv, h⟩ := bind_ok h
  refine ⟨v, p, hv, ?_⟩
  simp only at h
  split at h
  · cases h
  · rename_i o ho
    cases h
    exact .inl ⟨o, ho, rfl, rfl⟩
  · rename_i o ho
    obtain ⟨d, hd, h⟩ := bind_ok h
    obtain ⟨x, hx, h⟩ := bind_ok h
    cases h
    exact .inr (.inl ⟨o, d, x, ho, hd, hx, rfl, rfl⟩)
  · rename_i o ho
    obtain ⟨d1, hd1, h⟩ := bind_ok h
    obtain ⟨d2, hd2, h⟩ := bind_ok h
    obtain ⟨x1, hx1, h⟩ := bind_ok h
    obtain ⟨x2, hx2, h⟩ := bind_ok h
    cases h
    exact .inr (.inr ⟨o, d1, d2, x1, x2, ho, hd1, hd2, hx1, hx2, rfl, rfl⟩)

end Inversion

/-! ### The tables -/

theorem wf_opcodesOk {c : Config} (h : c.wf = true) : c.opcodesOk = true := by
  simp only [Config.wf, Bool.and_eq_true] at h
  exact h.1.2

theorem wf_descriptorsOk {c : Config} (h : c.wf = true) : c.descriptorsOk = true := by
  simp only [Config.wf, Bool.and_eq_true] at h
  exact h.2

theorem wf_sizes {c : Config} (h : c.wf = true) :
    1 ≤ c.romSize ∧ 1 ≤ c.ramSize ∧ c.top ≤ 2 ^ 64 - 1 ∧ 1 ≤ c.cyclesPerMs ∧ 1 ≤ c.cyclesPerSec := by
  simp only [Config.wf, Bool.and_eq_true, decide_eq_true_eq] at h
  exact ⟨h.1.1.1.1.1.1.2, h.1.1.1.1.1.2, h.1.1.1.1.2, h.1.1.1.2, h.1.1.2⟩

theorem mem_all_operations (o : Operation) : o ∈ Operation.all := by
  cases o with
  | zero o => cases o <;> decide
  | sleep o => cases o <;> decide
  | move o => cases o <;> decide

theorem operationOf_opcodeOf {c : Config} (h : c.opcodesOk = true) (o : Operation) :
    c.operationOf (c.opcodeOf o) = some o ∧ opcodeValueOk (c.opcodeOf o) = true := by
  simp only [Config.opcodesOk, Bool.and_eq_true, List.all_eq_true, beq_iff_eq] at h
  exact h.1 o (mem_all_operations o)

theorem opcodeOf_operationOf {c : Config} (h : c.opcodesOk = true) {v : BitVec 16} {o : Operation}
    (hv : c.operationOf v = some o) : c.opcodeOf o = v := by
  simp only [Config.opcodesOk, Bool.and_eq_true, List.all_eq_true, beq_iff_eq] at h
  obtain ⟨row, hrow, rfl⟩ := Option.map_eq_some_iff.1 hv
  have := List.find?_some hrow
  rw [h.2 row (List.mem_of_find?_eq_some hrow)]
  simpa using this

theorem descOf_byteOf {c : Config} (h : c.descriptorsOk = true) {d : Desc} (hd : d ∈ Desc.all) :
    c.descOf (c.byteOf d) = some d := by
  simp only [Config.descriptorsOk, Bool.and_eq_true, List.all_eq_true, beq_iff_eq] at h
  exact h.1 d hd

theorem byteOf_descOf {c : Config} (h : c.descriptorsOk = true) {b : Byte} {d : Desc}
    (hb : c.descOf b = some d) : c.byteOf d = b ∧ d ∈ Desc.all := by
  simp only [Config.descriptorsOk, Bool.and_eq_true, List.all_eq_true, beq_iff_eq,
    List.contains_iff_mem] at h
  obtain ⟨row, hrow, rfl⟩ := Option.map_eq_some_iff.1 hb
  have hm := h.2 row (List.mem_of_find?_eq_some hrow)
  have := List.find?_some hrow
  exact ⟨by rw [hm.2]; simpa using this, hm.1⟩

/-- The 33 descriptors (30_encoding.md R112). -/
theorem mem_all_descs (d : Desc) :
    d ∈ Desc.all ↔ widthOk d.width = true ∨ d = ⟨.i, 0⟩ := by
  obtain ⟨m, w⟩ := d
  simp only [Desc.all, List.mem_append, List.mem_map, List.mem_range, Desc.mk.injEq, widthOk,
    Bool.and_eq_true, decide_eq_true_eq]
  constructor
  · rintro (((⟨k, hk, rfl, rfl⟩ | ⟨k, hk, rfl, rfl⟩) | ⟨k, hk, rfl, rfl⟩) | ⟨k, hk, rfl, rfl⟩)
    · left; omega
    · by_cases h : k = 0
      · right; exact ⟨rfl, h⟩
      · left; omega
    · left; omega
    · left; omega
  · rintro (⟨h1, h2⟩ | ⟨rfl, rfl⟩)
    · cases m
      · left; left; left; exact ⟨w - 1, by omega, rfl, by omega⟩
      · left; left; right; exact ⟨w, by omega, rfl, rfl⟩
      · left; right; exact ⟨w - 1, by omega, rfl, by omega⟩
      · right; exact ⟨w - 1, by omega, rfl, by omega⟩
    · left; left; right; exact ⟨0, by omega, rfl, rfl⟩

/-! ### Mnemonics and operands of the instructions -/

@[simp] theorem ofZero_operation (o : ZeroOp) : (Instr.ofZero o).operation = .zero o := by
  cases o <;> rfl
@[simp] theorem ofSleep_operation (o : SleepOp) (x : Operand) :
    (Instr.ofSleep o x).operation = .sleep o := by
  cases o <;> rfl
@[simp] theorem ofMove_operation (o : MoveOp) (d x : Operand) :
    (Instr.ofMove o d x).operation = .move o := by
  cases o <;> rfl
@[simp] theorem ofZero_operands (o : ZeroOp) : (Instr.ofZero o).operands = [] := by
  cases o <;> rfl
@[simp] theorem ofSleep_operands (o : SleepOp) (x : Operand) :
    (Instr.ofSleep o x).operands = [x] := by
  cases o <;> rfl
@[simp] theorem ofMove_operands (o : MoveOp) (d x : Operand) :
    (Instr.ofMove o d x).operands = [d, x] := by
  cases o <;> rfl

/-- Every instruction is of one of the three formats (30_encoding.md R103 to R105). -/
theorem instr_cases (i : Instr) : (∃ o, i = Instr.ofZero o) ∨ (∃ o x, i = Instr.ofSleep o x) ∨
    (∃ o d x, i = Instr.ofMove o d x) := by
  cases i with
  | nac => exact .inl ⟨.nac, rfl⟩
  | wait => exact .inl ⟨.wait, rfl⟩
  | stop => exact .inl ⟨.stop, rfl⟩
  | sleepms x => exact .inr (.inl ⟨.sleepms, x, rfl⟩)
  | sleepsec x => exact .inr (.inl ⟨.sleepsec, x, rfl⟩)
  | mval8 d x => exact .inr (.inr ⟨.mval8, d, x, rfl⟩)
  | mval16 d x => exact .inr (.inr ⟨.mval16, d, x, rfl⟩)
  | mval24 d x => exact .inr (.inr ⟨.mval24, d, x, rfl⟩)
  | mval32 d x => exact .inr (.inr ⟨.mval32, d, x, rfl⟩)
  | mval40 d x => exact .inr (.inr ⟨.mval40, d, x, rfl⟩)
  | mval48 d x => exact .inr (.inr ⟨.mval48, d, x, rfl⟩)
  | mval56 d x => exact .inr (.inr ⟨.mval56, d, x, rfl⟩)
  | mval64 d x => exact .inr (.inr ⟨.mval64, d, x, rfl⟩)

theorem nominal_range (o : MoveOp) : 1 ≤ o.nominal ∧ o.nominal ≤ 8 := by
  cases o <;> decide

/-- A nominal width that an instruction can have. -/
def nominalOk (n : Option Nat) : Prop := ∀ k, n = some k → 1 ≤ k ∧ k ≤ 8

theorem nominalOk_operation (o : Operation) : nominalOk o.nominal := by
  intro k hk
  cases o with
  | zero o => cases hk
  | sleep o => cases hk
  | move o => cases hk; exact nominal_range o

/-- The effective width of a well-formed operand is 1 to 8 (30_encoding.md R115). -/
theorem width_range {n : Option Nat} (hn : nominalOk n) {x : Operand} (h : x.wf n = true) :
    1 ≤ x.width n ∧ x.width n ≤ 8 := by
  cases x with
  | r w k =>
    rw [Operand.wf, widthOk_iff] at h
    rwa [width_r, effWidth_pos _ (by omega)]
  | mr w k =>
    rw [Operand.wf, widthOk_iff] at h
    rwa [width_mr, effWidth_pos _ (by omega)]
  | mi w a =>
    rw [Operand.wf, Bool.and_eq_true, widthOk_iff] at h
    rw [width_mi, effWidth_pos _ (by omega)]
    exact h.1
  | i w v =>
    by_cases hw : w = 0
    · subst hw
      cases n with
      | none => cases h
      | some k => exact hn k rfl
    · rw [wf_i_pos _ _ hw, Bool.and_eq_true, widthOk_iff] at h
      rw [width_i, effWidth_pos _ hw]
      exact h.1

theorem dataBytes_range {n : Option Nat} (hn : nominalOk n) {x : Operand} (h : x.wf n = true) :
    1 ≤ x.dataBytes n ∧ x.dataBytes n ≤ 8 := by
  have hw := width_range hn h
  cases x with
  | r w k => simp
  | mr w k => simp
  | i w v => exact hw
  | mi w a => exact hw

/-- The descriptor of a well-formed operand is in the table and legal in the instruction. -/
theorem wf_desc {n : Option Nat} {x : Operand} (h : x.wf n = true) :
    x.desc ∈ Desc.all ∧ ¬ (x.desc.width = 0 ∧ n = none) := by
  rw [mem_all_descs]
  cases x with
  | r w k =>
    have hw := (widthOk_iff w).1 h
    exact ⟨.inl h, fun hc => absurd (show w = 0 from hc.1) (by omega)⟩
  | mr w k =>
    have hw := (widthOk_iff w).1 h
    exact ⟨.inl h, fun hc => absurd (show w = 0 from hc.1) (by omega)⟩
  | mi w a =>
    rw [Operand.wf, Bool.and_eq_true] at h
    have hw := (widthOk_iff w).1 h.1
    exact ⟨.inl h.1, fun hc => absurd (show w = 0 from hc.1) (by omega)⟩
  | i w v =>
    by_cases hw : w = 0
    · subst hw
      refine ⟨.inr rfl, fun hc => ?_⟩
      rw [hc.2] at h
      cases h
    · rw [wf_i_pos _ _ hw, Bool.and_eq_true] at h
      exact ⟨.inl h.1, fun hc => hw hc.1⟩

/-- The raw value of a well-formed operand fits in its data bytes (30_encoding.md R117). -/
theorem raw_fits {n : Option Nat} {x : Operand} (h : x.wf n = true) :
    x.raw.toNat < 2 ^ (8 * x.dataBytes n) := by
  cases x with
  | r w k =>
    rw [raw_r_toNat, dataBytes_r]
    have := k.isLt
    omega
  | mr w k =>
    rw [raw_mr_toNat, dataBytes_mr]
    have := k.isLt
    omega
  | mi w a =>
    rw [Operand.wf, Bool.and_eq_true, widthOk_iff, fits_iff] at h
    rw [raw_mi, dataBytes_mi, effWidth_pos _ (by omega)]
    exact h.2
  | i w v =>
    rw [raw_i, dataBytes_i]
    by_cases hw : w = 0
    · subst hw
      cases n with
      | none => cases h
      | some k => exact (fits_iff k v).1 h
    · rw [wf_i_pos _ _ hw, Bool.and_eq_true, fits_iff] at h
      rw [effWidth_pos _ hw]
      exact h.2

/-- An operand whose descriptor is legal and whose raw value fits is well formed. -/
theorem wf_of_fits {n : Option Nat} {x : Operand} (hd : x.desc ∈ Desc.all)
    (hw : ¬ (x.desc.width = 0 ∧ n = none)) (hr : x.raw.toNat < 2 ^ (8 * x.dataBytes n)) :
    x.wf n = true := by
  rw [mem_all_descs] at hd
  cases x with
  | r w k =>
    rcases hd with hd | hd
    · exact hd
    · cases hd
  | mr w k =>
    rcases hd with hd | hd
    · exact hd
    · cases hd
  | mi w a =>
    rcases hd with hd | hd
    · have hw := (widthOk_iff w).1 hd
      rw [raw_mi, dataBytes_mi, effWidth_pos _ (by omega)] at hr
      rw [Operand.wf, Bool.and_eq_true, fits_iff]
      exact ⟨hd, hr⟩
    · cases hd
  | i w v =>
    rw [raw_i, dataBytes_i] at hr
    by_cases h0 : w = 0
    · subst h0
      cases n with
      | none => exact absurd ⟨rfl, rfl⟩ hw
      | some k => exact (fits_iff k v).2 hr
    · rw [effWidth_pos _ h0] at hr
      rw [wf_i_pos _ _ h0, Bool.and_eq_true, fits_iff]
      rcases hd with hd | hd
      · exact ⟨hd, hr⟩
      · cases hd; exact absurd rfl h0

theorem ofZero_wf (o : ZeroOp) : (Instr.ofZero o).wf = true := by
  cases o <;> rfl

theorem ofSleep_wf (o : SleepOp) (x : Operand) : (Instr.ofSleep o x).wf = x.wf none := by
  simp [Instr.wf, Operation.nominal]

theorem ofMove_wf (o : MoveOp) (d x : Operand) :
    (Instr.ofMove o d x).wf = (d.wf (some o.nominal) && x.wf (some o.nominal)) := by
  simp [Instr.wf, Operation.nominal]

/-! ### The number of bytes taken, and well-formedness of what is decoded -/

section Readers
variable {ε : Type} {c : Config} {bad : DecodeError → ε} {read : Nat → Nat → Except ε Word}

/-- A reader whose values fit in the bytes asked for. -/
def FitReader (read : Nat → Nat → Except ε Word) : Prop :=
  ∀ off n v, read off n = .ok v → v.toNat < 2 ^ (8 * n)

/-- The opcode value decides how many opcode bytes there were (30_encoding.md R101, 10_state.md R30). -/
theorem fetchOpcode_length (hr : FitReader read) {v : BitVec 16} {p : Nat}
    (h : fetchOpcode read = .ok (v, p)) : p = if v.toNat < 0x100 then 1 else 2 := by
  rcases fetchOpcode_ok h with ⟨b0, h0, hp, rfl, rfl⟩ | ⟨b0, b1, h0, hp, h1, rfl, rfl⟩
  · have hb := hr _ _ _ h0
    rw [if_pos]
    simp only [BitVec.toNat_setWidth]
    omega
  · have hb := hr _ _ _ h0
    rw [if_neg]
    simp only [isPrefixByte, BitVec.toNat_setWidth, Bool.and_eq_true, decide_eq_true_eq] at hp
    simp only [BitVec.toNat_or, BitVec.toNat_shiftLeft, BitVec.toNat_setWidth]
    have : 0x100 ≤ (b0.toNat % 2 ^ 16) <<< 8 % 2 ^ 16 := by
      rw [Nat.shiftLeft_eq]; omega
    exact not_lt.2 (this.trans Nat.left_le_or)

/-- What is decoded is well formed, and it took its encoded length (30_encoding.md R118). -/
theorem decodeWith_wf (hc : c.wf = true) (hr : FitReader read) {i : Instr} {n : Nat}
    (h : decodeWith c bad read = .ok (i, n)) : i.wf = true ∧ n = i.length c := by
  have hd := wf_descriptorsOk hc
  have key : ∀ {nominal : Option Nat} {off off' : Nat} {d : Desc} {x : Operand},
      fetchDesc c bad read nominal off = .ok d → fetchOperand bad read nominal off' d = .ok x →
      x.wf nominal = true := by
    intro nominal off off' d x h1 h2
    obtain ⟨b, hb, hdb, hw⟩ := fetchDesc_ok h1
    obtain ⟨hx, rfl⟩ := fetchOperand_ok h2
    exact wf_of_fits (byteOf_descOf hd hdb).2 hw (hr _ _ _ hx)
  obtain ⟨v, p, hv, h⟩ := decodeWith_ok h
  have hp := fetchOpcode_length hr hv
  rcases h with ⟨o, ho, rfl, rfl⟩ | ⟨o, d, x, ho, h1, h2, rfl, rfl⟩ |
    ⟨o, d1, d2, x1, x2, ho, h1, h2, h3, h4, rfl, rfl⟩
  · have := opcodeOf_operationOf (wf_opcodesOk hc) ho
    exact ⟨ofZero_wf o, by simp [Instr.length, Config.opcodeLength, this, hp]⟩
  · have := opcodeOf_operationOf (wf_opcodesOk hc) ho
    refine ⟨by rw [ofSleep_wf]; exact key h1 h2, ?_⟩
    simp [Instr.length, Config.opcodeLength, this, ← hp, Operation.nominal]
  · have := opcodeOf_operationOf (wf_opcodesOk hc) ho
    refine ⟨by rw [ofMove_wf, key h1 h3, key h2 h4]; rfl, ?_⟩
    simp [Instr.length, Config.opcodeLength, this, ← hp, Operation.nominal]
    omega

end Readers

theorem readBytes_fit (bytes : List Byte) : FitReader (readBytes bytes) := by
  intro off n v h
  unfold readBytes at h
  split at h
  · rename_i hl
    cases h
    have := leValue_toNat_lt ((bytes.drop off).take n)
    rwa [List.length_take, List.length_drop, min_eq_left (by omega)] at this
  · cases h

/-! ### What a reader must serve for an instruction to be decoded -/

section Forward
variable {ε : Type} {c : Config} {bad : DecodeError → ε} {read : Nat → Nat → Except ε Word}

theorem opcodeBytes_short {v : BitVec 16} (h : v.toNat < 0x100) : opcodeBytes v = [v.setWidth 8] :=
  if_pos h

theorem opcodeBytes_long {v : BitVec 16} (h : ¬ v.toNat < 0x100) :
    opcodeBytes v = [(v >>> 8).setWidth 8, v.setWidth 8] := if_neg h

theorem opcodeValueOk_iff {v : BitVec 16} :
    opcodeValueOk v = true ↔ v.toNat < 0x1000 ∧ ¬ (1 ≤ v.toNat ∧ v.toNat ≤ 0x0F) := by
  simp only [opcodeValueOk, Bool.and_eq_true, Bool.not_eq_true', decide_eq_true_eq,
    ← Bool.not_eq_true]

theorem isPrefixByte_iff {b : Byte} : isPrefixByte b = true ↔ 1 ≤ b.toNat ∧ b.toNat ≤ 0x0F := by
  simp [isPrefixByte]

theorem setWidth_8_64 (b : Byte) : (b.setWidth 64 : Word).setWidth 8 = b := by
  apply BitVec.eq_of_toNat_eq
  simp only [BitVec.toNat_setWidth]
  omega

theorem setWidth_16_64 (b : Byte) : (b.setWidth 64 : Word).setWidth 16 = b.setWidth 16 := by
  apply BitVec.eq_of_toNat_eq
  simp only [BitVec.toNat_setWidth]
  omega

/-- The opcode fetch on a byte that is a whole opcode (30_encoding.md R101). -/
theorem fetchOpcode_of_single {b : Byte} (h0 : read 0 1 = .ok (b.setWidth 64))
    (hb : isPrefixByte b = false) : fetchOpcode read = .ok (b.setWidth 16, 1) := by
  unfold fetchOpcode
  rw [bind_of_ok h0, setWidth_8_64, hb, setWidth_16_64]
  rfl

/-- The opcode fetch on a prefix byte and the byte after it (30_encoding.md R101). -/
theorem fetchOpcode_of_pair {b0 b1 : Byte} (h0 : read 0 1 = .ok (b0.setWidth 64))
    (hb : isPrefixByte b0 = true) (h1 : read 1 1 = .ok (b1.setWidth 64)) :
    fetchOpcode read = .ok (b0 ++ b1, 2) := by
  unfold fetchOpcode
  rw [bind_of_ok h0, setWidth_8_64, hb, setWidth_16_64]
  simp only [if_true]
  rw [bind_of_ok h1, setWidth_16_64]
  have : b0.setWidth 16 <<< 8 ||| b1.setWidth 16 = b0 ++ b1 := by
    apply BitVec.eq_of_getLsbD_eq
    intro j hj
    simp only [BitVec.getLsbD_or, BitVec.getLsbD_shiftLeft, BitVec.getLsbD_setWidth, hj,
      BitVec.getLsbD_append, decide_true, Bool.true_and]
    by_cases h : j < 8
    · simp [h]
    · simp [h, show j - 8 < 16 by omega, BitVec.getLsbD_of_ge b1 j (by omega)]
  rw [this]
  rfl

/-- The opcode fetch on the opcode bytes of a value the stream can form (30_encoding.md R101, R102). -/
theorem fetchOpcode_of_bytes {v : BitVec 16} (hv : opcodeValueOk v = true)
    (h : ∀ k, (hk : k < (opcodeBytes v).length) → read k 1 = .ok ((opcodeBytes v)[k].setWidth 64)) :
    fetchOpcode read = .ok (v, (opcodeBytes v).length) := by
  rw [opcodeValueOk_iff] at hv
  by_cases hs : v.toNat < 0x100
  · simp only [opcodeBytes_short hs, List.length_singleton] at h ⊢
    have h0 := h 0 (by decide)
    rw [List.getElem_cons_zero] at h0
    have hw : (v.setWidth 8 : Byte).toNat = v.toNat := by
      simp only [BitVec.toNat_setWidth]; omega
    rw [fetchOpcode_of_single h0 (by rw [← Bool.not_eq_true, isPrefixByte_iff, hw]; omega)]
    congr 2
    apply BitVec.eq_of_toNat_eq
    rw [BitVec.toNat_setWidth, hw]
    omega
  · simp only [opcodeBytes_long hs, List.length_cons, List.length_nil] at h ⊢
    have h0 := h 0 (by decide)
    have h1 := h 1 (by decide)
    rw [List.getElem_cons_zero] at h0
    simp only [List.getElem_cons_succ, List.getElem_cons_zero] at h1
    have hw : ((v >>> 8).setWidth 8 : Byte).toNat = v.toNat / 256 := by
      simp only [BitVec.toNat_setWidth, BitVec.toNat_ushiftRight, Nat.shiftRight_eq_div_pow]
      omega
    rw [fetchOpcode_of_pair h0 (by rw [isPrefixByte_iff, hw]; omega) h1]
    congr 2
    apply BitVec.eq_of_getLsbD_eq
    intro j hj
    simp only [BitVec.getLsbD_append, BitVec.getLsbD_setWidth, BitVec.getLsbD_ushiftRight]
    by_cases h : j < 8
    · simp [h]
    · simp [h, show j - 8 < 8 by omega, show 8 + (j - 8) = j by omega]

/-- A legal descriptor byte is resolved (40_cycle_fetch_decode.md R145). -/
theorem fetchDesc_of_byte {nominal : Option Nat} {off : Nat} {b : Byte} {d : Desc}
    (h : read off 1 = .ok (b.setWidth 64)) (hb : c.descOf b = some d)
    (hw : ¬ (d.width = 0 ∧ nominal = none)) : fetchDesc c bad read nominal off = .ok d := by
  unfold fetchDesc
  rw [bind_of_ok h, setWidth_8_64]
  simp only [resolveDesc, hb, if_neg hw]

theorem checkIndex_of_lt {v : Word} {k : Fin 64} (h : v.toNat = k.val) :
    checkIndex bad v = .ok k := by
  unfold checkIndex
  rw [dif_pos (by rw [h]; exact k.isLt)]
  congr 1
  exact Fin.ext h

/-- An operand's data is decoded to it (40_cycle_fetch_decode.md R146). -/
theorem fetchOperand_of_data {nominal : Option Nat} {off : Nat} {x : Operand}
    (h : read off (x.dataBytes nominal) = .ok x.raw) :
    fetchOperand bad read nominal off x.desc = .ok x := by
  change (read off (x.dataBytes nominal) >>= _) = _
  rw [bind_of_ok h]
  cases x with
  | r w k =>
    change (checkIndex bad _ >>= _) = _
    rw [bind_of_ok (checkIndex_of_lt (raw_r_toNat w k))]
    rfl
  | i w v => rfl
  | mi w a => rfl
  | mr w k =>
    change (checkIndex bad _ >>= _) = _
    rw [bind_of_ok (checkIndex_of_lt (raw_mr_toNat w k))]
    rfl

theorem opcodeBytes_length (c : Config) (o : Operation) :
    (opcodeBytes (c.opcodeOf o)).length = c.opcodeLength o := by
  unfold opcodeBytes Config.opcodeLength
  split <;> rfl

/-- A reader that serves the opcode bytes, the descriptor bytes and the operand data of a well-formed
instruction decodes to it (40_cycle_fetch_decode.md R147). -/
theorem decodeWith_of_reads (hc : c.wf = true) {i : Instr} (hi : i.wf = true)
    (hop : ∀ k, (hk : k < (opcodeBytes (c.opcodeOf i.operation)).length) →
      read k 1 = .ok ((opcodeBytes (c.opcodeOf i.operation))[k].setWidth 64))
    (hdesc : ∀ j, (hj : j < i.operands.length) →
      read (c.opcodeLength i.operation + j) 1 = .ok ((c.byteOf i.operands[j].desc).setWidth 64))
    (hdata : ∀ j, (hj : j < i.operands.length) →
      read (c.opcodeLength i.operation + i.operands.length +
          ((i.operands.take j).map (Operand.dataBytes i.operation.nominal)).sum)
        (i.operands[j].dataBytes i.operation.nominal) = .ok i.operands[j].raw) :
    decodeWith c bad read = .ok (i, i.length c) := by
  have hop2 := operationOf_opcodeOf (wf_opcodesOk hc) i.operation
  have hf := fetchOpcode_of_bytes hop2.2 hop
  rw [opcodeBytes_length] at hf
  unfold decodeWith
  rw [bind_of_ok hf]
  simp only [hop2.1]
  rcases instr_cases i with ⟨o, rfl⟩ | ⟨o, x, rfl⟩ | ⟨o, d, x, rfl⟩
  · simp only [ofZero_operation]
    simp [Instr.length]
    rfl
  · simp only [ofSleep_operation, ofSleep_operands] at hdesc hdata ⊢
    rw [ofSleep_wf] at hi
    have h1 := hdesc 0 (by simp)
    have h2 := hdata 0 (by simp)
    simp [Operation.nominal] at h1 h2
    obtain ⟨hd, hw⟩ := wf_desc hi
    rw [bind_of_ok (fetchDesc_of_byte h1 (descOf_byteOf (wf_descriptorsOk hc) hd) hw),
      bind_of_ok (fetchOperand_of_data h2)]
    simp [Instr.length, Operation.nominal]
    rfl
  · simp only [ofMove_operation, ofMove_operands] at hdesc hdata ⊢
    rw [ofMove_wf, Bool.and_eq_true] at hi
    have h1 := hdesc 0 (by simp)
    have h2 := hdesc 1 (by simp)
    have h3 := hdata 0 (by simp)
    have h4 := hdata 1 (by simp)
    simp [Operation.nominal] at h1 h2 h3 h4
    obtain ⟨hd, hw⟩ := wf_desc hi.1
    obtain ⟨hd', hw'⟩ := wf_desc hi.2
    rw [bind_of_ok (fetchDesc_of_byte h1 (descOf_byteOf (wf_descriptorsOk hc) hd) hw),
      bind_of_ok (fetchDesc_of_byte h2 (descOf_byteOf (wf_descriptorsOk hc) hd') hw'),
      bind_of_ok (fetchOperand_of_data h3), bind_of_ok (fetchOperand_of_data h4)]
    simp [Instr.length, Operation.nominal, Nat.add_assoc]
    rfl

end Forward

/-! ### Where the fields of an encoding stand -/

theorem list_split {α : Type} (l : List α) (k : Nat) (hk : k < l.length) :
    l = l.take k ++ ([l[k]] ++ l.drop (k+1)) := by
  conv_lhs => rw [← List.take_append_drop k l, List.drop_eq_getElem_cons hk]
  rfl

/-- The operand data bytes of an instruction (30_encoding.md R116). -/
theorem operandData_length (n : Option Nat) (l : List Operand) :
    (l.flatMap (Operand.encode n)).length = (l.map (Operand.dataBytes n)).sum := by
  rw [List.length_flatMap]
  congr 1
  simp [Operand.encode]

/-- The encoder's bytes are as many as the total length says (30_encoding.md R118). -/
theorem encode_length (c : Config) (i : Instr) : (encode c i).length = i.length c := by
  simp only [encode, Instr.length, List.length_append, List.length_map, opcodeBytes_length, operandData_length]

/-- Where an opcode byte stands in the encoding (30_encoding.md R100). -/
theorem encode_opcode (c : Config) (i : Instr) (k : Nat)
    (hk : k < (opcodeBytes (c.opcodeOf i.operation)).length) :
    ∃ pre post, encode c i = pre ++ [(opcodeBytes (c.opcodeOf i.operation))[k]] ++ post ∧ pre.length = k := by
  refine ⟨(opcodeBytes (c.opcodeOf i.operation)).take k,
    (opcodeBytes (c.opcodeOf i.operation)).drop (k+1) ++ (i.operands.map (fun o => c.byteOf o.desc) ++
      i.operands.flatMap (Operand.encode i.operation.nominal)), ?_, by simp; omega⟩
  · rw [encode]
    conv_lhs => rw [list_split _ k hk]
    simp only [List.append_assoc]

/-- Where a descriptor byte stands in the encoding (30_encoding.md R100). -/
theorem encode_desc (c : Config) (i : Instr) (j : Nat) (hj : j < i.operands.length) :
    ∃ pre post, encode c i = pre ++ [c.byteOf i.operands[j].desc] ++ post ∧
      pre.length = c.opcodeLength i.operation + j := by
  refine ⟨opcodeBytes (c.opcodeOf i.operation) ++ (i.operands.take j).map (fun o => c.byteOf o.desc),
    (i.operands.drop (j+1)).map (fun o => c.byteOf o.desc) ++
      i.operands.flatMap (Operand.encode i.operation.nominal), ?_, ?_⟩
  · rw [encode]
    conv_lhs => arg 1; arg 2; rw [list_split _ j hj]
    simp only [List.append_assoc, List.map_append, List.map_cons, List.map_nil]
  · simp [opcodeBytes_length]; omega

/-- Where an operand's data stands in the encoding (30_encoding.md R100). -/
theorem encode_data (c : Config) (i : Instr) (j : Nat) (hj : j < i.operands.length) :
    ∃ pre post, encode c i = pre ++ i.operands[j].encode i.operation.nominal ++ post ∧
      pre.length = c.opcodeLength i.operation + i.operands.length +
          ((i.operands.take j).map (Operand.dataBytes i.operation.nominal)).sum := by
  refine ⟨opcodeBytes (c.opcodeOf i.operation) ++ i.operands.map (fun o => c.byteOf o.desc) ++
      (i.operands.take j).flatMap (Operand.encode i.operation.nominal),
    (i.operands.drop (j+1)).flatMap (Operand.encode i.operation.nominal), ?_, ?_⟩
  · rw [encode]
    conv_lhs => arg 2; rw [list_split _ j hj]
    simp only [List.append_assoc, List.flatMap_append, List.flatMap_cons, List.flatMap_nil, List.append_nil]
  · simp only [List.length_append, List.length_map, opcodeBytes_length, operandData_length]

/-- An operand's data bytes hold its raw value (30_encoding.md R117). -/
theorem raw_encode {i : Instr} (hi : i.wf = true) (j : Nat) (hj : j < i.operands.length) :
    leValue (i.operands[j].encode i.operation.nominal) = i.operands[j].raw := by
  rw [Operand.encode, leValue_leBytes, lowBytes_of_fits]
  apply raw_fits
  have : i.operands.all (Operand.wf i.operation.nominal) = true := hi
  rw [List.all_eq_true] at this
  exact this _ (List.getElem_mem hj)

end Sys2Proof.Machine
end

