-- ==== Sys2Proof/Laws/Bus.lean ====
section
/-! SUPPORT. The translator and the operand resolver: when each answers, what it answers, and when it
faults. -/

namespace Sys2Proof.Machine

/-! ### Routing -/

theorem route_eq_some {c : Config} {a : Nat} {r : Region} :
    route c a = some r ↔ r.base c ≤ a ∧ a < r.base c + r.size c := by
  have hb : c.ramBase = c.romBase + c.romSize := rfl
  unfold route
  by_cases h1 : c.romBase ≤ a ∧ a < c.romBase + c.romSize
  · rw [if_pos h1]
    cases r <;> simp only [Region.base, Region.size, Option.some.injEq, reduceCtorEq, true_iff, false_iff] <;> omega
  · rw [if_neg h1]
    by_cases h2 : c.ramBase ≤ a ∧ a < c.ramBase + c.ramSize
    · rw [if_pos h2]
      cases r <;> simp only [Region.base, Region.size, Option.some.injEq, reduceCtorEq, true_iff, false_iff] <;> omega
    · rw [if_neg h2]
      cases r <;> simp only [Region.base, Region.size, reduceCtorEq, false_iff] <;> omega

theorem route_eq_none {c : Config} {a : Nat} :
    route c a = none ↔ a < c.romBase ∨ c.top ≤ a := by
  have hb : c.ramBase = c.romBase + c.romSize := rfl
  have ht : c.top = c.ramBase + c.ramSize := rfl
  unfold route
  by_cases h1 : c.romBase ≤ a ∧ a < c.romBase + c.romSize
  · rw [if_pos h1]
    simp only [reduceCtorEq, false_iff]
    omega
  · rw [if_neg h1]
    by_cases h2 : c.ramBase ≤ a ∧ a < c.ramBase + c.ramSize
    · rw [if_pos h2]
      simp only [reduceCtorEq, false_iff]
      omega
    · rw [if_neg h2]
      simp only [true_iff]
      omega

theorem base_size_le_top (c : Config) (r : Region) : r.base c + r.size c ≤ c.top := by
  cases r <;> simp [Region.base, Region.size, Config.top, Config.ramBase]

theorem romBase_le_base (c : Config) (r : Region) : c.romBase ≤ r.base c := by
  cases r <;> simp [Region.base, Config.ramBase]

/-! ### The bus primitives -/

theorem memRead_of_none {s : State} {a : Word} {n : Nat} {x : Access}
    (h : route s.cfg a.toNat = none) : memRead s a n x = .error (busOutOfBounds a n x) := by
  simp [memRead, h]

theorem memRead_of_overrun {s : State} {a : Word} {n : Nat} {x : Access} {r : Region}
    (h : route s.cfg a.toNat = some r) (hn : r.size s.cfg < (a.toNat - r.base s.cfg) + n) :
    memRead s a n x = .error (regionOverrun r a n x) := by
  simp [memRead, h, hn]

theorem memRead_of_inside {s : State} {a : Word} {n : Nat} {x : Access} {r : Region}
    (h : route s.cfg a.toNat = some r) (hn : (a.toNat - r.base s.cfg) + n ≤ r.size s.cfg) :
    memRead s a n x = .ok ((s.store r).readLE (a.toNat - r.base s.cfg) n) := by
  simp [memRead, h, Nat.not_lt.2 hn]

/-- A read that answers is inside one region (20_memory.md R66). -/
theorem memRead_ok {s : State} {a : Word} {n : Nat} {x : Access} {v : Word}
    (h : memRead s a n x = .ok v) :
    ∃ r, route s.cfg a.toNat = some r ∧ (a.toNat - r.base s.cfg) + n ≤ r.size s.cfg ∧
      v = (s.store r).readLE (a.toNat - r.base s.cfg) n := by
  unfold memRead at h
  split at h
  · cases h
  · rename_i r hr
    split at h
    · cases h
    · cases h
      exact ⟨r, hr, by omega, rfl⟩

theorem memRead_fit {s : State} {a : Word} {n : Nat} {x : Access} {v : Word}
    (h : memRead s a n x = .ok v) : v.toNat < 2 ^ (8 * n) := by
  obtain ⟨r, _, _, rfl⟩ := memRead_ok h
  exact readLE_lt _ _ _

/-- A read sees the configuration and the stores, nothing else (20_memory.md R74). -/
theorem memRead_congr {s t : State} (hc : t.cfg = s.cfg) (hr : t.rom = s.rom) (hm : t.ram = s.ram)
    (a : Word) (n : Nat) (x : Access) : memRead t a n x = memRead s a n x := by
  have hs : ∀ r, t.store r = s.store r := by intro r; cases r <;> assumption
  simp only [memRead, hc, hs]

theorem memWrite_of_rom {s : State} {a : Word} {n : Nat} {v : Word}
    (h : route s.cfg a.toNat = some .rom) : memWrite s a n v = .error (busWriteToROM a n) := by
  simp [memWrite, h]

theorem memWrite_of_none {s : State} {a : Word} {n : Nat} {v : Word}
    (h : route s.cfg a.toNat = none) : memWrite s a n v = .error (busOutOfBounds a n .write) := by
  simp [memWrite, h]

theorem memWrite_of_overrun {s : State} {a : Word} {n : Nat} {v : Word}
    (h : route s.cfg a.toNat = some .ram) (hn : s.cfg.ramSize < (a.toNat - s.cfg.ramBase) + n) :
    memWrite s a n v = .error (regionOverrun .ram a n .write) := by
  simp [memWrite, h, hn]

theorem memWrite_of_inside {s : State} {a : Word} {n : Nat} {v : Word}
    (h : route s.cfg a.toNat = some .ram) (hn : (a.toNat - s.cfg.ramBase) + n ≤ s.cfg.ramSize) :
    memWrite s a n v = .ok (s.setRam (s.ram.writeLE (a.toNat - s.cfg.ramBase) n v)) := by
  simp [memWrite, h, Nat.not_lt.2 hn]

/-- A write that answers is inside RAM and changes RAM only (20_memory.md R67). -/
theorem memWrite_ok {s t : State} {a : Word} {n : Nat} {v : Word} (h : memWrite s a n v = .ok t) :
    route s.cfg a.toNat = some .ram ∧ (a.toNat - s.cfg.ramBase) + n ≤ s.cfg.ramSize ∧
      t = s.setRam (s.ram.writeLE (a.toNat - s.cfg.ramBase) n v) := by
  unfold memWrite at h
  split at h
  · cases h
  · rename_i hr
    split at h
    · cases h
    · cases h
      exact ⟨hr, by omega, rfl⟩
  · cases h

/-! ### Bytes at absolute addresses -/

theorem byteAt_of_route {s : State} {a : Nat} {r : Region} (h : route s.cfg a = some r) :
    s.byteAt a = some ((s.store r).get (a - r.base s.cfg)) := by
  simp [State.byteAt, h]

theorem byteAt_congr {s t : State} (hc : t.cfg = s.cfg) (hr : t.rom = s.rom) (hm : t.ram = s.ram)
    (a : Nat) : t.byteAt a = s.byteAt a := by
  have hs : ∀ r, t.store r = s.store r := by intro r; cases r <;> assumption
  simp only [State.byteAt, hc, hs]

/-- The bytes of a place that lies in one region. -/
theorem byteAt_inside {s : State} {a n j : Nat} {r : Region} (hr : route s.cfg a = some r)
    (hn : (a - r.base s.cfg) + n ≤ r.size s.cfg) (hj : j < n) :
    s.byteAt (a + j) = some ((s.store r).get (a - r.base s.cfg + j)) := by
  have h := route_eq_some.1 hr
  rw [byteAt_of_route (r := r) (route_eq_some.2 (by omega))]
  congr 2
  omega

/-- A store to RAM, byte by absolute address (20_memory.md R67, R70). -/
theorem byteAt_writeLE {s : State} (hm : s.ram.wf s.cfg.ramSize = true) {a : Nat} {n : Nat} (v : Word)
    (hr : route s.cfg a = some .ram) (hn : (a - s.cfg.ramBase) + n ≤ s.cfg.ramSize) (b : Nat) :
    (s.setRam (s.ram.writeLE (a - s.cfg.ramBase) n v)).byteAt b =
      if a ≤ b ∧ b < a + n then some (v.extractLsb' (8 * (b - a)) 8) else s.byteAt b := by
  have ha := (route_eq_some.1 hr)
  simp only [Region.base, Region.size] at ha
  cases hb : route s.cfg b with
  | none =>
    have := route_eq_none.1 hb
    have htop : s.cfg.ramBase + s.cfg.ramSize = s.cfg.top := rfl
    have hrom := romBase_le_base s.cfg .ram
    simp only [Region.base] at hrom
    rw [if_neg (by omega)]
    simp [State.byteAt, hb]
  | some q =>
    have hq := route_eq_some.1 hb
    have h1 : (s.setRam (s.ram.writeLE (a - s.cfg.ramBase) n v)).byteAt b =
        some (((s.setRam (s.ram.writeLE (a - s.cfg.ramBase) n v)).store q).get
          (b - q.base s.cfg)) := byteAt_of_route hb
    rw [h1, byteAt_of_route hb]
    cases q with
    | rom =>
      have hrb : s.cfg.ramBase = s.cfg.romBase + s.cfg.romSize := rfl
      simp only [Region.base, Region.size] at hq
      rw [if_neg (by omega)]
      rfl
    | ram =>
      simp only [Region.base, Region.size] at hq
      simp only [State.store, State.setRam_ram, Region.base]
      rw [get_writeLE hm _ _ _ hn]
      by_cases hin : a ≤ b ∧ b < a + n
      · rw [if_pos hin, if_pos (by omega)]
        rw [show b - s.cfg.ramBase - (a - s.cfg.ramBase) = b - a by omega]
      · rw [if_neg hin, if_neg (by omega)]

/-! ### Placed bytes -/

/-- Placing a byte keeps both canonical forms. -/
theorem poke_wf {s : State} (hr : s.rom.wf s.cfg.romSize = true) (hm : s.ram.wf s.cfg.ramSize = true)
    (a : Nat) (b : Byte) : (s.poke a b).cfg = s.cfg ∧
      (s.poke a b).rom.wf s.cfg.romSize = true ∧ (s.poke a b).ram.wf s.cfg.ramSize = true := by
  unfold State.poke
  split
  · rename_i h
    have := route_eq_some.1 h
    simp only [Region.base, Region.size] at this
    exact ⟨rfl, wf_set hr (by omega) _, hm⟩
  · rename_i h
    have := route_eq_some.1 h
    simp only [Region.base, Region.size] at this
    exact ⟨rfl, hr, wf_set hm (by omega) _⟩
  · exact ⟨rfl, hr, hm⟩

/-- Placing an instruction keeps both canonical forms. -/
theorem pokeBytes_wf {s : State} (hr : s.rom.wf s.cfg.romSize = true)
    (hm : s.ram.wf s.cfg.ramSize = true) (a : Nat) (bytes : List Byte) :
    (s.pokeBytes a bytes).rom.wf s.cfg.romSize = true ∧
      (s.pokeBytes a bytes).ram.wf s.cfg.ramSize = true := by
  induction bytes generalizing s a with
  | nil => exact ⟨hr, hm⟩
  | cons b bs ih =>
    obtain ⟨hc, h1, h2⟩ := poke_wf hr hm a b
    have := ih (s := s.poke a b) (by rwa [hc]) (by rwa [hc]) (a + 1)
    rwa [hc] at this

/-! ### The operand resolver -/

/-- A source value depends on the registers, the stores and the configuration only (42_move.md R183). -/
theorem srcValue_congr {s t : State} (hc : t.cfg = s.cfg) (hg : t.regs = s.regs) (hr : t.rom = s.rom)
    (hm : t.ram = s.ram) (n : Option Nat) (o : Operand) : srcValue n o t = srcValue n o s := by
  have hk : ∀ k, t.reg k = s.reg k := by intro k; simp only [State.reg, hg]
  cases o <;> simp only [srcValue, hk, memRead_congr hc hr hm]

end Sys2Proof.Machine
end

