-- ==== Sys2Proof/Laws/Exec.lean ====
section
/-! SUPPORT. Everything an instruction and a step can do, said once: `exec` and `step` taken apart into
named cases, from which every invariant is derived. -/

namespace Sys2Proof.Machine

/-! ### The execute arms -/

/-- The execute arm of an instruction that starts in `s` (40_cycle_fetch_decode.md R148). -/
def armOf (i : Instr) (s : State) : State → Except FaultCause State :=
  match i with
  | .nac => fun t => .ok t
  | .wait => fun t => .ok t
  | .stop => fun t => .ok t.halt
  | .sleepms o => sleepArm s.cfg.cyclesPerMs o
  | .sleepsec o => sleepArm s.cfg.cyclesPerSec o
  | .mval8 d x => moveArm 1 d x
  | .mval16 d x => moveArm 2 d x
  | .mval24 d x => moveArm 3 d x
  | .mval32 d x => moveArm 4 d x
  | .mval40 d x => moveArm 5 d x
  | .mval48 d x => moveArm 6 d x
  | .mval56 d x => moveArm 7 d x
  | .mval64 d x => moveArm 8 d x

theorem exec_eq (i : Instr) (s : State) : exec i s = normalCycle i (armOf i s) s := by
  cases i <;> rfl

theorem exec_ofMove (o : MoveOp) (d x : Operand) (s : State) :
    exec (Instr.ofMove o d x) s = normalCycle (Instr.ofMove o d x) (moveArm o.nominal d x) s := by
  cases o <;> rfl

/-- The sleep unit of a sleep mnemonic (43_sleep.md R210). -/
def sleepUnit (c : Config) : SleepOp → Nat
  | .sleepms => c.cyclesPerMs
  | .sleepsec => c.cyclesPerSec

theorem exec_ofSleep (o : SleepOp) (x : Operand) (s : State) :
    exec (Instr.ofSleep o x) s =
      normalCycle (Instr.ofSleep o x) (sleepArm (sleepUnit s.cfg o) x) s := by
  cases o <;> rfl

theorem normalCycle_of_ok {i : Instr} {arm : State → Except FaultCause State} {s u : State}
    (h : arm (s.decoded i) = .ok u) : normalCycle i arm s = .next u.countCycle := by
  simp [normalCycle, h]

theorem normalCycle_of_error {i : Instr} {arm : State → Except FaultCause State} {s : State}
    {f : FaultCause} (h : arm (s.decoded i) = .error f) :
    normalCycle i arm s = .next (raise s.ip f (s.decoded i)) := by
  simp [normalCycle, h]

/-- An instruction completes or takes one fault (40_cycle_fetch_decode.md R149). -/
theorem exec_next {i : Instr} {s t : State} (h : exec i s = .next t) :
    (∃ u, armOf i s (s.decoded i) = .ok u ∧ t = u.countCycle) ∨
    (∃ f, armOf i s (s.decoded i) = .error f ∧ t = raise s.ip f (s.decoded i)) := by
  rw [exec_eq] at h
  cases ha : armOf i s (s.decoded i) with
  | ok u => rw [normalCycle_of_ok ha] at h; cases h; exact .inl ⟨u, rfl, rfl⟩
  | error f => rw [normalCycle_of_error ha] at h; cases h; exact .inr ⟨f, rfl, rfl⟩

theorem exec_answers (i : Instr) (s : State) : ∃ t, exec i s = .next t := by
  rw [exec_eq]
  cases ha : armOf i s (s.decoded i) with
  | ok u => exact ⟨_, normalCycle_of_ok ha⟩
  | error f => exact ⟨_, normalCycle_of_error ha⟩

theorem sleepArm_ok {unit : Nat} {o : Operand} {s t : State} (h : sleepArm unit o s = .ok t) :
    ∃ k, srcValue none o s = .ok k ∧ t = s.startSleep (k.toNat * unit) := by
  unfold sleepArm at h
  split at h
  · cases h
  · rename_i k hk
    cases h
    exact ⟨k, hk, rfl⟩

theorem moveValue_not_imm {n : Nat} {d x : Operand} {s : State} (h : ∀ w v, d ≠ .i w v) :
    moveValue n d x s = srcValue (some n) x s := by
  cases d with
  | i w v => exact absurd rfl (h w v)
  | r w k => rfl
  | mi w a => rfl
  | mr w k => rfl

/-- A move that answers has written one register, or one place in RAM, and nothing else
(42_move.md R185). -/
theorem moveArm_ok {n : Nat} {d x : Operand} {s t : State} (h : moveArm n d x s = .ok t) :
    ∃ v, srcValue (some n) x s = .ok v ∧
    ((∃ w k, d = .r w k ∧ t = s.setRegLow k w (lowBytes (d.width (some n)) v)) ∨
     (∃ w a, effAddr s d = some a ∧ w = d.desc.width ∧ route s.cfg a.toNat = some .ram ∧
       (a.toNat - s.cfg.ramBase) + w ≤ s.cfg.ramSize ∧
       t = s.setRam (s.ram.writeLE (a.toNat - s.cfg.ramBase) w (lowBytes (d.width (some n)) v)))) := by
  unfold moveArm at h
  split at h
  · cases h
  · rename_i v hv
    cases d with
    | i w y => cases hv
    | r w k =>
      cases h
      exact ⟨v, hv, .inl ⟨w, k, rfl, rfl⟩⟩
    | mi w a =>
      obtain ⟨h1, h2, h3⟩ := memWrite_ok h
      exact ⟨v, hv, .inr ⟨w, a, rfl, rfl, h1, h2, h3⟩⟩
    | mr w k =>
      obtain ⟨h1, h2, h3⟩ := memWrite_ok h
      exact ⟨v, hv, .inr ⟨w, s.reg k, rfl, rfl, h1, h2, h3⟩⟩

/-- All that an execute arm can do when it answers. -/
theorem armOf_ok {i : Instr} {s u t : State} (h : armOf i s u = .ok t) :
    (t = u ∧ (i = .nac ∨ i = .wait)) ∨ (t = u.halt ∧ i = .stop) ∨
    (∃ o x k, i = Instr.ofSleep o x ∧ srcValue none x u = .ok k ∧
      t = u.startSleep (k.toNat * sleepUnit s.cfg o)) ∨
    (∃ o w k x v, i = Instr.ofMove o (.r w k) x ∧ srcValue (some o.nominal) x u = .ok v ∧
      t = u.setRegLow k w (lowBytes (effWidth (some o.nominal) w) v)) ∨
    (∃ o d x v a, i = Instr.ofMove o d x ∧ srcValue (some o.nominal) x u = .ok v ∧
      effAddr u d = some a ∧ route u.cfg a.toNat = some .ram ∧
      (a.toNat - u.cfg.ramBase) + d.desc.width ≤ u.cfg.ramSize ∧
      t = u.setRam (u.ram.writeLE (a.toNat - u.cfg.ramBase) d.desc.width
        (lowBytes (d.width (some o.nominal)) v))) := by
  have hs : ∀ o x, sleepArm (sleepUnit s.cfg o) x u = .ok t → i = Instr.ofSleep o x →
      ∃ o x k, i = Instr.ofSleep o x ∧ srcValue none x u = .ok k ∧
        t = u.startSleep (k.toNat * sleepUnit s.cfg o) := by
    intro o x h hi
    obtain ⟨k, hk, ht⟩ := sleepArm_ok h
    exact ⟨o, x, k, hi, hk, ht⟩
  have hm : ∀ o d x, moveArm (MoveOp.nominal o) d x u = .ok t → i = Instr.ofMove o d x →
      (∃ o w k x v, i = Instr.ofMove o (.r w k) x ∧ srcValue (some o.nominal) x u = .ok v ∧
        t = u.setRegLow k w (lowBytes (effWidth (some o.nominal) w) v)) ∨
      (∃ o d x v a, i = Instr.ofMove o d x ∧ srcValue (some o.nominal) x u = .ok v ∧
        effAddr u d = some a ∧ route u.cfg a.toNat = some .ram ∧
        (a.toNat - u.cfg.ramBase) + d.desc.width ≤ u.cfg.ramSize ∧
        t = u.setRam (u.ram.writeLE (a.toNat - u.cfg.ramBase) d.desc.width
          (lowBytes (d.width (some o.nominal)) v))) := by
    intro o d x h hi
    obtain ⟨v, hv, ⟨w, k, rfl, ht⟩ | ⟨w, a, h1, rfl, h2, h3, h4⟩⟩ := moveArm_ok h
    · exact .inl ⟨o, w, k, x, v, hi, hv, ht⟩
    · exact .inr ⟨o, d, x, v, a, hi, hv, h1, h2, h3, h4⟩
  cases i with
  | nac => cases h; exact .inl ⟨rfl, .inl rfl⟩
  | wait => cases h; exact .inl ⟨rfl, .inr rfl⟩
  | stop => cases h; exact .inr (.inl ⟨rfl, rfl⟩)
  | sleepms x => exact .inr (.inr (.inl (hs .sleepms x h rfl)))
  | sleepsec x => exact .inr (.inr (.inl (hs .sleepsec x h rfl)))
  | mval8 d x => exact .inr (.inr (.inr (hm .mval8 d x h rfl)))
  | mval16 d x => exact .inr (.inr (.inr (hm .mval16 d x h rfl)))
  | mval24 d x => exact .inr (.inr (.inr (hm .mval24 d x h rfl)))
  | mval32 d x => exact .inr (.inr (.inr (hm .mval32 d x h rfl)))
  | mval40 d x => exact .inr (.inr (.inr (hm .mval40 d x h rfl)))
  | mval48 d x => exact .inr (.inr (.inr (hm .mval48 d x h rfl)))
  | mval56 d x => exact .inr (.inr (.inr (hm .mval56 d x h rfl)))
  | mval64 d x => exact .inr (.inr (.inr (hm .mval64 d x h rfl)))

/-- What no execute arm that answers touches (40_cycle_fetch_decode.md R148): a fault is its error and not
a write, and only `stop` ends the run. -/
structure ArmFrame (i : Instr) (u t : State) : Prop where
  fault : t.fault = u.fault
  cycles : t.cycles = u.cycles
  running : i ≠ .stop → t.running = u.running
  rom : t.rom = u.rom
  sp : t.sp = u.sp
  cfg : t.cfg = u.cfg
  inert : t.flags &&& ~~~Flag.sleep.mask = u.flags &&& ~~~Flag.sleep.mask
  romErr : t.romErr = u.romErr
  ramErr : t.ramErr = u.ramErr
  ip : t.ip = u.ip
  curOp : t.curOp = u.curOp
  opnd1 : t.opnd1 = u.opnd1
  opnd2 : t.opnd2 = u.opnd2
  draws : t.draws = u.draws

theorem setSleep_inert (f : BitVec 8) :
    (f ||| Flag.sleep.mask) &&& ~~~Flag.sleep.mask = f &&& ~~~Flag.sleep.mask := by
  revert f; decide

theorem armOf_frame {i : Instr} {s u t : State} (h : armOf i s u = .ok t) : ArmFrame i u t := by
  rcases armOf_ok h with ⟨rfl, _⟩ | ⟨rfl, rfl⟩ | ⟨_, _, _, _, _, rfl⟩ | ⟨_, _, _, _, _, _, _, rfl⟩ |
    ⟨_, _, _, _, _, _, _, _, _, _, rfl⟩
  · constructor <;> intros <;> rfl
  · exact { fault := rfl, cycles := rfl, running := fun h => absurd rfl h, rom := rfl, sp := rfl,
            cfg := rfl, inert := rfl, romErr := rfl, ramErr := rfl, ip := rfl, curOp := rfl,
            opnd1 := rfl, opnd2 := rfl, draws := rfl }
  · exact { fault := rfl, cycles := rfl, running := fun _ => rfl, rom := rfl, sp := rfl, cfg := rfl,
            inert := setSleep_inert _, romErr := rfl, ramErr := rfl, ip := rfl, curOp := rfl,
            opnd1 := rfl, opnd2 := rfl, draws := rfl }
  · constructor <;> intros <;> rfl
  · constructor <;> intros <;> rfl

/-! ### The step -/

theorem step_stopped {s : State} (h : s.fault ≠ none ∨ s.running = false) : step s = .next s := by
  unfold step; rw [if_pos h]

theorem step_tick {s : State} (hf : s.fault = none) (hr : s.running = true)
    (hs : s.flag .sleep = true) (hc : s.countdown ≠ 0) : step s = .next (sleepTick s) := by
  unfold step
  rw [if_neg (by simp [hf, hr]), if_pos ⟨hs, hc⟩]

theorem step_normal {s : State} (hf : s.fault = none) (hr : s.running = true)
    (h : ¬ (s.flag .sleep = true ∧ s.countdown ≠ 0)) :
    step s = match fetchDecode s with
      | .error f => .next (raise s.ip f s)
      | .ok (i, _) => keepFlags s.flags (exec i (wake s)) := by
  unfold step
  exact (if_neg (by simp [hf, hr])).trans (if_neg h)

/-- The fault of a cycle: in the fetch and decode, or in the execute arm. -/
def CycleFault (s : State) (f : FaultCause) : Prop :=
  fetchDecode s = .error f ∨
  ∃ i n, fetchDecode s = .ok (i, n) ∧ armOf i (wake s) ((wake s).decoded i) = .error f

/-- The instruction a cycle completes, and the state after its execute arm. -/
def CycleRuns (s : State) (i : Instr) (n : Nat) (u : State) : Prop :=
  fetchDecode s = .ok (i, n) ∧ armOf i (wake s) ((wake s).decoded i) = .ok u

theorem step_fault {s : State} (hf : s.fault = none) (hr : s.running = true)
    (h : ¬ (s.flag .sleep = true ∧ s.countdown ≠ 0)) {f : FaultCause} (hc : CycleFault s f) :
    step s = .next (raise s.ip f s) := by
  rw [step_normal hf hr h]
  rcases hc with hd | ⟨i, n, hd, ha⟩
  · rw [hd]
  · rw [hd]
    simp only [exec_eq, normalCycle_of_error ha, keepFlags_next, wake_ip, raise_decoded_wake]

theorem step_runs {s : State} (hf : s.fault = none) (hr : s.running = true)
    (h : ¬ (s.flag .sleep = true ∧ s.countdown ≠ 0)) {i : Instr} {n : Nat} {u : State}
    (hc : CycleRuns s i n u) : step s = .next u.countCycle := by
  have hu : u.countCycle.fault = none := by simpa [hf] using (armOf_frame hc.2).fault
  rw [step_normal hf hr h, hc.1]
  simp only [exec_eq, normalCycle_of_ok hc.2, keepFlags_next, State.keepFlags_of_none _ hu]

/-- A normal cycle faults or runs one instruction. -/
theorem cycle_cases (s : State) : (∃ f, CycleFault s f) ∨ ∃ i n u, CycleRuns s i n u := by
  cases hd : fetchDecode s with
  | error f => exact .inl ⟨f, .inl hd⟩
  | ok r =>
    obtain ⟨i, n⟩ := r
    cases ha : armOf i (wake s) ((wake s).decoded i) with
    | ok u => exact .inr ⟨i, n, u, hd, ha⟩
    | error f => exact .inl ⟨f, .inr ⟨i, n, hd, ha⟩⟩

/-- The four things a step can do (40_cycle_fetch_decode.md R141): nothing, a sleep tick, a fault taken
from the state at the start of the cycle, or one instruction. -/
theorem step_next {s t : State} (h : step s = .next t) :
    ((s.fault ≠ none ∨ s.running = false) ∧ t = s) ∨
    (s.fault = none ∧ s.running = true ∧ s.flag .sleep = true ∧ s.countdown ≠ 0 ∧ t = sleepTick s) ∨
    (s.fault = none ∧ s.running = true ∧ ¬ (s.flag .sleep = true ∧ s.countdown ≠ 0) ∧
      ((∃ f, CycleFault s f ∧ t = raise s.ip f s) ∨
       (∃ i n u, CycleRuns s i n u ∧ t = u.countCycle))) := by
  by_cases h1 : s.fault ≠ none ∨ s.running = false
  · rw [step_stopped h1] at h
    cases h
    exact .inl ⟨h1, rfl⟩
  · have hf : s.fault = none := by
      by_contra hf
      exact h1 (.inl hf)
    have hr : s.running = true := by simpa using fun hr => h1 (.inr hr)
    by_cases h2 : s.flag .sleep = true ∧ s.countdown ≠ 0
    · rw [step_tick hf hr h2.1 h2.2] at h
      cases h
      exact .inr (.inl ⟨hf, hr, h2.1, h2.2, rfl⟩)
    · refine .inr (.inr ⟨hf, hr, h2, ?_⟩)
      rcases cycle_cases s with ⟨f, hc⟩ | ⟨i, n, u, hc⟩
      · rw [step_fault hf hr h2 hc] at h
        cases h
        exact .inl ⟨f, hc, rfl⟩
      · rw [step_runs hf hr h2 hc] at h
        cases h
        exact .inr ⟨i, n, u, hc, rfl⟩

/-- Decoding reads `ip`, the stores and the configuration only (40_cycle_fetch_decode.md R147). -/
theorem fetchDecode_congr {s t : State} (hc : t.cfg = s.cfg) (hi : t.ip = s.ip) (hr : t.rom = s.rom)
    (hm : t.ram = s.ram) : fetchDecode t = fetchDecode s := by
  have : fetchAt t = fetchAt s := by
    funext off n
    simp only [fetchAt, hi, memRead_congr hc hr hm]
  simp only [fetchDecode, this, hc]

theorem fetchAt_fit (s : State) : FitReader (fetchAt s) := fun _ _ _ h => memRead_fit h

/-- What is fetched and decoded is well formed and took its encoded length. -/
theorem fetchDecode_wf {s : State} (hc : s.cfg.wf = true) {i : Instr} {n : Nat}
    (h : fetchDecode s = .ok (i, n)) : i.wf = true ∧ n = i.length s.cfg :=
  decodeWith_wf hc (fetchAt_fit s) h

/-- A well-formed instruction is 1 to 20 bytes long (30_encoding.md R118). -/
theorem length_range {i : Instr} {c : Config} (h : i.wf = true) :
    1 ≤ i.length c ∧ i.length c ≤ maxLength := by
  have hp : 1 ≤ c.opcodeLength i.operation ∧ c.opcodeLength i.operation ≤ 2 := by
    unfold Config.opcodeLength; split <;> omega
  rcases instr_cases i with ⟨o, rfl⟩ | ⟨o, x, rfl⟩ | ⟨o, d, x, rfl⟩
  · simp [Instr.length, maxLength] at *; omega
  · rw [ofSleep_wf] at h
    have := dataBytes_range (nominalOk_operation (.sleep o)) h
    simp [Instr.length, Operation.nominal, maxLength] at *; omega
  · rw [ofMove_wf, Bool.and_eq_true] at h
    have h1 := dataBytes_range (nominalOk_operation (.move o)) h.1
    have h2 := dataBytes_range (nominalOk_operation (.move o)) h.2
    simp [Instr.length, Operation.nominal, maxLength] at *; omega

/-- A fetched item lies in the mapped range, and its address did not wrap (20_memory.md R69). -/
theorem fetchAt_inside {s : State} (hc : s.cfg.wf = true) {off n : Nat} {v : Word} (ho : off ≤ 20)
    (h : fetchAt s off n = .ok v) (hp : off = 0 ∨ s.ip.toNat + off ≤ s.cfg.top) :
    s.cfg.romBase ≤ s.ip.toNat + off ∧ s.ip.toNat + off + n ≤ s.cfg.top := by
  obtain ⟨r, hr, hn, _⟩ := memRead_ok h
  have hq := route_eq_some.1 hr
  have h1 := base_size_le_top s.cfg r
  have h2 := romBase_le_base s.cfg r
  have h3 := (wf_sizes hc).2.2.1
  have ha : (s.ip + BitVec.ofNat 64 off).toNat = s.ip.toNat + off := by
    have := s.ip.isLt
    rw [BitVec.toNat_add, BitVec.toNat_ofNat]
    rcases hp with rfl | hp <;> omega
  rw [ha] at hq hn
  omega

/-- The bytes of a fetched and decoded instruction lie in the mapped range (10_state.md R25). -/
theorem fetchDecode_inside {s : State} (hc : s.cfg.wf = true) {i : Instr} {n : Nat}
    (h : fetchDecode s = .ok (i, n)) : s.cfg.romBase ≤ s.ip.toNat ∧ s.ip.toNat + n ≤ s.cfg.top := by
  have hw := (fetchDecode_wf hc h).1
  obtain ⟨v, p, hv, h⟩ := decodeWith_ok h
  have h0 : s.cfg.romBase ≤ s.ip.toNat ∧ s.ip.toNat + p ≤ s.cfg.top ∧ 1 ≤ p ∧ p ≤ 2 := by
    rcases fetchOpcode_ok hv with ⟨b0, h0, hp, rfl, rfl⟩ | ⟨b0, b1, h0, hp, h1, rfl, rfl⟩
    · have := fetchAt_inside hc (by omega) h0 (.inl rfl)
      omega
    · have := fetchAt_inside hc (by omega) h0 (.inl rfl)
      have := fetchAt_inside hc (by omega) h1 (.inr (by omega))
      omega
  rcases h with ⟨o, ho, rfl, rfl⟩ | ⟨o, d, x, ho, h1, h2, rfl, rfl⟩ |
    ⟨o, d1, d2, x1, x2, ho, h1, h2, h3, h4, rfl, rfl⟩
  · omega
  · rw [ofSleep_wf] at hw
    have hb := dataBytes_range (nominalOk_operation (.sleep o)) hw
    obtain ⟨b, hb1, _⟩ := fetchDesc_ok h1
    have a1 := fetchAt_inside hc (by omega) hb1 (.inr (by omega))
    have a2 := fetchAt_inside hc (by omega) (fetchOperand_ok h2).1 (.inr (by omega))
    omega
  · rw [ofMove_wf, Bool.and_eq_true] at hw
    have hb1 : 1 ≤ x1.dataBytes (some o.nominal) ∧ x1.dataBytes (some o.nominal) ≤ 8 :=
      dataBytes_range (nominalOk_operation (.move o)) hw.1
    have hb2 : 1 ≤ x2.dataBytes (some o.nominal) ∧ x2.dataBytes (some o.nominal) ≤ 8 :=
      dataBytes_range (nominalOk_operation (.move o)) hw.2
    obtain ⟨b, hd1, _⟩ := fetchDesc_ok h1
    obtain ⟨b, hd2, _⟩ := fetchDesc_ok h2
    have a1 := fetchAt_inside hc (by omega) hd1 (.inr (by omega))
    have a2 := fetchAt_inside hc (by omega) hd2 (.inr (by omega))
    have a3 := fetchAt_inside hc (by omega) (fetchOperand_ok h3).1 (.inr (by omega))
    have a4 := fetchAt_inside hc (by omega) (fetchOperand_ok h4).1 (.inr (by omega))
    omega

/-- Moving `ip` past a fetched instruction adds its length and does not wrap
(40_cycle_fetch_decode.md R152). -/
theorem fetchDecode_advance {s : State} (hc : s.cfg.wf = true) {i : Instr} {n : Nat}
    (h : fetchDecode s = .ok (i, n)) :
    (s.ip + BitVec.ofNat 64 (i.length s.cfg)).toNat = s.ip.toNat + n := by
  obtain ⟨hw, rfl⟩ := fetchDecode_wf hc h
  have hl := length_range (c := s.cfg) hw
  have hi := fetchDecode_inside hc h
  have h3 := (wf_sizes hc).2.2.1
  unfold maxLength at hl
  rw [BitVec.toNat_add, BitVec.toNat_ofNat]
  omega

end Sys2Proof.Machine
end

