-- ==== Sys2Proof/Laws/PerInstr.lean ====
section
/-! SUPPORT. The length of an encoding, instruction by instruction (30_encoding.md R118): the encoder's
bytes are as many as the total length says, at least 1 and at most 20. -/

namespace Sys2Proof.Laws.EncodedLength

open Sys2Proof.Machine

/-- Under every configuration the encoding of a well-formed instruction has its total length, 1 to 20
bytes. -/
def Statement (i : Instr) : Prop :=
  ∀ c : Config, i.wf = true →
    (encode c i).length = i.length c ∧ 1 ≤ i.length c ∧ i.length c ≤ maxLength

theorem of_encode (i : Instr) : Statement i := fun c h => ⟨encode_length c i, length_range h⟩

theorem nac : Statement .nac := of_encode _
theorem wait : Statement .wait := of_encode _
theorem stop : Statement .stop := of_encode _
theorem sleepms (duration : Operand) : Statement (.sleepms duration) := of_encode _
theorem sleepsec (duration : Operand) : Statement (.sleepsec duration) := of_encode _
theorem mval8 (dst src : Operand) : Statement (.mval8 dst src) := of_encode _
theorem mval16 (dst src : Operand) : Statement (.mval16 dst src) := of_encode _
theorem mval24 (dst src : Operand) : Statement (.mval24 dst src) := of_encode _
theorem mval32 (dst src : Operand) : Statement (.mval32 dst src) := of_encode _
theorem mval40 (dst src : Operand) : Statement (.mval40 dst src) := of_encode _
theorem mval48 (dst src : Operand) : Statement (.mval48 dst src) := of_encode _
theorem mval56 (dst src : Operand) : Statement (.mval56 dst src) := of_encode _
theorem mval64 (dst src : Operand) : Statement (.mval64 dst src) := of_encode _

end Sys2Proof.Laws.EncodedLength
end

