-- ==== Sys2Proof/Tests/Slice0.lean ====
section
/-! SUPPORT. The model's own tests: ill-formed terms, one word per instruction written out from the
spec's encodings, single steps whose expected results are those of 95_test_vectors.md (the vector's id
stands in each docstring), and for each statement that has hypotheses a state and operands that meet
them. -/

namespace Sys2Proof.Tests

open Sys2Proof.Machine Sys2Proof.Claims

/-! ### Small states -/

/-- The machine after reset with these bytes from `ROM_BASE` on. -/
def start (image : List Byte) : State := { State.reset with rom := Memory.ofBytes 0 image }

/-- RAM with these bytes from an offset on. -/
def withRam (s : State) (offset : Nat) (bytes : List Byte) : State :=
  s.setRam (Memory.ofBytes offset bytes)

/-- The machine in test mode. -/
def inTestMode (s : State) : State := { s with cfg := { s.cfg with testMode := true } }

/-- The next state, if there is one. -/
def nextOf (o : Host.Outcome State Fault Refusal) : Option State :=
  match o with
  | .next t => some t
  | .fault _ => none
  | .refused _ => none

/-- One cycle answers a next state with this property. -/
def after1 (s : State) (p : State → Bool) : Bool := (nextOf (step s)).any p

/-- The fault record of a memory fault at 0x100. -/
def memFault (kind : FaultKind) (a : Word) (n : Nat) (x : Access) : Option FaultRecord :=
  some (memoryFault kind a n x 0x100)

/-- The fault record of a decode fault at 0x100. -/
def decFault (kind : FaultKind) (info : BitVec 16) : Option FaultRecord :=
  some (decodeRecord kind info 0x100)

theorem next_of {o : Host.Outcome State Fault Refusal} {p : State → Bool}
    (h : (nextOf o).any p = true) : ∃ t, o = .next t ∧ p t = true := by
  cases o with
  | next t => exact ⟨t, rfl, h⟩
  | fault f => cases h
  | refused r => cases h

/-! ### WellFormed refuses -/

theorem test_wf_register_width : (Operand.r 0 5).wf none = false ∧ (Operand.r 9 5).wf none = false := by
  decide
theorem test_wf_pointer_width : (Operand.mr 0 5).wf none = false ∧ (Operand.mr 9 5).wf none = false := by
  decide
theorem test_wf_address_width :
    (Operand.mi 0 5).wf (some 2) = false ∧ (Operand.mi 9 5).wf none = false := by decide
theorem test_wf_address_fits :
    (Operand.mi 1 0x100).wf none = false ∧ (Operand.mi 1 0xFF).wf none = true := by decide
theorem test_wf_nominal_under_sleep : (Instr.sleepms (.i 0 3)).wf = false := by decide
theorem test_wf_nominal_fits :
    (Instr.mval16 (.r 2 3) (.i 0 0x10000)).wf = false ∧
    (Instr.mval16 (.r 2 3) (.i 0 0xFFFF)).wf = true := by decide
theorem test_wf_literal_fits :
    (Operand.i 1 256).wf none = false ∧ (Operand.i 9 0).wf none = false ∧
    (Operand.i 8 0xFFFFFFFFFFFFFFFF).wf none = true := by decide
theorem test_wf_source : (Instr.mval8 (.r 1 2) (.r 0 5)).wf = false := by decide

/-- 00_scope.md R8: the constraints on a configuration, one broken each. -/
theorem test_config_wf :
    Config.ref.wf = true ∧ { Config.ref with xlen := 32 }.wf = false ∧
    { Config.ref with nregs := 32 }.wf = false ∧ { Config.ref with alen := 32 }.wf = false ∧ { Config.ref with romSize := 0 }.wf = false ∧
    { Config.ref with ramSize := 0 }.wf = false ∧
    { Config.ref with ramSize := 2 ^ 64 }.wf = false ∧
    { Config.ref with cyclesPerMs := 0 }.wf = false ∧
    { Config.ref with cyclesPerSec := 0 }.wf = false ∧
    { Config.ref with opcodes := refOpcodes.tail }.wf = false ∧
    { Config.ref with descriptors := refDescriptors.tail }.wf = false := by decide

/-- 00_scope.md R9, 10_state.md R26: `SP_RESET` of the reference configuration; and a machine with
another one. -/
theorem test_sp_reset :
    State.reset.sp = 0x3FF ∧ Config.ref.spReset = Config.ref.ramLast ∧
    (State.resetWith { Config.ref with spReset := 0x400 } [] ResetInputs.zero).sp = 0x400 := by decide

/-! ### One word for each instruction, from 30_encoding.md R103 to R118 (95_test_vectors.md 2.3) -/

theorem test_word_nac :
    decode Config.ref [0x00] =
      .ok (.nac, []) := by decide
theorem test_word_wait :
    decode Config.ref [0x10] =
      .ok (.wait, []) := by decide
theorem test_word_stop :
    decode Config.ref [0x11] =
      .ok (.stop, []) := by decide
theorem test_word_sleepms :
    decode Config.ref [0x12, 0x11, 0x03] =
      .ok (.sleepms (.i 1 3), []) := by decide
theorem test_word_sleepsec :
    decode Config.ref [0x13, 0x02, 0x04] =
      .ok (.sleepsec (.r 2 4), []) := by decide
theorem test_word_mval8 :
    decode Config.ref [0x01, 0x01, 0x01, 0x01, 0x02, 0x05] =
      .ok (.mval8 (.r 1 2) (.r 1 5), []) := by decide
theorem test_word_mval16 :
    decode Config.ref [0x01, 0x02, 0x22, 0x12, 0x00, 0x02, 0xEF, 0xBE] =
      .ok (.mval16 (.mi 2 0x200) (.i 2 0xBEEF), []) := by decide
theorem test_word_mval24 :
    decode Config.ref [0x01, 0x03, 0x03, 0x10, 0x03, 0x56, 0x34, 0x12] =
      .ok (.mval24 (.r 3 3) (.i 0 0x123456), []) := by decide
theorem test_word_mval32 :
    decode Config.ref [0x01, 0x04, 0x04, 0x22, 0x01, 0x00, 0x02] =
      .ok (.mval32 (.r 4 1) (.mi 2 0x200), []) := by decide
theorem test_word_mval40 :
    decode Config.ref [0x01, 0x05, 0x35, 0x05, 0x04, 0x07] =
      .ok (.mval40 (.mr 5 4) (.r 5 7), []) := by decide
theorem test_word_mval48 :
    decode Config.ref [0x01, 0x06, 0x06, 0x36, 0x09, 0x0A] =
      .ok (.mval48 (.r 6 9) (.mr 6 10), []) := by decide
theorem test_word_mval56 :
    decode Config.ref [0x01, 0x07, 0x27, 0x07, 0x10, 0x02, 0x00, 0x00, 0x00, 0x00, 0x00, 0x06] =
      .ok (.mval56 (.mi 7 0x210) (.r 7 6), []) := by decide
theorem test_word_mval64 :
    decode Config.ref [0x01, 0x08, 0x08, 0x18, 0x00, 0x88, 0x77, 0x66, 0x55, 0x44, 0x33, 0x22, 0x11] =
      .ok (.mval64 (.r 8 0) (.i 8 0x1122334455667788), []) := by decide
/-- The longest form, and bytes left over. -/
theorem test_word_longest :
    decode Config.ref ([0x01, 0x08, 0x28, 0x28, 0x00, 0x02, 0x00, 0x00, 0x00, 0x00, 0x00, 0x00] ++
      [0x08, 0x02, 0x00, 0x00, 0x00, 0x00, 0x00, 0x00] ++ [0x11]) =
      .ok (.mval64 (.mi 8 0x200) (.mi 8 0x208), [0x11]) := by decide
/-- 30_encoding.md R120, R122, R123: refused by name; and bytes that end too soon. -/
theorem test_refused_words :
    decode Config.ref [0x02, 0x11] = .error (.bad (.illegalOpcode 0x0211)) ∧
    decode Config.ref [0x14] = .error (.bad (.illegalOpcode 0x0014)) ∧
    decode Config.ref [0x12, 0x10, 0x03] = .error (.bad (.illegalDescriptor 0x10)) ∧
    decode Config.ref [0x01, 0x01, 0x01, 0x09] = .error (.bad (.illegalDescriptor 0x09)) ∧
    decode Config.ref [0x01, 0x01, 0x01, 0x01, 0x40, 0x05] = .error (.bad (.badRegisterIndex 0x40)) ∧
    decode Config.ref [0x01] = .error .truncated := by decide
/-- The host's numbering: byte 0 is bits 7 to 0. `sleepms` of register 4, and the bare opcode, whose
descriptor 0x00 is illegal. -/
theorem test_table_word :
    decodeTableWord 24 0x040112 = some (.sleepms (.r 1 4)) ∧ decodeTableWord 8 0x11 = some .stop ∧
    decodeTableWord 8 0x12 = none := by decide
/-- The encoder on the same words. -/
theorem test_encode :
    encode Config.ref (.mval24 (.r 3 3) (.i 0 0x123456)) =
      [0x01, 0x03, 0x03, 0x10, 0x03, 0x56, 0x34, 0x12] ∧
    encode Config.ref (.sleepsec (.r 2 4)) = [0x13, 0x02, 0x04] ∧ encode Config.ref .nac = [0x00] := by
  decide
/-- Tokens (95_test_vectors.md 2.3): a shared descriptor, a missing one, a literal in base 2. -/
theorem test_assembler :
    assembleLine Config.ref ["mval8", "r8<", "2", "5"] = .ok [0x01, 0x01, 0x01, 0x01, 0x02, 0x05] ∧
    assembleLine Config.ref ["sleepms", "0b101"] = .error .syntaxError ∧
    assembleLine Config.ref ["mval8", "r8<i8<", "2", "0b11000011"] =
      .ok [0x01, 0x01, 0x01, 0x11, 0x02, 0xC3] := by decide
/-- 30_encoding.md R128: a malformed second part, a third part, a malformed first part; and R104: a
sleep takes one whole descriptor. -/
theorem test_compound_tokens :
    assembleLine Config.ref ["mval8", "r8<zz", "2", "5"] = .ok [0x01, 0x01, 0x01, 0x01, 0x02, 0x05] ∧
    assembleLine Config.ref ["mval8", "r8<i8<x", "2", "5"] = .ok [0x01, 0x01, 0x01, 0x11, 0x02, 0x05] ∧
    assembleLine Config.ref ["mval8", "zz<r8<", "2", "5"] = .error .syntaxError ∧
    assembleLine Config.ref ["sleepms", "r8<", "4"] = .ok [0x12, 0x01, 0x04] ∧
    assembleLine Config.ref ["sleepms", "r8<i8<", "4"] = .error .syntaxError := by decide

/-! ### Single steps from 95_test_vectors.md -/

/-- Z1. -/
theorem test_nac :
    after1 (start [0x00])
      (fun t => (t.ip, t.cycles, t.curOp, t.running) =
        (0x101, 1, 0x0000, true)) = true := by decide
/-- F12, with `ip` at TOP. -/
theorem test_nac_fetch_past_top :
    after1 ({ start [] with ip := 0x400 })
      (fun t => t.fault =
        some (memoryFault .busOutOfBounds 0x400 1 .fetch 0x400)) = true := by decide
/-- Z2. -/
theorem test_wait :
    after1 (start [0x10])
      (fun t => (t.ip, t.cycles, t.curOp, t.flags) =
        (0x101, 1, 0x0010, 0)) = true := by decide
/-- S2, cycle 2: the flag of a sleep of 0 is cleared. -/
theorem test_wait_after_zero_sleep :
    after1 ({ start [0x12, 0x11, 0x00, 0x10] with ip := 0x103, flags := 0x20 })
      (fun t => (t.ip, t.flags, t.running) =
        (0x104, 0, true)) = true := by decide
/-- Z3. -/
theorem test_stop :
    after1 (start [0x11, 0x10])
      (fun t => (t.ip, t.cycles, t.running, t.fault) =
        (0x101, 1, false, none)) = true := by decide
/-- Z3, every later cycle. -/
theorem test_stop_stays :
    after1 ({ start [0x11, 0x10] with ip := 0x101, running := false })
      (fun t => (t.ip, t.cycles, t.running) =
        (0x101, 0, false)) = true := by decide
/-- S4. -/
theorem test_sleepms :
    after1 (withRam (start [0x12, 0x22, 0x00, 0x02]) 0 [0x05, 0x01])
      (fun t => (t.countdown, t.flags, t.ip, t.cycles) =
        (261, 0x20, 0x104, 1)) = true := by decide
/-- S6. -/
theorem test_sleepms_no_width :
    after1 (start [0x12, 0x10, 0x03])
      (fun t => (t.fault, t.countdown, t.flags, t.cycles) =
        (decFault .illegalDescriptor 0x10, 0, 0, 0)) = true := by decide
/-- S3. -/
theorem test_sleepsec :
    after1 ((start [0x13, 0x02, 0x04]).setReg 4 0x0000000000010002)
      (fun t => (t.countdown, t.flags, t.ip) =
        (2, 0x20, 0x103)) = true := by decide
/-- S7. -/
theorem test_sleepsec_unit :
    after1 ({ start [0x13, 0x12, 0x02, 0x00] with cfg := { Config.ref with cyclesPerSec := 1000 } })
      (fun t => (t.countdown, t.ip) =
        (2000, 0x104)) = true := by decide
/-- M1. -/
theorem test_mval8 :
    after1 (((start [0x01, 0x01, 0x01, 0x01, 0x02, 0x05]).setReg 2 0x1111111111111111).setReg 5
      0xA5A5A5A5A5A5A5C3)
      (fun t => (t.reg 2, t.reg 5, t.ip, t.cycles) =
        (0x11111111111111C3, 0xA5A5A5A5A5A5A5C3, 0x106, 1)) = true := by decide
/-- MF1. -/
theorem test_mval8_rom :
    after1 (start [0x01, 0x01, 0x22, 0x11, 0x00, 0x01, 0xAA])
      (fun t => (t.fault, t.running, t.cycles) =
        (memFault .busWriteToROM 0x100 2 .write, false, 0)) = true := by decide
/-- M11. -/
theorem test_mval16 :
    after1 (start [0x01, 0x02, 0x22, 0x12, 0x00, 0x02, 0xEF, 0xBE])
      (fun t => (t.byteAt 0x200, t.byteAt 0x201, t.byteAt 0x202, t.ip) =
        (some 0xEF, some 0xBE, some 0x00, 0x108)) = true := by decide
/-- MF4. -/
theorem test_mval16_overrun :
    after1 (start [0x01, 0x02, 0x22, 0x12, 0xFF, 0x03, 0xAA, 0xAA])
      (fun t => (t.fault, t.byteAt 0x3FF) =
        (memFault .regionOverrunRAM 0x3FF 2 .write, some 0x00)) = true := by decide
/-- M9. -/
theorem test_mval24 :
    after1 ((start [0x01, 0x03, 0x03, 0x10, 0x03, 0x56, 0x34, 0x12]).setReg 3 0xFFFFFFFFFFFFFFFF)
      (fun t => (t.reg 3, t.ip) =
        (0xFFFFFFFFFF123456, 0x108)) = true := by decide
/-- M12: two bytes read, four written. -/
theorem test_mval32 :
    after1 (withRam ((start [0x01, 0x04, 0x04, 0x22, 0x01, 0x00, 0x02]).setReg 1 0x1122334455667788) 0
      [0xEF, 0xBE, 0xAD, 0xDE])
      (fun t => (t.reg 1, t.ip) =
        (0x112233440000BEEF, 0x107)) = true := by decide
/-- M17: the source is read whole first. -/
theorem test_mval32_overlap :
    after1 (withRam (start [0x01, 0x04, 0x22, 0x22, 0x01, 0x02, 0x00, 0x02]) 0 [0xAA, 0xBB, 0xCC, 0xDD])
      (fun t => (t.byteAt 0x200, t.byteAt 0x201, t.byteAt 0x202, t.byteAt 0x203) =
        (some 0xAA, some 0xAA, some 0xBB, some 0xDD)) = true := by decide
/-- M13. -/
theorem test_mval40 :
    after1 (((start [0x01, 0x05, 0x35, 0x05, 0x04, 0x07]).setReg 4 0x220).setReg 7 0xAABBCCDDEEFF0011)
      (fun t => (t.byteAt 0x220, t.byteAt 0x221, t.byteAt 0x224, t.byteAt 0x225, t.reg 4) =
        (some 0x11, some 0x00, some 0xDD, some 0x00, 0x220)) = true := by decide
/-- M14. -/
theorem test_mval48 :
    after1 (withRam (((start [0x01, 0x06, 0x06, 0x36, 0x09, 0x0A]).setReg 9
      0xFFFFFFFFFFFFFFFF).setReg 10 0x220) 0x20 [0x11, 0x00, 0xFF, 0xEE, 0xDD, 0x00, 0x77, 0x88])
      (fun t => t.reg 9 =
        0xFFFF00DDEEFF0011) = true := by decide
/-- M15. -/
theorem test_mval56 :
    after1 ((start [0x01, 0x07, 0x27, 0x07, 0x10, 0x02, 0x00, 0x00, 0x00, 0x00, 0x00, 0x06]).setReg 6
      0x0807060504030201)
      (fun t => (t.byteAt 0x210, t.byteAt 0x216, t.byteAt 0x217, t.ip) =
        (some 0x01, some 0x07, some 0x00, 0x10C)) = true := by decide
/-- M19: the last eight bytes of RAM. -/
theorem test_mval64 :
    after1 (withRam ((start [0x01, 0x08, 0x08, 0x38, 0x04, 0x04]).setReg 4 0x3F8) 0x1F8
      [0x01, 0x02, 0x03, 0x04, 0x05, 0x06, 0x07, 0x08])
      (fun t => t.reg 4 =
        0x0807060504030201) = true := by decide
/-- M20: the destination's own address is stored. -/
theorem test_mval64_pointer :
    after1 ((start [0x01, 0x08, 0x38, 0x08, 0x04, 0x04]).setReg 4 0x3F8)
      (fun t => (t.byteAt 0x3F8, t.byteAt 0x3F9, t.byteAt 0x3FF, t.reg 4) =
        (some 0xF8, some 0x03, some 0x00, 0x3F8)) = true := by decide
/-- F14: an instruction that starts in ROM and ends in RAM. -/
theorem test_two_regions :
    after1 (withRam { start [] with ip := 0x1FE, rom := Memory.ofBytes 0xFE [0x01, 0x01] } 0
      [0x01, 0x11, 0x02, 0x77])
      (fun t => (t.reg 2, t.ip, t.cycles) =
        (0x77, 0x204, 1)) = true := by decide
/-- T1: the sticky bit. -/
theorem test_test_mode :
    after1 (inTestMode (start [0x01, 0x02, 0x22, 0x12, 0xFF, 0x03, 0xAA, 0xAA]))
      (fun t => (t.fault, t.ramErr, t.romErr) =
        (memFault .regionOverrunRAM 0x3FF 2 .write, true, false)) = true := by decide
/-- R149 with R141: a fault in the fetch of the cycle after a sleep of 0 leaves the sleep flag. -/
theorem test_fault_keeps_waking :
    after1 ({ start [0x14] with flags := 0x20 })
      (fun t => (t.fault, t.flags) =
        (decFault .illegalOpcode 0x14, 0x20)) = true := by decide
/-- R149 with R141: a fault in execute leaves it, too (the bytes of MF1). -/
theorem test_fault_in_execute_keeps_waking :
    after1 ({ start [0x01, 0x01, 0x22, 0x11, 0x00, 0x01, 0xAA] with flags := 0x20 })
      (fun t => (t.fault, t.flags) =
        (memFault .busWriteToROM 0x100 2 .write, 0x20)) = true := by decide
/-- The first instruction after reset is the one placed (`sleepms` of register 4). -/
theorem test_with_fetch_word :
    after1 (State.reset.withFetchWord 24 0x040112)
      (fun t => (t.curOp, t.opnd1, t.flags) = (0x0012, ⟨.r, 1, 4⟩, 0x20)) = true := by decide

/-! ### The hypotheses of the statements are met -/

theorem ref_wf : Config.ref.wf = true := by decide

theorem ready_start (image : List Byte) : Ready (start image) :=
  ⟨rfl, rfl, fun h => absurd h.2 (by simp [start, State.reset, State.resetWith])⟩

theorem ready_of {s : State} (h : s.fault = none ∧ s.running = true ∧ s.countdown = 0) : Ready s :=
  ⟨h.1, h.2.1, fun hc => hc.2 h.2.2⟩

/-- Bytes at an address, as one evaluation. -/
def bytesCheck (s : State) (a : Nat) (bytes : List Byte) : Bool :=
  (List.range bytes.length).all (fun k => s.byteAt (a + k) == bytes[k]?)

theorem bytesAt_of {s : State} {a : Nat} {bytes : List Byte} (h : bytesCheck s a bytes = true) :
    BytesAt s a bytes := by
  intro k hk
  rw [bytesCheck, List.all_eq_true] at h
  have := h k (List.mem_range.2 hk)
  rw [beq_iff_eq, List.getElem?_eq_getElem hk] at this
  exact this

/-- A value held at an address, as one evaluation. -/
def holdsCheck (s : State) (a n : Nat) (v : Word) : Bool :=
  (s.cfg.romBase ≤ a && a + n ≤ s.cfg.romBase + s.cfg.romSize ||
    s.cfg.ramBase ≤ a && a + n ≤ s.cfg.ramBase + s.cfg.ramSize) && v.toNat < 2 ^ (8 * n) &&
  (List.range n).all (fun j => s.byteAt (a + j) == some (byte v j))

theorem holds_of {s : State} {a n : Nat} {v : Word} (h : holdsCheck s a n v = true) :
    HoldsValue s a n v := by
  simp only [holdsCheck, Bool.and_eq_true, Bool.or_eq_true, decide_eq_true_eq, List.all_eq_true,
    List.mem_range, beq_iff_eq] at h
  exact ⟨h.1.1, h.1.2, h.2⟩

theorem witness_DecodeInvertsEncode :
    Config.ref.wf = true ∧ (Instr.mval64 (.mi 8 0x200) (.mi 8 0xFFFFFFFFFFFFFFFF)).wf = true := by
  decide
theorem witness_EncodeInvertsDecode :
    Config.ref.wf = true ∧
    decode Config.ref [0x12, 0x11, 0x03, 0x10] = .ok (.sleepms (.i 1 3), [0x10]) := by decide
theorem witness_AssembledLineDecodes :
    Config.ref.wf = true ∧
    assembleLine Config.ref ["mval8", "r8<r8<", "63", "0"] =
      .ok [0x01, 0x01, 0x01, 0x01, 0x3F, 0x00] := by decide
theorem witness_ReadIsLittleEndian :
    InOneRegion State.reset.cfg (0x3F8#64).toNat 8 ∧ InOneRegion State.reset.cfg (0x1FF#64).toNat 1 :=
  ⟨.inr (by decide), .inl (by decide)⟩
theorem witness_ReadNeverSpansRegions :
    (State.reset.cfg.romBase ≤ (0x1FF#64).toNat ∧ (0x1FF#64).toNat < State.reset.cfg.ramBase ∧
      State.reset.cfg.ramBase < (0x1FF#64).toNat + 2) ∧
    ((0x200#64).toNat = State.reset.cfg.ramBase ∧ 8 ≤ State.reset.cfg.ramSize) := by decide
theorem witness_StoreIsSeenByLaterReads :
    ∃ t w, State.reset.ram.wf State.reset.cfg.ramSize = true ∧
      memWrite State.reset 0x3FF 1 0x5A = .ok t ∧ memRead t 0x3F8 8 .read = .ok w :=
  ⟨_, _, rfl, rfl, rfl⟩
theorem witness_NacOnlyTakesItsCycle : State.reset.cfg.opcodes = refOpcodes := rfl
theorem witness_WaitOnlyTakesItsCycle : State.reset.cfg.opcodes = refOpcodes := rfl
theorem witness_StopHaltsForGood : State.reset.cfg.opcodes = refOpcodes := rfl
theorem witness_SleepsLoadTheCountdown :
    ((Operand.i 8 0xFFFFFFFFFFFFFFFF).wf none = true ∧
      SourceIs State.reset (.i 8 0xFFFFFFFFFFFFFFFF) 0xFFFFFFFFFFFFFFFF) ∧
    ((Operand.r 1 63).wf none = true ∧ SourceIs (State.reset.setReg 63 0x1FF) (.r 1 63) 0xFF) ∧
    ((Operand.mi 2 0x3FF).wf none = true ∧
      SourceIs (withRam State.reset 0x1FF [0x07]) (.mi 1 0x3FF) 7) ∧
    ((Operand.mr 8 0).wf none = true ∧ SourceIs (State.reset.setReg 0 0x100) (.mr 8 0) 0) := by
  refine ⟨⟨by decide, rfl⟩, ⟨by decide, ?_⟩, ⟨by decide, ?_⟩, ⟨by decide, ?_⟩⟩
  · unfold SourceIs; decide
  · exact holds_of (by decide)
  · exact holds_of (by decide)
theorem witness_SleepTickOnlyCounts :
    (({ State.reset with flags := 0x20, countdown := 1 } : State).flags.getLsbD 5 = true) ∧
    (({ State.reset with flags := 0x20, countdown := 2 } : State).flags.getLsbD 5 = true) := by decide
theorem witness_SleepLastsItsCountdown :
    let s : State := { State.reset with flags := 0x20, countdown := 1 }
    s.fault = none ∧ s.running = true ∧ s.flags.getLsbD 5 = true ∧ 1 ≤ s.countdown := by decide
theorem witness_MoveIntoRegister :
    (.mval16 (.r 8 63) (.i 0 0xBEEF) ∈ moves (.r 8 63) (.i 0 0xBEEF) ∧
      (Instr.mval16 (.r 8 63) (.i 0 0xBEEF)).wf = true ∧
      SourceIs State.reset (.i 0 0xBEEF) 0xBEEF) ∧
    (.mval64 (.r 8 4) (.mr 8 4) ∈ moves (.r 8 4) (.mr 8 4) ∧
      (Instr.mval64 (.r 8 4) (.mr 8 4)).wf = true ∧
      SourceIs (State.reset.setReg 4 0x3F8) (.mr 8 4) 0) := by
  refine ⟨⟨by decide, by decide, rfl⟩, ⟨by decide, by decide, ?_⟩⟩
  exact holds_of (by decide)
theorem witness_MoveIntoMemory :
    (.mval8 (.mi 2 0x200) (.i 1 0xAA) ∈ moves (.mi 2 0x200) (.i 1 0xAA) ∧
      (Instr.mval8 (.mi 2 0x200) (.i 1 0xAA)).wf = true ∧ SourceIs State.reset (.i 1 0xAA) 0xAA ∧
      MemoryPlace State.reset (.mi 2 0x200) 0x200 2) ∧
    (.mval8 (.mr 1 4) (.r 1 5) ∈ moves (.mr 1 4) (.r 1 5) ∧
      (Instr.mval8 (.mr 1 4) (.r 1 5)).wf = true ∧
      SourceIs (State.reset.setReg 4 0x3FF) (.r 1 5) 0 ∧
      MemoryPlace (State.reset.setReg 4 0x3FF) (.mr 1 4) 0x3FF 1 ∧
      State.reset.cfg.ramBase ≤ (0x3FF#64).toNat ∧ (0x3FF#64).toNat + 1 ≤ State.reset.cfg.top) := by
  refine ⟨⟨by decide, by decide, rfl, .inl rfl⟩, ⟨by decide, by decide, ?_, ?_, by decide, by decide⟩⟩
  · unfold SourceIs; decide
  · exact .inr ⟨4, rfl, by decide⟩
theorem witness_MnemonicOnlyWidensImmediates :
    .mval8 (.r 8 2) (.r 8 5) ∈ moves (.r 8 2) (.r 8 5) ∧
    .mval64 (.r 8 2) (.r 8 5) ∈ moves (.r 8 2) (.r 8 5) ∧
    (∃ t, exec (.mval8 (.r 8 2) (.r 8 5)) State.reset = .next t) ∧
    (∃ u, exec (.mval64 (.r 8 2) (.r 8 5)) State.reset = .next u) :=
  ⟨by decide, by decide, exec_answers _ _, exec_answers _ _⟩
theorem witness_ImmediateDestinationFaults :
    .mval8 (.i 1 1) (.mi 1 0x10) ∈ moves (.i 1 1) (.mi 1 0x10) ∧ State.reset.fault = none := by decide
/-- No region, the last byte of ROM, the last byte of RAM; a sleep and a move. -/
theorem witness_UnreadableSourceFaults :
    (MemoryPlace State.reset (.mi 1 0xFF) 0xFF 1 ∧
      .sleepms (.mi 1 0xFF) ∈ sleeps (.mi 1 0xFF) ∧ route State.reset.cfg (0xFF#64).toNat = none) ∧
    (MemoryPlace State.reset (.mi 2 0x1FF) 0x1FF 2 ∧
      .mval16 (.r 2 1) (.mi 2 0x1FF) ∈ moves (.r 2 1) (.mi 2 0x1FF) ∧
      route State.reset.cfg (0x1FF#64).toNat = some .rom ∧
      Region.rom.base State.reset.cfg + Region.rom.size State.reset.cfg < (0x1FF#64).toNat + 2) ∧
    (route State.reset.cfg (0x3FF#64).toNat = some .ram ∧
      Region.ram.base State.reset.cfg + Region.ram.size State.reset.cfg < (0x3FF#64).toNat + 2) :=
  ⟨⟨.inl rfl, by decide, by decide⟩, ⟨.inl rfl, by decide, by decide, by decide⟩, by decide⟩
/-- No region, ROM, the last byte of RAM. -/
theorem witness_UnwritableDestinationFaults :
    (.mval8 (.mi 2 0x400) (.i 1 0xAA) ∈ moves (.mi 2 0x400) (.i 1 0xAA) ∧
      (Instr.mval8 (.mi 2 0x400) (.i 1 0xAA)).wf = true ∧
      SourceIs State.reset (.i 1 0xAA) 0xAA ∧ MemoryPlace State.reset (.mi 2 0x400) 0x400 2) ∧
    route State.reset.cfg (0x400#64).toNat = none ∧
    route State.reset.cfg (0x1FF#64).toNat = some .rom ∧
    route State.reset.cfg (0x3FF#64).toNat = some .ram ∧
    State.reset.cfg.top < (0x3FF#64).toNat + 2 :=
  ⟨⟨by decide, by decide, rfl, .inl rfl⟩, by decide, by decide, by decide, by decide⟩
theorem fetch_stop : fetchDecode (start [0x11]) = .ok (.stop, 1) := by decide
theorem witness_StepRunsTheDecodedInstruction :
    Ready (start [0x11]) ∧ fetchDecode (start [0x11]) = .ok (.stop, 1) :=
  ⟨ready_start _, fetch_stop⟩
/-- F14's bytes: an instruction whose fields lie in ROM and in RAM. -/
theorem witness_StepRunsTheInstructionInMemory :
    let s := withRam { start [] with ip := 0x1FE, rom := Memory.ofBytes 0xFE [0x01, 0x01] } 0
      [0x01, 0x11, 0x02, 0x77]
    let i := Instr.mval8 (.r 1 2) (.i 1 0x77)
    s.cfg.wf = true ∧ Ready s ∧ i.wf = true ∧ BytesAt s s.ip.toNat (encode s.cfg i) ∧
    ∀ f ∈ dataFields s.cfg i, InOneRegion s.cfg (s.ip.toNat + f.1) f.2 := by
  refine ⟨by decide, ready_of (by decide), by decide, bytesAt_of (by decide), ?_⟩
  unfold InOneRegion
  decide
theorem witness_FetchOutsideMemoryFaults :
    (Ready { start [] with ip := 0x400 } ∧ route Config.ref (0x400#64).toNat = none) ∧
    (Ready { start [] with ip := 0xFF } ∧ route Config.ref (0xFF#64).toNat = none) :=
  ⟨⟨ready_of (by decide), by decide⟩, ⟨ready_of (by decide), by decide⟩⟩
/-- F11, F8 and F10. -/
theorem witness_PrefixReadsItsSecondByteFirst :
    (Ready (withRam { start [] with ip := 0x3FF } 0x1FF [0x01]) ∧
      (withRam { start [] with ip := 0x3FF } 0x1FF [0x01]).byteAt 0x3FF = some 0x01 ∧
      route Config.ref (0x3FF + 1) = none) ∧
    (Ready (start [0x01, 0x0F]) ∧ (start [0x01, 0x0F]).byteAt 0x100 = some 0x01 ∧
      (start [0x01, 0x0F]).byteAt 0x101 = some 0x0F ∧
      Config.ref.operationOf (0x01#8 ++ 0x0F#8) = none) ∧
    ((start [0x0F, 0xFF]).byteAt 0x100 = some 0x0F ∧ (start [0x0F, 0xFF]).byteAt 0x101 = some 0xFF ∧
      Config.ref.operationOf (0x0F#8 ++ 0xFF#8) = none) :=
  ⟨⟨ready_of (by decide), by decide, by decide⟩, ⟨ready_start _, by decide, by decide, by decide⟩,
    by decide⟩
/-- F5; a table without 0x10; and a table without 0x00. -/
theorem witness_IllegalOneByteOpcodeFaults :
    (Ready (start [0xFF]) ∧ (start [0xFF]).byteAt 0x100 = some 0xFF ∧
      Config.ref.operationOf ((0xFF#8).setWidth 16) = none) ∧
    (Ready { start [0x10] with cfg := { Config.ref with opcodes := [] } } ∧
      ({ start [0x10] with cfg := { Config.ref with opcodes := [] } } : State).byteAt 0x100 =
        some 0x10) ∧
    (Ready { start [] with cfg := { Config.ref with opcodes := [] } } ∧
      ({ start [] with cfg := { Config.ref with opcodes := [] } } : State).byteAt 0x100 = some 0x00 ∧
      { Config.ref with opcodes := [] }.operationOf 0 = none) :=
  ⟨⟨ready_start _, by decide, by decide⟩, ⟨ready_of (by decide), by decide⟩,
    ⟨ready_of (by decide), by decide, by decide⟩⟩
/-- S6, MF11 and MF12. -/
theorem witness_IllegalDescriptorFaults :
    (Ready (start [0x12, 0x10]) ∧
      BytesAt (start [0x12, 0x10]) 0x100 (opcodeBytes (Config.ref.opcodeOf (.sleep .sleepms)) ++ [0x10]) ∧
      ∀ e, Config.ref.descOf 0x10 = some e → e.width = 0) ∧
    (Ready (start [0x01, 0x01, 0x00]) ∧
      BytesAt (start [0x01, 0x01, 0x00]) 0x100
        (opcodeBytes (Config.ref.opcodeOf (.move .mval8)) ++ [0x00]) ∧
      Config.ref.descOf 0x00 = none) ∧
    (Ready (start [0x01, 0x01, 0x01, 0x09]) ∧
      BytesAt (start [0x01, 0x01, 0x01, 0x09]) 0x100
        (opcodeBytes (Config.ref.opcodeOf (.move .mval8)) ++ [0x01, 0x09]) ∧
      Config.ref.descOf 0x01 = some ⟨.r, 1⟩ ∧ Config.ref.descOf 0x09 = none) := by
  refine ⟨⟨ready_start _, bytesAt_of (by decide), ?_⟩, ⟨ready_start _, bytesAt_of (by decide), by decide⟩,
    ⟨ready_start _, bytesAt_of (by decide), by decide, by decide⟩⟩
  intro e he
  have : Config.ref.descOf 0x10 = some ⟨.i, 0⟩ := by decide
  rw [this] at he
  cases he
  rfl
/-- S9, MF9 and MF10, with the lowest bad index and the highest. -/
theorem witness_BadRegisterIndexFaults :
    (Ready (start [0x12, 0x01, 0x40]) ∧
      BytesAt (start [0x12, 0x01, 0x40]) 0x100
        (opcodeBytes (Config.ref.opcodeOf (.sleep .sleepms)) ++ [Config.ref.byteOf ⟨.r, 1⟩, 0x40])) ∧
    (Ready (start [0x01, 0x01, 0x01, 0x01, 0x40]) ∧
      BytesAt (start [0x01, 0x01, 0x01, 0x01, 0x40]) 0x100
        (opcodeBytes (Config.ref.opcodeOf (.move .mval8)) ++
          [Config.ref.byteOf ⟨.r, 1⟩, Config.ref.byteOf ⟨.r, 1⟩, 0x40])) ∧
    (Ready (start [0x01, 0x01, 0x01, 0x31, 0x02, 0xFF]) ∧
      (Operand.r 1 2).wf (some 1) = true ∧
      BytesAt (start [0x01, 0x01, 0x01, 0x31, 0x02, 0xFF]) 0x100
        (opcodeBytes (Config.ref.opcodeOf (.move .mval8)) ++
          [Config.ref.byteOf ⟨.r, 1⟩, Config.ref.byteOf ⟨.mr, 1⟩] ++
          (Operand.r 1 2).encode (some 1) ++ [0xFF]) ∧
      InOneRegion Config.ref (0x100 + 4) 1) ∧
    Desc.mk .r 1 ∈ Desc.all ∧ Desc.mk .mr 1 ∈ Desc.all :=
  ⟨⟨ready_start _, bytesAt_of (by decide)⟩, ⟨ready_start _, bytesAt_of (by decide)⟩,
    ⟨ready_start _, by decide, bytesAt_of (by decide), .inl (by decide)⟩, by decide, by decide⟩
/-- A sleep's field at the last byte of ROM, and one at the last byte of RAM; a move's first field, of the
nominal width; and F15, a move's second field. -/
theorem witness_StraddlingOperandFieldFaults :
    let s : State := { start [] with ip := 0x1FD, rom := Memory.ofBytes 0xFD [0x12, 0x12, 0xAA] }
    let t : State := withRam { start [] with ip := 0x3FD } 0x1FD [0x13, 0x28, 0xAA]
    let u : State := withRam { start [] with ip := 0x3FB } 0x1FB [0x01, 0x02, 0x10, 0x01, 0xAA]
    let v : State :=
      withRam { start [] with ip := 0x1FA, rom := Memory.ofBytes 0xFA [0x01, 0x02, 0x02, 0x12, 0x02, 0xAA] }
        0 [0xBB]
    (Ready s ∧ StandsAtIp s (.sleep .sleepms) [⟨.i, 2⟩] [] ∧ route Config.ref (0x1FD + 2) = some .rom ∧
      Region.rom.base Config.ref + Region.rom.size Config.ref < 0x1FD + 2 + fieldLength 0 ⟨.i, 2⟩) ∧
    (Ready t ∧ StandsAtIp t (.sleep .sleepsec) [⟨.mi, 8⟩] [] ∧
      route Config.ref (0x3FD + 2) = some .ram ∧
      Region.ram.base Config.ref + Region.ram.size Config.ref < 0x3FD + 2 + fieldLength 0 ⟨.mi, 8⟩) ∧
    (Ready u ∧ StandsAtIp u (.move .mval16) [⟨.i, 0⟩, ⟨.r, 1⟩] [] ∧
      route Config.ref (0x3FB + 4) = some .ram ∧
      Region.ram.base Config.ref + Region.ram.size Config.ref < 0x3FB + 4 + fieldLength 2 ⟨.i, 0⟩) ∧
    (Ready v ∧ (Operand.r 2 2).wf (some 2) = true ∧
      StandsAtIp v (.move .mval16) [⟨.r, 2⟩, ⟨.i, 2⟩] ((Operand.r 2 2).encode (some 2)) ∧
      InOneRegion Config.ref (0x1FA + 4) 1 ∧ route Config.ref (0x1FA + 5) = some .rom ∧
      Region.rom.base Config.ref + Region.rom.size Config.ref < 0x1FA + 5 + fieldLength 2 ⟨.i, 2⟩) ∧
    Desc.mk .i 2 ∈ Desc.all ∧ Desc.mk .mi 8 ∈ Desc.all ∧ Desc.mk .i 0 ∈ Desc.all ∧
    Desc.mk .r 1 ∈ Desc.all :=
  ⟨⟨ready_of (by decide), bytesAt_of (by decide), by decide, by decide⟩,
    ⟨ready_of (by decide), bytesAt_of (by decide), by decide, by decide⟩,
    ⟨ready_of (by decide), bytesAt_of (by decide), by decide, by decide⟩,
    ⟨ready_of (by decide), by decide, bytesAt_of (by decide), .inl (by decide), by decide, by decide⟩,
    by decide, by decide, by decide, by decide⟩

/-- RAM that ends with these bytes, and `ip` at the first of them. -/
def atTop (bytes : List Byte) : State :=
  withRam { start [] with ip := BitVec.ofNat 64 (0x400 - bytes.length) } (0x200 - bytes.length) bytes

/-- An instruction cut off at `TOP`, before each of its items. -/
theorem witness_FetchAfterTheOpcodeOutsideMemoryFaults :
    (Ready (atTop [0x12]) ∧ StandsAtIp (atTop [0x12]) (.sleep .sleepms) [] [] ∧
      route Config.ref (0x3FF + 1) = none) ∧
    (Ready (atTop [0x13, 0x11]) ∧ StandsAtIp (atTop [0x13, 0x11]) (.sleep .sleepsec) [⟨.i, 1⟩] [] ∧
      route Config.ref (0x3FE + 2) = none) ∧
    (Ready (atTop [0x01, 0x01]) ∧ StandsAtIp (atTop [0x01, 0x01]) (.move .mval8) [] [] ∧
      route Config.ref (0x3FE + 2) = none) ∧
    (Ready (atTop [0x01, 0x01, 0x11]) ∧
      StandsAtIp (atTop [0x01, 0x01, 0x11]) (.move .mval8) [⟨.i, 1⟩] [] ∧
      route Config.ref (0x3FD + 3) = none) ∧
    (Ready (atTop [0x01, 0x01, 0x11, 0x01]) ∧
      StandsAtIp (atTop [0x01, 0x01, 0x11, 0x01]) (.move .mval8) [⟨.i, 1⟩, ⟨.r, 1⟩] [] ∧
      route Config.ref (0x3FC + 4) = none) ∧
    (Ready (atTop [0x01, 0x01, 0x01, 0x11, 0x05]) ∧ (Operand.r 1 5).wf (some 1) = true ∧
      StandsAtIp (atTop [0x01, 0x01, 0x01, 0x11, 0x05]) (.move .mval8) [⟨.r, 1⟩, ⟨.i, 1⟩]
        ((Operand.r 1 5).encode (some 1)) ∧
      InOneRegion Config.ref (0x3FB + 4) 1 ∧ route Config.ref (0x3FB + 5) = none) ∧
    Desc.mk .i 1 ∈ Desc.all ∧ Desc.mk .r 1 ∈ Desc.all :=
  ⟨⟨ready_of (by decide), bytesAt_of (by decide), by decide⟩,
    ⟨ready_of (by decide), bytesAt_of (by decide), by decide⟩,
    ⟨ready_of (by decide), bytesAt_of (by decide), by decide⟩,
    ⟨ready_of (by decide), bytesAt_of (by decide), by decide⟩,
    ⟨ready_of (by decide), bytesAt_of (by decide), by decide⟩,
    ⟨ready_of (by decide), by decide, bytesAt_of (by decide), .inr (by decide), by decide⟩,
    by decide, by decide⟩
/-- A stopped machine, a `stop`, and a fault. -/
theorem witness_RunningIsClearedByStopOrFault :
    (∃ t, step { State.reset with running := false } = .next t) ∧
    (∃ t, step (start [0x11]) = .next t ∧ decide (t.running = false) = true) ∧
    (∃ t, step (start [0x14]) = .next t ∧ decide (t.fault ≠ none) = true) :=
  ⟨⟨_, rfl⟩, next_of (by decide), next_of (by decide)⟩
theorem witness_FaultIsTerminal :
    ({ State.reset with fault := decFault .illegalOpcode 0x14 } : State).fault ≠ none := by decide
theorem witness_CyclesCountCompletedCycles :
    (∃ t, step { State.reset with running := false } = .next t) ∧
    (∃ t, step (start [0x14]) = .next t ∧ decide (t.fault ≠ none) = true) ∧
    (∃ t, step (start [0x10]) = .next t ∧ decide (t.fault = none) = true) :=
  ⟨⟨_, rfl⟩, next_of (by decide), next_of (by decide)⟩
theorem witness_NoStepChangesRomSpOrInertFlags :
    ∃ t, step { start [0x10] with flags := 0xFF } = .next t ∧ decide (t.flags = 0xDF) = true :=
  next_of (by decide)
theorem witness_OnlyMovesWriteRegisters :
    ∃ t, exec (.mval8 (.r 1 63) (.i 1 0xFF)) State.reset = .next t ∧
      decide (t.reg 63 ≠ State.reset.reg 63) = true := next_of (by decide)
theorem witness_OnlyMovesWriteMemory :
    (State.reset.setReg 4 0x3FF).ram.wf Config.ref.ramSize = true ∧
    ∃ t, exec (.mval8 (.mr 1 4) (.i 1 0xFF)) (State.reset.setReg 4 0x3FF) = .next t ∧
      decide (t.byteAt 0x3FF ≠ (State.reset.setReg 4 0x3FF).byteAt 0x3FF) = true :=
  ⟨rfl, next_of (by decide)⟩
theorem witness_OnlySleepsSetTheTimer :
    (∃ t, exec (.sleepms (.i 1 0)) State.reset = .next t ∧
      decide (t.flags ≠ State.reset.flags) = true) ∧
    (∃ t, exec (.sleepsec (.i 1 1)) State.reset = .next t ∧
      decide (t.countdown ≠ State.reset.countdown) = true) := ⟨next_of (by decide), next_of (by decide)⟩
theorem witness_FaultsArePrecise :
    ∃ t, step { start [0x01, 0x01, 0x01, 0x01, 0x40] with flags := 0x20 } = .next t ∧
      decide (t.fault ≠ none) = true := next_of (by decide)
/-- One record of each shape. -/
theorem witness_FaultRecordFields :
    (∃ t, step (start [0x14]) = .next t ∧
      decide (t.fault = decFault .illegalOpcode 0x14 ∧ FaultKind.illegalOpcode.code = 5) = true) ∧
    (∃ t, step (start [0x01, 0x02, 0x22, 0x12, 0xFF, 0x03, 0xAA, 0xAA]) = .next t ∧
      decide (t.fault = memFault .regionOverrunRAM 0x3FF 2 .write ∧
        FaultKind.regionOverrunRAM.code = 4) = true) := ⟨next_of (by decide), next_of (by decide)⟩
/-- T2, T1 and T4. -/
theorem witness_StickyBitsFollowOverruns :
    (∃ t, step (inTestMode (start [0x01, 0x02, 0x02, 0x22, 0x01, 0xFF, 0x01])) = .next t ∧
      decide (t.romErr = true ∧ t.ramErr = false) = true) ∧
    (∃ t, step (inTestMode (start [0x01, 0x02, 0x22, 0x12, 0xFF, 0x03, 0xAA, 0xAA])) = .next t ∧
      decide (t.ramErr = true ∧ t.romErr = false) = true) ∧
    (∃ t, step (start [0x01, 0x02, 0x22, 0x12, 0xFF, 0x03, 0xAA, 0xAA]) = .next t ∧
      decide (t.ramErr = false) = true) :=
  ⟨next_of (by decide), next_of (by decide), next_of (by decide)⟩
/-- A normal cycle, a tick over the same instruction, and a stopped cycle. -/
theorem witness_IpOnlyAdvances :
    let s : State := { start [0x12, 0x01, 0x00] with flags := 0x20, countdown := 2 }
    let u : State := { start [0x12, 0x01, 0x00] with running := false }
    (start [0x12, 0x01, 0x00]).cfg.wf = true ∧
    (Ready (start [0x12, 0x01, 0x00]) ∧ ∃ t, step (start [0x12, 0x01, 0x00]) = .next t ∧
      decide (t.fault = none ∧ t.ip = 0x103) = true) ∧
    (¬ Ready s ∧ ∃ t, step s = .next t ∧ decide (t.fault = none ∧ t.ip = 0x100) = true) ∧
    (¬ Ready u ∧ ∃ t, step u = .next t ∧ decide (t.fault = none) = true) :=
  ⟨by decide, ⟨ready_start _, next_of (by decide)⟩,
    ⟨fun h => h.2.2 (by decide), next_of (by decide)⟩,
    ⟨fun h => absurd h.2.1 (by decide), next_of (by decide)⟩⟩
theorem witness_LatchesCarryNothing : ∃ t, step (start [0x11]) = .next t ∧ decide (t.curOp = 0x11) = true :=
  next_of (by decide)
theorem witness_SpAndInertFlagsSteerNothing :
    (0xDF#8).getLsbD 5 = (start [0x11]).flags.getLsbD 5 ∧
    ∃ t, step (start [0x11]) = .next t ∧ decide (t.flags = 0) = true := ⟨by decide, next_of (by decide)⟩

theorem start_inv (image : List Byte) (h : image.length ≤ 0x100) : (start image).Inv where
  cfg := ref_wf
  rom := wf_ofBytes _ _ _ (by simpa [start, State.reset, State.resetWith, Config.ref] using h)
  ram := rfl
  sp := rfl
  inert := show (0 : BitVec 8) &&& ~~~Flag.sleep.mask = 0 by decide
  stopped := fun h => absurd rfl h
  awake := fun _ => rfl
  sticky := fun _ => ⟨rfl, rfl⟩
  opnd1 := ⟨le_refl 1, show 1 ≤ 8 by decide⟩
  opnd2 := ⟨le_refl 1, show 1 ≤ 8 by decide⟩

theorem witness_StepKeepsTheInvariant :
    (start [0x12, 0x11, 0x03]).Inv ∧ ∃ t, step (start [0x12, 0x11, 0x03]) = .next t ∧
      decide (t.countdown = 3) = true := ⟨start_inv _ (by decide), next_of (by decide)⟩
theorem witness_ResetMeetsTheInvariant :
    Config.ref.wf = true ∧ Memory.wf Config.ref.romSize (Memory.ofBytes 0xFF [0x11]) = true ∧
    ResetInputs.Ok Config.ref { ResetInputs.zero with opnd1 := ⟨.mi, 8, 7⟩ } :=
  ⟨ref_wf, by decide, ⟨rfl, ⟨by decide, by decide⟩, ⟨by decide, by decide⟩⟩⟩
theorem witness_StepKeepsIpMapped :
    (start [0x11]).cfg.wf = true ∧ (start [0x11]).ipMapped ∧
    ∃ t, step (start [0x11]) = .next t ∧ decide (t.ip = 0x101) = true :=
  ⟨ref_wf, fun _ => by decide, next_of (by decide)⟩
theorem witness_EveryRunEnds : State.reset.cfg.wf = true := ref_wf
theorem witness_PowerUpLeavesTheResetState :
    Config.ref.wf = true ∧ (List.replicate 0x100 (0x10 : Byte)).length = Config.ref.romSize ∧
    Config.ref.spReset = Config.ref.ramLast :=
  ⟨ref_wf, List.length_replicate, by decide⟩
/-- A faulted machine with an image. -/
theorem witness_MachineResetStartsAnew :
    let s : State := { start [0x14] with fault := decFault .illegalOpcode 0x14, running := false }
    s.cfg.wf = true ∧ s.rom.wf s.cfg.romSize = true ∧ ResetInputs.zero.Ok s.cfg :=
  ⟨ref_wf, by decide, ⟨rfl, ⟨by decide, by decide⟩, ⟨by decide, by decide⟩⟩⟩
/-- X1 and X2. -/
theorem witness_LoadReplacesRomEntirely :
    (List.replicate 0x100 (0x10 : Byte)).length = State.reset.cfg.romSize ∧
    (List.replicate 0xFF (0x10 : Byte)).length ≠ State.reset.cfg.romSize ∧
    (List.replicate 0x101 (0x10 : Byte)).length ≠ State.reset.cfg.romSize := by
  simp only [List.length_replicate]
  decide
theorem witness_HostWriteThenReadBack :
    State.reset.ram.wf State.reset.cfg.ramSize = true ∧ ([0x5A] : List Byte) ≠ [] ∧
    State.reset.cfg.ramBase ≤ 0x3FF ∧ 0x3FF + [0x5A#8].length ≤ State.reset.cfg.top ∧
    State.reset.cfg.ramBase ≤ 0x200 := by decide
/-- The last byte of ROM, and all of RAM. -/
theorem witness_HostReadGivesTheBytes :
    let c := State.reset.cfg
    (Region.rom.base c ≤ 0x1FF ∧ 0x1FF + 1 ≤ Region.rom.base c + Region.rom.size c) ∧
    (Region.ram.base c ≤ 0x200 ∧ 0x200 + 0x200 ≤ Region.ram.base c + Region.ram.size c) := by decide
/-- H1, H3 and H4, in test mode and out of it. -/
theorem witness_HostPortRegionErrors :
    let c := State.reset.cfg
    0x1FF < Region.ram.base c ∧ Region.rom.base c + Region.rom.size c < 0x200 + 1 ∧
    Region.ram.base c + Region.ram.size c < 0x3FD + 4 ∧
    [0x3A#8, 0xF1#8, 0x7C#8, 0xD4#8].length = 4 ∧
    (inTestMode State.reset).cfg.testMode = true ∧ State.reset.cfg.testMode = false := by decide
/-- H6, and a cycle, a host read and a host write of a machine whose bit is set. -/
theorem witness_StickyBitsAreResettable :
    queryRegionError .ram { start [0x10] with ramErr := true } = true ∧
    (∃ t, step { start [0x10] with ramErr := true } = .next t ∧ decide (t.ramErr = true) = true) ∧
    (Region.ram.base State.reset.cfg ≤ 0x3FF ∧
      0x3FF + 1 ≤ Region.ram.base State.reset.cfg + Region.ram.size State.reset.cfg) ∧
    ([0x5A] : List Byte) ≠ [] ∧ State.reset.cfg.ramBase ≤ 0x3FF ∧
    0x3FF + [0x5A#8].length ≤ State.reset.cfg.top :=
  ⟨rfl, next_of (by decide), by decide, by decide, by decide, by decide⟩

end Sys2Proof.Tests
end

section
/-! SUPPORT. What the proofs of the state's rules (10_state.md) share: the arms by format, the parts of the
state an arm changes, what a completed cycle and a tick keep, and the value of a readable source. -/

namespace Sys2Proof.Machine

open Sys2Proof.Claims

/-! ### Instructions by format -/

theorem mem_moves {i : Instr} {d x : Operand} : i ∈ moves d x ↔ ∃ o, i = Instr.ofMove o d x := by
  constructor
  · intro h
    simp only [moves, List.mem_cons, List.not_mem_nil, or_false] at h
    rcases h with rfl | rfl | rfl | rfl | rfl | rfl | rfl | rfl
    exacts [⟨.mval8, rfl⟩, ⟨.mval16, rfl⟩, ⟨.mval24, rfl⟩, ⟨.mval32, rfl⟩, ⟨.mval40, rfl⟩,
      ⟨.mval48, rfl⟩, ⟨.mval56, rfl⟩, ⟨.mval64, rfl⟩]
  · rintro ⟨o, rfl⟩
    cases o <;> simp [moves, Instr.ofMove]

theorem mem_sleeps {i : Instr} {x : Operand} : i ∈ sleeps x ↔ ∃ o, i = Instr.ofSleep o x := by
  constructor
  · intro h
    simp only [sleeps, List.mem_cons, List.not_mem_nil, or_false] at h
    rcases h with rfl | rfl
    exacts [⟨.sleepms, rfl⟩, ⟨.sleepsec, rfl⟩]
  · rintro ⟨o, rfl⟩
    cases o <;> simp [sleeps, Instr.ofSleep]

theorem armOf_ofMove (o : MoveOp) (d x : Operand) (s : State) :
    armOf (Instr.ofMove o d x) s = moveArm o.nominal d x := by
  cases o <;> rfl

theorem armOf_ofSleep (o : SleepOp) (x : Operand) (s : State) :
    armOf (Instr.ofSleep o x) s = sleepArm (sleepUnit s.cfg o) x := by
  cases o <;> rfl

/-! ### What an arm changes -/

/-- Only a move into a register changes one (10_state.md R22). -/
theorem armOf_reg_changed {i : Instr} {s u t : State} {k : Fin 64} (h : armOf i s u = .ok t)
    (hk : t.reg k ≠ u.reg k) : ∃ o w x, i = Instr.ofMove o (.r w k) x := by
  rcases armOf_ok h with ⟨rfl, _⟩ | ⟨rfl, _⟩ | ⟨_, _, _, _, _, rfl⟩ |
    ⟨o, w, j, x, v, hi, _, rfl⟩ | ⟨_, _, _, _, _, _, _, _, _, _, rfl⟩
  · exact absurd rfl hk
  · exact absurd rfl hk
  · exact absurd rfl hk
  · have hj : j = k := by
      by_contra hj
      exact hk (by rw [setRegLow_reg, if_neg hj])
    exact ⟨o, w, x, hj ▸ hi⟩
  · exact absurd rfl hk

/-- An arm leaves the flags and the countdown, or is a sleep's and sets the sleep flag
(10_state.md R28, R33). -/
theorem armOf_timer {i : Instr} {s u t : State} (h : armOf i s u = .ok t) :
    (t.flags = u.flags ∧ t.countdown = u.countdown) ∨
    ((∃ o x, i = Instr.ofSleep o x) ∧ t.flag .sleep = true) := by
  rcases armOf_ok h with ⟨rfl, _⟩ | ⟨rfl, _⟩ | ⟨o, x, k, hi, _, rfl⟩ |
    ⟨_, _, _, _, _, _, _, rfl⟩ | ⟨_, _, _, _, _, _, _, _, _, _, rfl⟩
  · exact .inl ⟨rfl, rfl⟩
  · exact .inl ⟨rfl, rfl⟩
  · exact .inr ⟨⟨o, x, hi⟩, by simp [State.flag, Flag.mask, Flag.bit]⟩
  · exact .inl ⟨rfl, rfl⟩
  · exact .inl ⟨rfl, rfl⟩

/-- An arm keeps the canonical form of RAM (20_memory.md R67). -/
theorem armOf_ram_wf {i : Instr} {s u t : State} (h : armOf i s u = .ok t)
    (hm : u.ram.wf u.cfg.ramSize = true) : t.ram.wf u.cfg.ramSize = true := by
  rcases armOf_ok h with ⟨rfl, _⟩ | ⟨rfl, _⟩ | ⟨_, _, _, _, _, rfl⟩ |
    ⟨_, _, _, _, _, _, _, rfl⟩ | ⟨_, _, _, _, _, _, _, _, _, hn, rfl⟩
  · exact hm
  · exact hm
  · exact hm
  · exact hm
  · exact wf_writeLE hm _ _ _ hn

/-! ### What a cycle keeps -/

theorem sleepTick_inert (s : State) :
    (sleepTick s).flags &&& ~~~Flag.sleep.mask = s.flags &&& ~~~Flag.sleep.mask := by
  unfold sleepTick
  split
  · simp [BitVec.and_assoc]
  · rfl

theorem wake_inert (s : State) :
    (wake s).flags &&& ~~~Flag.sleep.mask = s.flags &&& ~~~Flag.sleep.mask := by
  simp [BitVec.and_assoc]

section Completed
variable {s u : State} {i : Instr} {n : Nat}

/-- A completed cycle, its frame said of the state at the start of the cycle. -/
theorem CycleRuns.frame (h : CycleRuns s i n u) : ArmFrame i ((wake s).decoded i) u := armOf_frame h.2

theorem CycleRuns.fault_eq (h : CycleRuns s i n u) : u.fault = s.fault := by
  simpa using h.frame.fault

theorem CycleRuns.cfg_eq (h : CycleRuns s i n u) : u.cfg = s.cfg := by
  simpa using h.frame.cfg

theorem CycleRuns.rom_eq (h : CycleRuns s i n u) : u.rom = s.rom := by
  simpa using h.frame.rom

theorem CycleRuns.sp_eq (h : CycleRuns s i n u) : u.sp = s.sp := by
  simpa using h.frame.sp

theorem CycleRuns.inert_eq (h : CycleRuns s i n u) :
    u.flags &&& ~~~Flag.sleep.mask = s.flags &&& ~~~Flag.sleep.mask :=
  h.frame.inert.trans (wake_inert s)

theorem CycleRuns.romErr_eq (h : CycleRuns s i n u) : u.romErr = s.romErr := by
  simpa using h.frame.romErr

theorem CycleRuns.ramErr_eq (h : CycleRuns s i n u) : u.ramErr = s.ramErr := by
  simpa using h.frame.ramErr

theorem CycleRuns.cycles_eq (h : CycleRuns s i n u) : u.cycles = s.cycles := by
  simpa using h.frame.cycles

/-- A completed cycle moves `ip` past its instruction (40_cycle_fetch_decode.md R152). -/
theorem CycleRuns.ip_toNat (h : CycleRuns s i n u) (hc : s.cfg.wf = true) :
    u.ip.toNat = s.ip.toNat + n := by
  rw [h.frame.ip, State.decoded_ip, wake_ip, wake_cfg, fetchDecode_advance hc h.1]

end Completed

/-! ### The value of a readable source -/

/-- The bytes at a place fix what a read of it answers (20_memory.md R66, R70). -/
theorem memRead_of_holdsValue {s : State} {a v : Word} {n : Nat} (h : HoldsValue s a.toNat n v)
    (h1 : 1 ≤ n) (h8 : n ≤ 8) (x : Access) : memRead s a n x = .ok v := by
  obtain ⟨hin, hlt, hbytes⟩ := h
  obtain ⟨r, hlo, hhi⟩ : ∃ r : Region, r.base s.cfg ≤ a.toNat ∧
      a.toNat + n ≤ r.base s.cfg + r.size s.cfg := by
    rcases hin with hin | hin
    exacts [⟨.rom, hin⟩, ⟨.ram, hin⟩]
  have hr : route s.cfg a.toNat = some r := route_eq_some.2 ⟨hlo, by omega⟩
  have hfit : (a.toNat - r.base s.cfg) + n ≤ r.size s.cfg := by omega
  rw [memRead_of_inside hr hfit]
  congr 1
  refine eq_of_bytes n _ _ (readLE_lt _ _ _) hlt fun k hk => ?_
  rw [readLE_byte _ _ _ _ hk h8]
  exact Option.some.inj ((byteAt_inside hr hfit hk).symm.trans (hbytes k hk))

/-- A well-formed source of value `v` is read as `v` (42_move.md R183). -/
theorem srcValue_of_sourceIs {s : State} {nominal : Option Nat} {x : Operand} {v : Word}
    (hx : x.wf nominal = true) (h : SourceIs s x v) : srcValue nominal x s = .ok v := by
  cases x with
  | r w k =>
    have hw := (widthOk_iff w).1 hx
    have hv : lowBytes w (s.reg k) = v :=
      BitVec.eq_of_toNat_eq ((lowBytes_toNat w _ hw.2).trans h.symm)
    exact congrArg Except.ok hv
  | i w y =>
    have hv : v = y := h
    exact congrArg Except.ok ((lowBytes_of_fits _ y (raw_fits hx)).trans hv.symm)
  | mi w a =>
    rw [Operand.wf, Bool.and_eq_true, widthOk_iff] at hx
    exact memRead_of_holdsValue h hx.1.1 hx.1.2 .read
  | mr w k =>
    have hw := (widthOk_iff w).1 hx
    exact memRead_of_holdsValue h hw.1 hw.2 .read

/-- Decoding changes no source (42_move.md R183). -/
theorem srcValue_decoded (s : State) (i : Instr) (nominal : Option Nat) (x : Operand) :
    srcValue nominal x (s.decoded i) = srcValue nominal x s := srcValue_congr rfl rfl rfl rfl _ _

@[simp] theorem countCycle_reg (s : State) (k : Fin 64) : s.countCycle.reg k = s.reg k := rfl

/-- A move into a register, its source read (42_move.md R184, R185). -/
theorem exec_moveIntoRegister {s : State} {o : MoveOp} {w : Nat} {k : Fin 64} {x : Operand} {v : Word}
    (hx : srcValue (some o.nominal) x s = .ok v) :
    exec (Instr.ofMove o (.r w k) x) s =
      .next ((s.decoded (Instr.ofMove o (.r w k) x)).setRegLow k w
        (lowBytes (effWidth (some o.nominal) w) v)).countCycle := by
  rw [exec_ofMove]
  apply normalCycle_of_ok
  simp only [moveArm, moveValue, srcValue_decoded, hx]
  rfl

/-! ### The invariant, case by case of `step_next` -/

/-- The width of a free latch is 1 to 8 (10_state.md R31). -/
theorem freeLatch_wf (n k : Nat) : (freeLatch n k).wf :=
  ⟨Nat.le_add_left 1 _, (Config.freeLatchWidth n k).isLt⟩

/-- The latch that decode writes for operand `j` of a well-formed instruction, or the one it leaves, is well
formed (10_state.md R31). -/
theorem operandLatch_wf {i : Instr} (hi : i.wf = true) (j : Nat) {l : Latch} (hl : l.wf) :
    ((i.operands[j]?.map (latchOf i.operation.nominal)).getD l).wf := by
  cases hx : i.operands[j]? with
  | none => exact hl
  | some x =>
    have hwf : x.wf i.operation.nominal = true := List.all_eq_true.1 hi x (List.mem_of_getElem? hx)
    exact width_range (nominalOk_operation _) hwf

theorem inv_sleepTick {s : State} (h : s.Inv) (hf : s.fault = none) (hs : s.flag .sleep = true) :
    (sleepTick s).Inv where
  cfg := by simpa using h.cfg
  rom := by simpa using h.rom
  ram := by simpa using h.ram
  sp := by simpa using h.sp
  inert := (sleepTick_inert s).trans h.inert
  stopped := fun hn => absurd ((sleepTick_fault s).trans hf) hn
  awake := fun hc => by
    rw [sleepTick_countdown]
    by_contra hn
    have hsame : (sleepTick s).flag .sleep = s.flag .sleep :=
      congrArg (·.getLsbD 5) (sleepTick_flags_more s (by omega))
    rw [hsame, hs] at hc
    exact absurd hc (by decide)
  sticky := by simpa using h.sticky
  opnd1 := by simpa using h.opnd1
  opnd2 := by simpa using h.opnd2

theorem inv_raise {s : State} (h : s.Inv) (a : Word) (f : FaultCause) : (raise a f s).Inv where
  cfg := h.cfg
  rom := h.rom
  ram := h.ram
  sp := h.sp
  inert := h.inert
  stopped := fun _ => rfl
  awake := h.awake
  sticky := fun ht => by
    have ht : s.cfg.testMode = false := ht
    simpa [ht] using h.sticky ht
  opnd1 := freeLatch_wf _ _
  opnd2 := freeLatch_wf _ _

theorem inv_completed {s u : State} {i : Instr} {n : Nat} (h : s.Inv) (hf : s.fault = none)
    (hs : ¬ (s.flag .sleep = true ∧ s.countdown ≠ 0)) (hc : CycleRuns s i n u) :
    u.countCycle.Inv where
  cfg := by simpa [hc.cfg_eq] using h.cfg
  rom := by simpa [hc.cfg_eq, hc.rom_eq] using h.rom
  ram := by simpa [hc.cfg_eq] using armOf_ram_wf hc.2 (by simpa using h.ram)
  sp := by simpa [hc.cfg_eq, hc.sp_eq] using h.sp
  inert := hc.inert_eq.trans h.inert
  stopped := fun hn => absurd (hc.fault_eq.trans hf) hn
  awake := fun ha => by
    have hzero : s.countdown = 0 := by
      by_contra hn
      have hclear : s.flag .sleep = false := by simpa using fun hset => hs ⟨hset, hn⟩
      exact hn (h.awake hclear)
    rcases armOf_timer hc.2 with ⟨_, hd⟩ | ⟨_, hset⟩
    · simp [hd, hzero]
    · exact absurd (hset.symm.trans ha) (by decide)
  sticky := by simpa [hc.cfg_eq, hc.romErr_eq, hc.ramErr_eq] using h.sticky
  opnd1 := by
    rw [State.countCycle_opnd1, hc.frame.opnd1, State.decoded_opnd1, wake_opnd1]
    exact operandLatch_wf (fetchDecode_wf h.cfg hc.1).1 0 h.opnd1
  opnd2 := by
    rw [State.countCycle_opnd2, hc.frame.opnd2, State.decoded_opnd2, wake_opnd2]
    exact operandLatch_wf (fetchDecode_wf h.cfg hc.1).1 1 h.opnd2

/-! ### What no instruction sees

A change of the state is transparent when it keeps what the arms read and commutes with what they write. Two
machines that differ by such a change fault together and complete the same instructions. -/

/-- A change of the state that no execute arm sees. -/
structure Transparent (f : State → State) : Prop where
  cfg : ∀ s, (f s).cfg = s.cfg
  regs : ∀ s, (f s).regs = s.regs
  rom : ∀ s, (f s).rom = s.rom
  ram : ∀ s, (f s).ram = s.ram
  halt : ∀ s, (f s).halt = f s.halt
  startSleep : ∀ s n, (f s).startSleep n = f (s.startSleep n)
  setReg : ∀ s k v, (f s).setReg k v = f (s.setReg k v)
  setRam : ∀ s m, (f s).setRam m = f (s.setRam m)

section Transparent
variable {f : State → State}

theorem Transparent.reg (hf : Transparent f) (s : State) (k : Fin 64) : (f s).reg k = s.reg k := by
  simp only [State.reg, hf.regs]

theorem Transparent.srcValue (hf : Transparent f) (nominal : Option Nat) (x : Operand) (s : State) :
    srcValue nominal x (f s) = srcValue nominal x s :=
  srcValue_congr (hf.cfg s) (hf.regs s) (hf.rom s) (hf.ram s) nominal x

theorem Transparent.memWrite (hf : Transparent f) (s : State) (a : Word) (n : Nat) (v : Word) :
    memWrite (f s) a n v = (memWrite s a n v).map f := by
  simp only [Machine.memWrite, hf.cfg, hf.ram, hf.setRam]
  cases route s.cfg a.toNat with
  | none => rfl
  | some r =>
    cases r with
    | rom => rfl
    | ram => simp only [apply_ite (Except.map f)]; rfl

theorem Transparent.dstWrite (hf : Transparent f) (d : Operand) (v : Word) (s : State) :
    dstWrite d v (f s) = (dstWrite d v s).map f := by
  cases d with
  | r w k => simp only [Machine.dstWrite, State.setRegLow, hf.reg, hf.setReg, Except.map]
  | i w y => simp only [Machine.dstWrite, hf.cfg, Except.map]
  | mi w a => exact hf.memWrite s a w v
  | mr w k => simp only [Machine.dstWrite, hf.reg, hf.memWrite]

theorem Transparent.moveArm (hf : Transparent f) (n : Nat) (d x : Operand) (s : State) :
    moveArm n d x (f s) = (moveArm n d x s).map f := by
  have hv : moveValue n d x (f s) = moveValue n d x s := by
    cases d <;> simp only [moveValue, hf.cfg, hf.srcValue]
  simp only [Machine.moveArm, hv]
  cases moveValue n d x s with
  | error e => rfl
  | ok v => exact hf.dstWrite d _ s

theorem Transparent.sleepArm (hf : Transparent f) (unit : Nat) (x : Operand) (s : State) :
    sleepArm unit x (f s) = (sleepArm unit x s).map f := by
  simp only [Machine.sleepArm, hf.srcValue]
  cases Machine.srcValue none x s with
  | error e => rfl
  | ok k => exact congrArg Except.ok (hf.startSleep s _)

/-- An arm sees nothing of a transparent change, and keeps it. -/
theorem Transparent.armOf (hf : Transparent f) (i : Instr) {s s' : State} (hc : s'.cfg = s.cfg)
    (u : State) : armOf i s' (f u) = (armOf i s u).map f := by
  rcases instr_cases i with ⟨o, rfl⟩ | ⟨o, x, rfl⟩ | ⟨o, d, x, rfl⟩
  · cases o with
    | nac => rfl
    | wait => rfl
    | stop => exact congrArg Except.ok (hf.halt u)
  · rw [armOf_ofSleep, armOf_ofSleep, hc]
    exact hf.sleepArm _ x u
  · rw [armOf_ofMove, armOf_ofMove]
    exact hf.moveArm _ d x u

end Transparent

/-- Two machines whose next cycles decode alike, their decoded states a transparent change apart. -/
structure CyclesAlike (s s' : State) (f : Instr → State → State) : Prop where
  decode : fetchDecode s' = fetchDecode s
  cfg : s'.cfg = s.cfg
  transparent : ∀ i, Transparent (f i)
  decoded : ∀ i, (wake s').decoded i = f i ((wake s).decoded i)

section Alike
variable {s s' : State} {f : Instr → State → State}

theorem CyclesAlike.arm (h : CyclesAlike s s' f) (i : Instr) :
    armOf i (wake s') ((wake s').decoded i) =
      (armOf i (wake s) ((wake s).decoded i)).map (f i) := by
  rw [h.decoded i]
  exact (h.transparent i).armOf i (by simpa using h.cfg) _

theorem CyclesAlike.fault (h : CyclesAlike s s' f) {c : FaultCause} (hc : CycleFault s c) :
    CycleFault s' c := by
  rcases hc with hd | ⟨i, n, hd, ha⟩
  · exact .inl (h.decode.trans hd)
  · exact .inr ⟨i, n, h.decode.trans hd, by rw [h.arm i, ha]; rfl⟩

theorem CyclesAlike.runs (h : CyclesAlike s s' f) {i : Instr} {n : Nat} {u : State}
    (hc : CycleRuns s i n u) : CycleRuns s' i n (f i u) :=
  ⟨h.decode.trans hc.1, by rw [h.arm i, hc.2]; rfl⟩

end Alike

/-! ### Other latches -/

/-- The state with another `cur_op` and other operand latches. -/
def State.relatch (v : BitVec 16) (l1 l2 : Latch) (s : State) : State :=
  { s with curOp := v, opnd1 := l1, opnd2 := l2 }

theorem relatch_transparent (v : BitVec 16) (l1 l2 : Latch) : Transparent (State.relatch v l1 l2) := by
  constructor <;> intros <;> rfl

theorem wake_relatch (v : BitVec 16) (l1 l2 : Latch) (s : State) :
    wake (s.relatch v l1 l2) = (wake s).relatch v l1 l2 := by
  simp only [wake, apply_ite (State.relatch v l1 l2)]
  rfl

theorem sleepTick_relatch (v : BitVec 16) (l1 l2 : Latch) (s : State) :
    sleepTick (s.relatch v l1 l2) = (sleepTick s).relatch v l1 l2 := by
  simp only [sleepTick, apply_ite (State.relatch v l1 l2)]
  rfl

/-- What other latches become when an instruction is decoded: `cur_op` and the latches of its operands are
written whatever they held (40_cycle_fetch_decode.md R147). -/
def State.decodedRelatch (c : Config) (l1 l2 : Latch) (i : Instr) : State → State :=
  State.relatch (c.opcodeOf i.operation) ((i.operands[0]?.map (latchOf i.operation.nominal)).getD l1)
    ((i.operands[1]?.map (latchOf i.operation.nominal)).getD l2)

theorem cyclesAlike_relatch (v : BitVec 16) (l1 l2 : Latch) (s : State) :
    CyclesAlike s (s.relatch v l1 l2) (State.decodedRelatch s.cfg l1 l2) where
  decode := fetchDecode_congr rfl rfl rfl rfl
  cfg := rfl
  transparent := fun _ => relatch_transparent _ _ _
  decoded := fun i => by
    rw [wake_relatch, wake_eq s]
    rfl

/-! ### Another `sp` and other inert flags -/

/-- The flags `g`, but for bit 5, `sleep`, which is that of `f` (10_state.md R29). -/
def mixFlags (g f : BitVec 8) : BitVec 8 := (g &&& 0xDF#8) ||| (f &&& 0x20#8)

theorem mixFlags_getLsbD (g f : BitVec 8) (j : Nat) :
    (mixFlags g f).getLsbD j = if j = 5 then f.getLsbD j else g.getLsbD j := by
  by_cases hj : j < 8
  · unfold mixFlags
    interval_cases j <;> simp
  · rw [BitVec.getLsbD_of_ge _ j (by omega), BitVec.getLsbD_of_ge f j (by omega),
      BitVec.getLsbD_of_ge g j (by omega), ite_self]

theorem mask_getLsbD (j : Nat) : Flag.sleep.mask.getLsbD j = decide (j = 5) := by
  by_cases hj : j < 8
  · interval_cases j <;> rfl
  · rw [BitVec.getLsbD_of_ge _ j (by omega), eq_comm, decide_eq_false_iff_not]
    omega

theorem mixFlags_set (g f : BitVec 8) :
    mixFlags g f ||| Flag.sleep.mask = mixFlags g (f ||| Flag.sleep.mask) := by
  apply BitVec.eq_of_getLsbD_eq
  intro j _
  simp only [BitVec.getLsbD_or, mixFlags_getLsbD, mask_getLsbD]
  by_cases hj : j = 5 <;> simp [hj]

theorem mixFlags_clear (g f : BitVec 8) :
    mixFlags g f &&& ~~~Flag.sleep.mask = mixFlags g (f &&& ~~~Flag.sleep.mask) := by
  apply BitVec.eq_of_getLsbD_eq
  intro j hlt
  simp only [BitVec.getLsbD_and, BitVec.getLsbD_not, mixFlags_getLsbD, mask_getLsbD]
  by_cases hj : j = 5 <;> simp [hj, hlt]

theorem mixFlags_of_sleep_eq {g f : BitVec 8} (h : g.getLsbD 5 = f.getLsbD 5) : mixFlags g f = g := by
  apply BitVec.eq_of_getLsbD_eq
  intro j _
  by_cases hj : j = 5
  · rw [mixFlags_getLsbD, if_pos hj, hj, h]
  · rw [mixFlags_getLsbD, if_neg hj]

/-- The state with another `sp` and the seven inert flags of `g`. -/
def State.reinert (p : Word) (g : BitVec 8) (s : State) : State :=
  { s with sp := p, flags := mixFlags g s.flags }

theorem reinert_flag_sleep (p : Word) (g : BitVec 8) (s : State) :
    (s.reinert p g).flag .sleep = s.flag .sleep := mixFlags_getLsbD g s.flags 5

theorem clearSleep_reinert (p : Word) (g : BitVec 8) (s : State) :
    (s.reinert p g).clearSleep = s.clearSleep.reinert p g := by
  simp only [State.clearSleep, State.reinert, mixFlags_clear]

theorem reinert_transparent (p : Word) (g : BitVec 8) : Transparent (State.reinert p g) where
  cfg _ := rfl
  regs _ := rfl
  rom _ := rfl
  ram _ := rfl
  halt _ := rfl
  startSleep s n := by
    simp only [State.startSleep, State.setSleep, State.reinert, mixFlags_set]
  setReg _ _ _ := rfl
  setRam _ _ := rfl

theorem wake_reinert (p : Word) (g : BitVec 8) (s : State) :
    wake (s.reinert p g) = (wake s).reinert p g := by
  simp only [wake, reinert_flag_sleep, clearSleep_reinert, apply_ite (State.reinert p g)]

theorem sleepTick_reinert (p : Word) (g : BitVec 8) (s : State) :
    sleepTick (s.reinert p g) = (sleepTick s).reinert p g := by
  simp only [sleepTick, clearSleep_reinert, apply_ite (State.reinert p g)]
  rfl

theorem cyclesAlike_reinert (p : Word) (g : BitVec 8) (s : State) :
    CyclesAlike s (s.reinert p g) (fun _ => State.reinert p g) where
  decode := fetchDecode_congr rfl rfl rfl rfl
  cfg := rfl
  transparent := fun _ => reinert_transparent p g
  decoded := fun i => by
    rw [wake_reinert]
    rfl

/-- A step keeps another `sp` and other inert flags and does otherwise the same. -/
theorem step_reinert {s t : State} (p : Word) (g : BitVec 8) (h : step s = .next t) :
    step (s.reinert p g) = .next (t.reinert p g) := by
  have halike := cyclesAlike_reinert p g s
  have hsleep := reinert_flag_sleep p g s
  rcases step_next h with ⟨hs, rfl⟩ | ⟨hf, hr, hs, hn, rfl⟩ |
    ⟨hf, hr, hs, ⟨c, hc, rfl⟩ | ⟨i, n, u, hc, rfl⟩⟩
  · exact step_stopped hs
  · rw [← sleepTick_reinert]
    exact step_tick hf hr (hsleep.trans hs) hn
  · rw [← hsleep] at hs
    exact step_fault (s := s.reinert p g) hf hr hs (halike.fault hc)
  · rw [← hsleep] at hs
    exact step_runs (s := s.reinert p g) hf hr hs (halike.runs hc)

/-- A step of a machine with other latches is the same step but for the latches. -/
theorem step_relatch {s t : State} (v : BitVec 16) (l1 l2 : Latch) (h : step s = .next t) :
    ∃ v' l1' l2', step (s.relatch v l1 l2) = .next (t.relatch v' l1' l2') := by
  have halike := cyclesAlike_relatch v l1 l2 s
  rcases step_next h with ⟨hs, rfl⟩ | ⟨hf, hr, hs, hn, rfl⟩ |
    ⟨hf, hr, hs, ⟨c, hc, rfl⟩ | ⟨i, n, u, hc, rfl⟩⟩
  · exact ⟨v, l1, l2, step_stopped hs⟩
  · refine ⟨v, l1, l2, ?_⟩
    rw [← sleepTick_relatch]
    exact step_tick hf hr hs hn
  · exact ⟨_, _, _, step_fault (s := s.relatch v l1 l2) hf hr hs (halike.fault hc)⟩
  · exact ⟨_, _, _, step_runs (s := s.relatch v l1 l2) hf hr hs (halike.runs hc)⟩

end Sys2Proof.Machine

namespace Sys2Proof.Claims

open Sys2Proof.Machine

/-! ### The statements of 10_state.md -/

/-- Settles O47, by the cases of `step_next`: each of a tick, a fault and a completed cycle keeps
`State.Inv`. -/
theorem stepKeepsTheInvariant : Obligations.StepKeepsTheInvariant := by
  intro s t hinv h
  rcases step_next h with ⟨_, rfl⟩ | ⟨hf, _, hs, _, rfl⟩ |
    ⟨hf, _, hs, ⟨f, _, rfl⟩ | ⟨i, n, u, hc, rfl⟩⟩
  · exact hinv
  · exact inv_sleepTick hinv hf hs
  · exact inv_raise hinv _ _
  · exact inv_completed hinv hf hs hc

/-- Settles O49: a completed instruction's bytes lie in the mapped range, and `ip` moves past
them. -/
theorem stepKeepsIpMapped : Obligations.StepKeepsIpMapped := by
  intro s t hw hip h ht
  rcases step_next h with ⟨_, rfl⟩ | ⟨hf, _, _, _, rfl⟩ |
    ⟨hf, _, _, ⟨f, _, rfl⟩ | ⟨i, n, u, hc, rfl⟩⟩
  · exact hip ht
  · simpa using hip hf
  · simp at ht
  · have hin := fetchDecode_inside hw hc.1
    have hto := hc.ip_toNat hw
    rw [State.countCycle_cfg, State.countCycle_ip, hc.cfg_eq]
    omega

/-- Settles O17: the source is read as its value, which then goes into the low bytes of the
register. -/
theorem moveIntoRegister : Obligations.MoveIntoRegister := by
  intro s w k x v i hi hwf hv
  obtain ⟨o, rfl⟩ := mem_moves.1 hi
  rw [ofMove_wf, Bool.and_eq_true] at hwf
  have hw : w ≠ 0 := by
    have := (widthOk_iff w).1 hwf.1
    omega
  refine ⟨_, exec_moveIntoRegister (srcValue_of_sourceIs hwf.2 hv), ?_, fun j hj => ?_, ?_⟩
  · rw [countCycle_reg, setRegLow_reg, if_pos rfl, decoded_reg, effWidth_pos _ hw, mergeLow_lowBytes,
      mergeLow_toNat]
  · rw [countCycle_reg, setRegLow_reg, if_neg (Ne.symm hj), decoded_reg]
  · simp [after, State.countCycle, State.setRegLow, State.setReg, State.decoded]

/-- Settles O32, by the cases of `step_next`: only the arm of `stop` touches `running`. -/
theorem runningIsClearedByStopOrFault : Obligations.RunningIsClearedByStopOrFault := by
  intro s t h
  refine ⟨fun hr => ?_, ?_⟩
  · rw [step_stopped (.inr hr)] at h
    cases h
    rfl
  rcases step_next h with ⟨_, rfl⟩ | ⟨hf, hr, _, _, rfl⟩ |
    ⟨hf, hr, _, ⟨f, _, rfl⟩ | ⟨i, n, u, hc, rfl⟩⟩
  · exact ⟨fun h1 h2 => absurd (h1.symm.trans h2) (by decide), fun h1 h2 => absurd h1 h2⟩
  · simp [hf, hr]
  · simp [hf]
  · refine ⟨fun _ ht => .inr ⟨n, ?_⟩, fun _ ht => absurd (hc.fault_eq.trans hf) ht⟩
    have hi : i = .stop := by
      by_contra hi
      have hu : u.running = true := by simpa [hr] using hc.frame.running hi
      exact absurd (hu.symm.trans ht) (by decide)
    exact hi ▸ hc.1

/-- Settles O33, by induction on the number of cycles. -/
theorem faultIsTerminal : Obligations.FaultIsTerminal := by
  intro s hs n
  have hstep : core.step s = .next s := step_stopped (.inl hs)
  induction n with
  | zero => rfl
  | succ n ih => simp only [Host.Core.run, hstep, ih]

/-- Settles O34, by the cases of `step_next`. -/
theorem cyclesCountCompletedCycles : Obligations.CyclesCountCompletedCycles := by
  intro s t h
  rcases step_next h with ⟨hs, rfl⟩ | ⟨hf, hr, _, _, rfl⟩ |
    ⟨hf, hr, _, ⟨f, _, rfl⟩ | ⟨i, n, u, hc, rfl⟩⟩
  · rw [if_pos (or_assoc.1 (.inl hs))]
  · simp [hf, hr]
  · simp
  · simp [hf, hr, hc.fault_eq, hc.cycles_eq]

/-- Settles O35, by the cases of `step_next`. -/
theorem noStepChangesRomSpOrInertFlags : Obligations.NoStepChangesRomSpOrInertFlags := by
  intro s t h
  rcases step_next h with ⟨_, rfl⟩ | ⟨_, _, _, _, rfl⟩ |
    ⟨_, _, _, ⟨f, _, rfl⟩ | ⟨i, n, u, hc, rfl⟩⟩
  · exact ⟨rfl, rfl, rfl, rfl⟩
  · exact ⟨sleepTick_rom s, sleepTick_sp s, sleepTick_inert s, sleepTick_cfg s⟩
  · exact ⟨rfl, rfl, rfl, rfl⟩
  · exact ⟨hc.rom_eq, hc.sp_eq, hc.inert_eq, hc.cfg_eq⟩

/-- Settles O36: among the arms only a move into the register changes it, and a fault changes
none. -/
theorem onlyMovesWriteRegisters : Obligations.OnlyMovesWriteRegisters := by
  intro i s t k h hk
  rcases exec_next h with ⟨u, hu, rfl⟩ | ⟨f, _, rfl⟩
  · obtain ⟨o, w, x, hi⟩ := armOf_reg_changed hu hk
    exact ⟨w, x, mem_moves.2 ⟨o, hi⟩⟩
  · exact absurd rfl hk

/-- Settles O38: among the arms only a sleep's sets the timer, and a fault leaves it. -/
theorem onlySleepsSetTheTimer : Obligations.OnlySleepsSetTheTimer := by
  intro i s t h hne
  rcases exec_next h with ⟨u, hu, rfl⟩ | ⟨f, _, rfl⟩
  · rcases armOf_timer hu with ⟨hf, hc⟩ | ⟨⟨o, x, hi⟩, _⟩
    · exact absurd hne (by simp [hf, hc])
    · exact ⟨x, mem_sleeps.2 ⟨o, hi⟩⟩
  · exact absurd hne (by simp)

/-- Settles O42: `raise` is the one case of `step_next` that touches a sticky bit. -/
theorem stickyBitsFollowOverruns : Obligations.StickyBitsFollowOverruns := by
  intro s t h
  rcases step_next h with ⟨hs, rfl⟩ | ⟨hf, _, _, _, rfl⟩ |
    ⟨hf, hr, _, ⟨f, _, rfl⟩ | ⟨i, n, u, hc, rfl⟩⟩
  · rcases hs with hs | hs <;> simp [hs]
  · simp [hf]
  · simp [hf, hr, FaultCause.record]
  · simp [hf, hc.fault_eq, hc.romErr_eq, hc.ramErr_eq]

/-- Settles O43: a completed cycle advances `ip` by the instruction's length, which is 1 to 20. -/
theorem ipOnlyAdvances : Obligations.IpOnlyAdvances := by
  intro s t hw h ht
  rcases step_next h with ⟨hs, rfl⟩ | ⟨_, _, hs, hn, rfl⟩ |
    ⟨hf, hr, hs, ⟨f, _, rfl⟩ | ⟨i, n, u, hc, rfl⟩⟩
  · refine ⟨fun _ => rfl, fun ⟨hf, hr, _⟩ => ?_⟩
    simp [hf, hr] at hs
  · exact ⟨fun _ => sleepTick_ip s, fun ⟨_, _, hawake⟩ => absurd ⟨hs, hn⟩ hawake⟩
  · simp at ht
  · refine ⟨fun hready => absurd ⟨hf, hr, hs⟩ hready, fun _ => ⟨i, n, hc.1, ?_⟩⟩
    obtain ⟨hi, hlen⟩ := fetchDecode_wf hw hc.1
    have hrange := length_range (c := s.cfg) hi
    exact ⟨hlen, hlen ▸ hrange.1, hlen ▸ hrange.2, hc.ip_toNat hw⟩

/-- Settles O44: a change of the latches is transparent to every cycle. -/
theorem latchesCarryNothing : Obligations.LatchesCarryNothing := by
  intro s t v l1 l2 h
  obtain ⟨v', l1', l2', ht⟩ := step_relatch v l1 l2 h
  exact ⟨_, ht, rfl⟩

/-- Settles O45: a change of `sp` and the inert flags is transparent to every cycle. -/
theorem spAndInertFlagsSteerNothing : Obligations.SpAndInertFlagsSteerNothing := by
  intro s t p g hg h
  have hs : s.reinert p g = { s with sp := p, flags := g } := by
    rw [State.reinert, mixFlags_of_sleep_eq hg]
  rw [← hs]
  exact step_reinert p g h

end Sys2Proof.Claims
end

section
/-! SUPPORT. What the proofs of the memory's rules (20_memory.md) share: the bytes of a read and of a store,
the fault of an unreadable source and of an unwritable destination, the host's port, and the item of the
instruction stream at which a fetch faults. -/

namespace Sys2Proof.Machine

open Sys2Proof.Claims

/-! ### Reads and the bytes at their addresses -/

theorem inOneRegion_iff {c : Config} {a n : Nat} :
    InOneRegion c a n ↔ ∃ r : Region, r.base c ≤ a ∧ a + n ≤ r.base c + r.size c := by
  constructor
  · rintro (h | h)
    exacts [⟨.rom, h⟩, ⟨.ram, h⟩]
  · rintro ⟨_ | _, h⟩
    exacts [.inl h, .inr h]

/-- A read inside one region answers (20_memory.md R66). -/
theorem memRead_of_inOneRegion {s : State} {a : Word} {n : Nat} (h1 : 1 ≤ n)
    (h : InOneRegion s.cfg a.toNat n) (x : Access) : ∃ v, memRead s a n x = .ok v := by
  obtain ⟨r, hlo, hhi⟩ := inOneRegion_iff.1 h
  exact ⟨_, memRead_of_inside (route_eq_some.2 ⟨hlo, by omega⟩) (by omega)⟩

/-- A read that starts in a region and ends beyond it, by absolute addresses (20_memory.md R66). -/
theorem memRead_of_straddle {s : State} {a : Word} {n : Nat} {r : Region}
    (hr : route s.cfg a.toNat = some r) (hn : r.base s.cfg + r.size s.cfg < a.toNat + n) (x : Access) :
    memRead s a n x = .error (regionOverrun r a n x) := by
  have := route_eq_some.1 hr
  exact memRead_of_overrun hr (by omega)

/-- Each byte of what a read answers is the byte at its address (20_memory.md R70). -/
theorem byteAt_of_memRead {s : State} {a v : Word} {n j : Nat} {x : Access}
    (h : memRead s a n x = .ok v) (h8 : n ≤ 8) (hj : j < n) :
    s.byteAt (a.toNat + j) = some (byte v j) := by
  obtain ⟨r, hr, hfit, rfl⟩ := memRead_ok h
  rw [byteAt_inside hr hfit hj, byte, readLE_byte _ _ _ _ hj h8]

/-- A byte that is there is below `TOP` (20_memory.md R62). -/
theorem lt_top_of_byteAt {s : State} {a : Nat} {b : Byte} (h : s.byteAt a = some b) :
    a < s.cfg.top := by
  obtain ⟨r, hr, _⟩ := Option.map_eq_some_iff.1 h
  have := route_eq_some.1 hr
  have := base_size_le_top s.cfg r
  omega

/-- One byte that is there, as a value (20_memory.md R70). -/
theorem holdsValue_of_byteAt {s : State} {a : Nat} {b : Byte} (h : s.byteAt a = some b) :
    HoldsValue s a 1 (b.setWidth 64) := by
  obtain ⟨r, hr, _⟩ := Option.map_eq_some_iff.1 h
  refine ⟨inOneRegion_iff.2 ⟨r, route_eq_some.1 hr⟩, ?_, fun j hj => ?_⟩
  · have := b.isLt
    rw [BitVec.toNat_setWidth]
    omega
  · obtain rfl : j = 0 := by omega
    rw [Nat.add_zero, h]
    exact congrArg some (setWidth_8_64 b).symm

/-- Little-endian bytes in one region hold their value (20_memory.md R70). -/
theorem holdsValue_of_leBytes {s : State} {a n : Nat} {v : Word} (hin : InOneRegion s.cfg a n)
    (hv : v.toNat < 2 ^ (8 * n)) (h : BytesAt s a (leBytes n v)) : HoldsValue s a n v := by
  refine ⟨hin, hv, fun j hj => ?_⟩
  have hj' : j < (leBytes n v).length := by simpa using hj
  rw [h j hj', leBytes_getElem, byte]

/-- The later bytes of those that stand somewhere. -/
theorem bytesAt_append_right {s : State} {a : Nat} {bs cs : List Byte} (h : BytesAt s a (bs ++ cs)) :
    BytesAt s (a + bs.length) cs := by
  intro k hk
  have hlen : bs.length + k < (bs ++ cs).length := by
    rw [List.length_append]
    omega
  rw [Nat.add_assoc, h _ hlen, List.getElem_append_right (by omega)]
  simp only [Nat.add_sub_cancel_left]

/-! ### Stores to RAM -/

/-- With another RAM store the bytes outside RAM stay. -/
theorem byteAt_setRam (s : State) (m : Memory) (b : Nat) :
    (s.setRam m).byteAt b =
      if route s.cfg b = some .ram then some (m.get (b - s.cfg.ramBase)) else s.byteAt b := by
  simp only [State.byteAt, State.setRam_cfg]
  cases route s.cfg b with
  | none => rfl
  | some r => cases r <;> rfl

/-- Bytes stored in RAM, by absolute address (20_memory.md R82). -/
theorem byteAt_setBytes {s : State} (hm : s.ram.wf s.cfg.ramSize = true) {a : Nat} {bytes : List Byte}
    (hlo : s.cfg.ramBase ≤ a) (hhi : a + bytes.length ≤ s.cfg.top) (b : Nat) :
    (s.setRam (s.ram.setBytes (a - s.cfg.ramBase) bytes)).byteAt b =
      if a ≤ b ∧ b < a + bytes.length then some (bytes.getD (b - a) 0) else s.byteAt b := by
  have htop : s.cfg.top = s.cfg.ramBase + s.cfg.ramSize := rfl
  rw [byteAt_setRam, get_setBytes hm _ _ (by omega)]
  by_cases hr : route s.cfg b = some .ram
  · have hb : s.cfg.ramBase ≤ b := (route_eq_some.1 hr).1
    rw [if_pos hr, byteAt_of_route hr]
    by_cases hin : a ≤ b ∧ b < a + bytes.length
    · rw [if_pos (by omega), if_pos hin]
      congr 2
      omega
    · rw [if_neg (by omega), if_neg hin]
      rfl
  · rw [if_neg hr, if_neg]
    exact fun hin => hr (route_eq_some.2 ⟨hlo.trans hin.1, hin.2.trans_le hhi⟩)

/-- A byte that keeps its place among the low bytes of a value keeps its value (42_move.md R195). -/
theorem byte_lowBytes {n j : Nat} (v : Word) (hj : j < n) : byte (lowBytes n v) j = byte v j := by
  apply BitVec.eq_of_getLsbD_eq
  intro k hk
  rw [byte, byte, extract_getLsbD _ _ _ hk, extract_getLsbD _ _ _ hk, lowBytes_getLsbD,
    decide_eq_true (by omega : 8 * j + k < 8 * n), Bool.true_and]

/-! ### Operands in memory -/

theorem srcValue_of_place {s : State} {x : Operand} {a : Word} {n : Nat} (h : MemoryPlace s x a n)
    (nominal : Option Nat) : srcValue nominal x s = memRead s a n .read := by
  rcases h with rfl | ⟨k, rfl, rfl⟩ <;> rfl

theorem dstWrite_of_place {s : State} {d : Operand} {a : Word} {n : Nat} (h : MemoryPlace s d a n)
    (v : Word) : dstWrite d v s = memWrite s a n v := by
  rcases h with rfl | ⟨k, rfl, rfl⟩ <;> rfl

theorem place_not_imm {s : State} {d : Operand} {a : Word} {n : Nat} (h : MemoryPlace s d a n)
    (w : Nat) (v : Word) : d ≠ .i w v := by
  rcases h with rfl | ⟨k, rfl, rfl⟩ <;> exact Operand.noConfusion

/-- The width of a well-formed operand in memory is that of its place (42_move.md R182). -/
theorem place_width {s : State} {d : Operand} {a : Word} {n : Nat} (h : MemoryPlace s d a n)
    {nominal : Option Nat} (hd : d.wf nominal = true) : d.width nominal = n := by
  rcases h with rfl | ⟨k, rfl, rfl⟩
  · rw [Operand.wf, Bool.and_eq_true, widthOk_iff] at hd
    rw [width_mi, effWidth_pos _ (by omega)]
  · have := (widthOk_iff n).1 hd
    rw [width_mr, effWidth_pos _ (by omega)]

theorem place_of_effAddr {s : State} {d : Operand} {a : Word} (h : effAddr s d = some a) :
    MemoryPlace s d a d.desc.width := by
  cases d with
  | r w k => cases h
  | i w v => cases h
  | mi w b => cases h; exact .inl rfl
  | mr w k => cases h; exact .inr ⟨k, rfl, rfl⟩

/-- A move whose source is read writes its low bytes at its destination's place (42_move.md R185). -/
theorem armOf_moveToPlace {s : State} {o : MoveOp} {d x : Operand} {v a : Word} {n : Nat}
    (hx : srcValue (some o.nominal) x s = .ok v) (hd : MemoryPlace s d a n) :
    armOf (Instr.ofMove o d x) s (s.decoded (Instr.ofMove o d x)) =
      memWrite (s.decoded (Instr.ofMove o d x)) a n (lowBytes (d.width (some o.nominal)) v) := by
  have hplace : MemoryPlace (s.decoded (Instr.ofMove o d x)) d a n := hd
  rw [armOf_ofMove, moveArm, moveValue_not_imm (place_not_imm hd), srcValue_decoded, hx]
  exact dstWrite_of_place hplace _

/-- An unreadable source is the fault of a sleep, and of a move that looks at its source
(42_move.md R183, R185). -/
theorem armOf_unreadable {s : State} {i : Instr} {d x : Operand} {f : FaultCause}
    (hi : i ∈ sleeps x ∨ (i ∈ moves d x ∧ d.desc.mode ≠ .i))
    (hx : ∀ nominal, srcValue nominal x s = .error f) : armOf i s (s.decoded i) = .error f := by
  rcases hi with hi | ⟨hi, hd⟩
  · obtain ⟨o, rfl⟩ := mem_sleeps.1 hi
    rw [armOf_ofSleep, sleepArm, srcValue_decoded, hx]
  · obtain ⟨o, rfl⟩ := mem_moves.1 hi
    have himm : ∀ w v, d ≠ .i w v := fun w v h => hd (congrArg (·.desc.mode) h)
    rw [armOf_ofMove, moveArm, moveValue_not_imm himm, srcValue_decoded, hx]

/-- Only a move into memory changes a byte, and it is one of those it stores to in RAM
(20_memory.md R87). -/
theorem armOf_byte_changed {i : Instr} {s u t : State} {b : Nat} (h : armOf i s u = .ok t)
    (hm : u.ram.wf u.cfg.ramSize = true) (hb : t.byteAt b ≠ u.byteAt b) :
    ∃ o d x a n, i = Instr.ofMove o d x ∧ MemoryPlace u d a n ∧ a.toNat ≤ b ∧ b < a.toNat + n ∧
      route u.cfg b = some .ram := by
  rcases armOf_ok h with ⟨rfl, _⟩ | ⟨rfl, _⟩ | ⟨_, _, _, _, _, rfl⟩ |
    ⟨_, _, _, _, _, _, _, rfl⟩ | ⟨o, d, x, v, a, hi, _, ha, hr, hfit, rfl⟩
  · exact absurd rfl hb
  · exact absurd rfl hb
  · exact absurd rfl hb
  · exact absurd rfl hb
  · rw [byteAt_writeLE hm _ hr hfit] at hb
    have hin : a.toNat ≤ b ∧ b < a.toNat + d.desc.width := by
      by_contra hout
      exact hb (if_neg hout)
    have hram := route_eq_some.1 hr
    simp only [Region.base, Region.size] at hram
    exact ⟨o, d, x, a, _, hi, place_of_effAddr ha, hin.1, hin.2,
      route_eq_some.2 ⟨hram.1.trans hin.1, by simp only [Region.base, Region.size]; omega⟩⟩

/-! ### Faults and their records -/

theorem regionOverrun_record (r : Region) (a : Word) (n : Nat) (x : Access) (insnIp : Word) :
    (regionOverrun r a n x).record insnIp = memoryFault (overrunKind r) a n x insnIp := by
  cases r <;> rfl

/-- A fault taken from the start of the cycle is the fault entry of 60_exceptions.md R230. -/
theorem faulted_raise {s : State} (hf : s.fault = none) (f : FaultCause) :
    Faulted s (raise s.ip f s) (f.record s.ip) where
  fault := by rw [raise_fault, hf]; rfl
  running := rfl
  regs := rfl
  rom := rfl
  ram := rfl
  flags := rfl
  sp := rfl
  countdown := rfl
  cycles := rfl
  cfg := rfl
  romErr := rfl
  ramErr := rfl

/-- The fault of an execute arm is taken (40_cycle_fetch_decode.md R149). -/
theorem exec_faults {i : Instr} {s : State} {f : FaultCause} (hf : s.fault = none)
    (h : armOf i s (s.decoded i) = .error f) :
    ∃ t, exec i s = .next t ∧ Faulted s t (f.record s.ip) := by
  rw [exec_eq]
  exact ⟨_, normalCycle_of_error h, faulted_raise hf f⟩

/-- The fault of a fetch or decode is taken (40_cycle_fetch_decode.md R149). -/
theorem stepFaults_of_fetchDecode {s : State} {f : FaultCause} (hs : Ready s)
    (h : fetchDecode s = .error f) : StepFaults s (f.record s.ip) := by
  obtain ⟨hf, hr, hawake⟩ := hs
  exact ⟨_, step_fault hf hr hawake (.inl h), faulted_raise hf f⟩

/-! ### The host's port -/

/-- The check of a region's port passes exactly inside the region (20_memory.md R65). -/
theorem regionCheck_iff {c : Config} {r : Region} {a n : Nat} (hn : 1 ≤ n) :
    regionCheck c r a n = true ↔ r.base c ≤ a ∧ a + n ≤ r.base c + r.size c := by
  simp only [regionCheck, Bool.and_eq_true, decide_eq_true_eq]
  omega

theorem hostRead_of_inside {s : State} {r : Region} {a n : Nat} (hn : 1 ≤ n) (hlo : r.base s.cfg ≤ a)
    (hhi : a + n ≤ r.base s.cfg + r.size s.cfg) :
    hostRead r a n s = .next ((s.store r).readBytes (a - r.base s.cfg) n, s) :=
  if_pos ((regionCheck_iff hn).2 ⟨hlo, hhi⟩)

theorem hostWrite_of_inside {s : State} {a : Nat} {bytes : List Byte} (hne : bytes ≠ [])
    (hlo : s.cfg.ramBase ≤ a) (hhi : a + bytes.length ≤ s.cfg.top) :
    hostWrite a bytes s = .next (s.setRam (s.ram.setBytes (a - s.cfg.ramBase) bytes)) :=
  if_pos ((regionCheck_iff (List.length_pos_iff.2 hne)).2 ⟨hlo, hhi⟩)

/-- The bytes that a region's store gives for a place inside it stand at that place. -/
theorem bytesAt_readBytes {s : State} {r : Region} {a n : Nat} (hlo : r.base s.cfg ≤ a)
    (hhi : a + n ≤ r.base s.cfg + r.size s.cfg) :
    BytesAt s a ((s.store r).readBytes (a - r.base s.cfg) n) := by
  intro k hk
  have hkn : k < n := by rwa [readBytes_length] at hk
  rw [byteAt_inside (route_eq_some.2 ⟨hlo, by omega⟩) (by omega) hkn, ← List.getD_eq_getElem _ 0,
    readBytes_getD _ _ _ _ hkn]

/-- Bytes that stand at the same place in the same number are the same. -/
theorem eq_of_bytesAt {s : State} {a : Nat} {bs cs : List Byte} (hlen : bs.length = cs.length)
    (hb : BytesAt s a bs) (hc : BytesAt s a cs) : bs = cs :=
  List.ext_getElem hlen fun k h1 h2 => Option.some.inj ((hb k h1).symm.trans (hc k h2))

/-! ### The items of the instruction stream -/

section Readers
variable {ε : Type} {c : Config} {bad : DecodeError → ε} {read : Nat → Nat → Except ε Word}

/-- What follows the opcode of a sleep (40_cycle_fetch_decode.md R147). -/
theorem decodeWith_sleep (hc : c.wf = true) {p : Nat} {o : SleepOp}
    (hf : fetchOpcode read = .ok (c.opcodeOf (.sleep o), p)) :
    decodeWith c bad read = (do
      let d ← fetchDesc c bad read none p
      let x ← fetchOperand bad read none (p + 1) d
      pure (Instr.ofSleep o x, p + 1 + x.dataBytes none)) := by
  rw [decodeWith, bind_of_ok hf]
  simp only [(operationOf_opcodeOf (wf_opcodesOk hc) _).1]

/-- What follows the opcode of a move (40_cycle_fetch_decode.md R147). -/
theorem decodeWith_move (hc : c.wf = true) {p : Nat} {o : MoveOp}
    (hf : fetchOpcode read = .ok (c.opcodeOf (.move o), p)) :
    decodeWith c bad read = (do
      let d1 ← fetchDesc c bad read (some o.nominal) p
      let d2 ← fetchDesc c bad read (some o.nominal) (p + 1)
      let x1 ← fetchOperand bad read (some o.nominal) (p + 2) d1
      let x2 ← fetchOperand bad read (some o.nominal) (p + 2 + x1.dataBytes (some o.nominal)) d2
      pure (Instr.ofMove o x1 x2,
        p + 2 + x1.dataBytes (some o.nominal) + x2.dataBytes (some o.nominal))) := by
  rw [decodeWith, bind_of_ok hf]
  simp only [(operationOf_opcodeOf (wf_opcodesOk hc) _).1]

theorem fetchDesc_of_error {nominal : Option Nat} {off : Nat} {f : ε} (h : read off 1 = .error f) :
    fetchDesc c bad read nominal off = .error f := bind_of_error h _

/-- The data field of a legal descriptor has its field length (30_encoding.md R115, R116). -/
theorem dataLength_eq_fieldLength {nominal : Option Nat} {d : Desc} (hd : d ∈ Desc.all) :
    dataLength d.mode (effWidth nominal d.width) = fieldLength (nominal.getD 0) d := by
  obtain ⟨m, w⟩ := d
  cases m with
  | r => rfl
  | mr => rfl
  | i => rfl
  | mi =>
    have hw : w ≠ 0 := by
      rcases (mem_all_descs _).1 hd with hw | hw
      · have := (widthOk_iff w).1 hw
        omega
      · cases hw
    exact effWidth_pos _ hw

theorem fetchOperand_of_error {nominal : Option Nat} {off : Nat} {d : Desc} {f : ε}
    (hd : d ∈ Desc.all) (h : read off (fieldLength (nominal.getD 0) d) = .error f) :
    fetchOperand bad read nominal off d = .error f := by
  rw [← dataLength_eq_fieldLength hd] at h
  exact bind_of_error h _

end Readers

/-- The number of data bytes of a well-formed operand is its descriptor's field length
(30_encoding.md R116). -/
theorem fieldLength_desc {nominal : Nat} {d : Operand} (hd : d.wf (some nominal) = true) :
    fieldLength nominal d.desc = d.dataBytes (some nominal) :=
  (dataLength_eq_fieldLength (nominal := some nominal) (wf_desc hd).1).symm

/-! ### Items that stand in memory -/

section Stream
variable {s : State}

/-- An address up to the end of bytes that stand at `ip` does not wrap (20_memory.md R69). -/
theorem ip_add_toNat (hc : s.cfg.wf = true) {bytes : List Byte} (hb : BytesAt s s.ip.toNat bytes)
    {off : Nat} (ho : off ≤ bytes.length) :
    (s.ip + BitVec.ofNat 64 off).toNat = s.ip.toNat + off := by
  have htop := (wf_sizes hc).2.2.1
  have hip := s.ip.isLt
  rw [BitVec.toNat_add, BitVec.toNat_ofNat]
  cases off with
  | zero => omega
  | succ k =>
    have := lt_top_of_byteAt (hb k ho)
    omega

/-- An item that stands in the stream is fetched (40_cycle_fetch_decode.md R142). -/
theorem fetchAt_of_holdsValue (hc : s.cfg.wf = true) {bytes : List Byte}
    (hb : BytesAt s s.ip.toNat bytes) {off n : Nat} {v : Word} (ho : off ≤ bytes.length)
    (hv : HoldsValue s (s.ip.toNat + off) n v) (h1 : 1 ≤ n) (h8 : n ≤ 8) :
    fetchAt s off n = .ok v := by
  rw [← ip_add_toNat hc hb ho] at hv
  exact memRead_of_holdsValue hv h1 h8 .fetch

theorem fetchAt_byte (hc : s.cfg.wf = true) {bytes : List Byte} (hb : BytesAt s s.ip.toNat bytes)
    {k : Nat} (hk : k < bytes.length) : fetchAt s k 1 = .ok (bytes[k].setWidth 64) :=
  fetchAt_of_holdsValue hc hb hk.le (holdsValue_of_byteAt (hb k hk)) le_rfl (by decide)

end Stream

end Sys2Proof.Machine

namespace Sys2Proof.Claims

open Sys2Proof.Machine

section Stands
variable {s : State} {o : Operation} {ds : List Desc} {rest : List Byte}

/-- The opcode that stands at `ip` is fetched (40_cycle_fetch_decode.md R143). -/
theorem StandsAtIp.opcode_fetched (h : StandsAtIp s o ds rest) (hc : s.cfg.wf = true) :
    fetchOpcode (fetchAt s) = .ok (s.cfg.opcodeOf o, s.cfg.opcodeLength o) := by
  rw [← opcodeBytes_length]
  refine fetchOpcode_of_bytes (operationOf_opcodeOf (wf_opcodesOk hc) o).2 fun k hk => ?_
  rw [fetchAt_byte hc h (by simp only [List.length_append]; omega)]
  simp [List.getElem_append_left, hk]

/-- A descriptor that stands after the opcode is fetched (40_cycle_fetch_decode.md R145). -/
theorem StandsAtIp.desc_fetched (h : StandsAtIp s o ds rest) (hc : s.cfg.wf = true) {j : Nat}
    (hj : j < ds.length) (hd : ds[j] ∈ Desc.all) {nominal : Option Nat}
    (hw : ¬ (ds[j].width = 0 ∧ nominal = none)) :
    fetchDesc s.cfg decodeFault (fetchAt s) nominal (s.cfg.opcodeLength o + j) = .ok ds[j] := by
  refine fetchDesc_of_byte ?_ (descOf_byteOf (wf_descriptorsOk hc) hd) hw
  rw [← opcodeBytes_length,
    fetchAt_byte hc h (by simp only [List.length_append, List.length_map]; omega)]
  simp [List.getElem_append_left, List.getElem_append_right, hj]

theorem StandsAtIp.firstDesc_fetched {d : Desc} (h : StandsAtIp s o (d :: ds) rest) (hc : s.cfg.wf = true)
    (hd : d ∈ Desc.all) {nominal : Option Nat} (hw : ¬ (d.width = 0 ∧ nominal = none)) :
    fetchDesc s.cfg decodeFault (fetchAt s) nominal (s.cfg.opcodeLength o) = .ok d :=
  h.desc_fetched hc (j := 0) (by simp) hd hw

theorem StandsAtIp.secondDesc_fetched {d1 d : Desc} (h : StandsAtIp s o (d1 :: d :: ds) rest)
    (hc : s.cfg.wf = true) (hd : d ∈ Desc.all) {nominal : Option Nat}
    (hw : ¬ (d.width = 0 ∧ nominal = none)) :
    fetchDesc s.cfg decodeFault (fetchAt s) nominal (s.cfg.opcodeLength o + 1) = .ok d :=
  h.desc_fetched hc (j := 1) (by simp) hd hw

/-- An operand whose data stands after the descriptors, in one region, is fetched
(40_cycle_fetch_decode.md R146). -/
theorem StandsAtIp.operand_fetched {d : Operand} {nominal : Option Nat}
    (h : StandsAtIp s o ds (d.encode nominal)) (hc : s.cfg.wf = true) (hn : nominalOk nominal)
    (hd : d.wf nominal = true) {off : Nat} (hoff : s.cfg.opcodeLength o + ds.length = off)
    (hin : InOneRegion s.cfg (s.ip.toNat + off) (d.dataBytes nominal)) :
    fetchOperand decodeFault (fetchAt s) nominal off d.desc = .ok d := by
  obtain ⟨h1, h8⟩ := dataBytes_range hn hd
  have hfront : (opcodeBytes (s.cfg.opcodeOf o) ++ ds.map s.cfg.byteOf).length = off := by
    simp [opcodeBytes_length, hoff]
  have hdata : BytesAt s (s.ip.toNat + off) (leBytes (d.dataBytes nominal) d.raw) := by
    rw [← hfront]
    exact bytesAt_append_right h
  refine fetchOperand_of_data (fetchAt_of_holdsValue hc h ?_ ?_ h1 h8)
  · rw [List.length_append, hfront]
    omega
  · exact holdsValue_of_leBytes hin (raw_fits hd) hdata

end Stands

/-! ### The item at which a fetch faults -/

/-- The decode at `ip` asks for the `n` bytes at this offset: the fault of their fetch is its own. -/
def Asks (s : State) (off n : Nat) : Prop :=
  ∀ f, fetchAt s off n = .error f → fetchDecode s = .error f

section Items
variable {s : State} {e e2 : Desc}

theorem asks_opcode (s : State) : Asks s 0 1 := fun _ hf => bind_of_error (bind_of_error hf _) _

theorem StandsAtIp.asks_sleepDesc {o : SleepOp} (h : StandsAtIp s (.sleep o) [] [])
    (hc : s.cfg.wf = true) : Asks s (s.cfg.opcodeLength (.sleep o)) 1 := by
  intro f hf
  rw [fetchDecode, decodeWith_sleep hc (h.opcode_fetched hc)]
  exact bind_of_error (fetchDesc_of_error hf) _

theorem StandsAtIp.asks_sleepField {o : SleepOp} (h : StandsAtIp s (.sleep o) [e] [])
    (hc : s.cfg.wf = true) (he : e ∈ Desc.all) (hw : e.width ≠ 0) :
    Asks s (s.cfg.opcodeLength (.sleep o) + 1) (fieldLength 0 e) := by
  intro f hf
  rw [fetchDecode, decodeWith_sleep hc (h.opcode_fetched hc),
    bind_of_ok (h.firstDesc_fetched hc he fun hz => hw hz.1)]
  exact bind_of_error (fetchOperand_of_error (nominal := none) he hf) _

theorem StandsAtIp.asks_moveDesc {o : MoveOp} (h : StandsAtIp s (.move o) [] [])
    (hc : s.cfg.wf = true) : Asks s (s.cfg.opcodeLength (.move o)) 1 := by
  intro f hf
  rw [fetchDecode, decodeWith_move hc (h.opcode_fetched hc)]
  exact bind_of_error (fetchDesc_of_error hf) _

theorem StandsAtIp.asks_moveSecondDesc {o : MoveOp} (h : StandsAtIp s (.move o) [e] [])
    (hc : s.cfg.wf = true) (he : e ∈ Desc.all) :
    Asks s (s.cfg.opcodeLength (.move o) + 1) 1 := by
  intro f hf
  rw [fetchDecode, decodeWith_move hc (h.opcode_fetched hc),
    bind_of_ok (h.firstDesc_fetched hc he (by simp))]
  exact bind_of_error (fetchDesc_of_error hf) _

theorem StandsAtIp.asks_moveField {o : MoveOp} (h : StandsAtIp s (.move o) [e, e2] [])
    (hc : s.cfg.wf = true) (he : e ∈ Desc.all) (he2 : e2 ∈ Desc.all) :
    Asks s (s.cfg.opcodeLength (.move o) + 2) (fieldLength o.nominal e) := by
  intro f hf
  rw [fetchDecode, decodeWith_move hc (h.opcode_fetched hc),
    bind_of_ok (h.firstDesc_fetched hc he (by simp)),
    bind_of_ok (h.secondDesc_fetched hc he2 (by simp))]
  exact bind_of_error (fetchOperand_of_error (nominal := some o.nominal) he hf) _

theorem StandsAtIp.asks_moveSecondField {o : MoveOp} {d : Operand}
    (h : StandsAtIp s (.move o) [d.desc, e] (d.encode (some o.nominal))) (hc : s.cfg.wf = true)
    (hd : d.wf (some o.nominal) = true) (he : e ∈ Desc.all)
    (hin : InOneRegion s.cfg (s.ip.toNat + (s.cfg.opcodeLength (.move o) + 2))
      (fieldLength o.nominal d.desc)) :
    Asks s (s.cfg.opcodeLength (.move o) + 2 + fieldLength o.nominal d.desc)
      (fieldLength o.nominal e) := by
  rw [fieldLength_desc hd] at hin ⊢
  have hdata := h.operand_fetched hc (nominalOk_operation (.move o)) hd
    (off := s.cfg.opcodeLength (.move o) + 2) rfl hin
  intro f hf
  rw [fetchDecode, decodeWith_move hc (h.opcode_fetched hc),
    bind_of_ok (h.firstDesc_fetched hc (wf_desc hd).1 (by simp)),
    bind_of_ok (h.secondDesc_fetched hc he (by simp)),
    bind_of_ok hdata]
  exact bind_of_error (fetchOperand_of_error (nominal := some o.nominal) he hf) _

end Items

section Faulting
variable {s : State} {o : Operation} {ds : List Desc} {rest : List Byte} {off n : Nat}

/-- The end of what stands at `ip` is at an address that does not wrap (20_memory.md R69). -/
theorem StandsAtIp.end_toNat (h : StandsAtIp s o ds rest) (hc : s.cfg.wf = true)
    (hoff : s.cfg.opcodeLength o + ds.length + rest.length = off) :
    (s.ip + BitVec.ofNat 64 off).toNat = s.ip.toNat + off := by
  refine ip_add_toNat hc h (le_of_eq ?_)
  simp [← hoff, opcodeBytes_length, Nat.add_assoc]

/-- The item asked for after what stands at `ip`, in no region (60_exceptions.md R222). -/
theorem StandsAtIp.outsideFaults (h : StandsAtIp s o ds rest) (hc : s.cfg.wf = true) (hs : Ready s)
    (hoff : s.cfg.opcodeLength o + ds.length + rest.length = off) (hask : Asks s off n) :
    OutsideFaults s off n := by
  intro hnone
  rw [← h.end_toNat hc hoff] at hnone
  exact stepFaults_of_fetchDecode hs (hask _ (memRead_of_none hnone))

/-- The item asked for after what stands at `ip`, overrunning its region (60_exceptions.md R229,
R231). -/
theorem StandsAtIp.straddleFaults (h : StandsAtIp s o ds rest) (hc : s.cfg.wf = true) (hs : Ready s)
    (hoff : s.cfg.opcodeLength o + ds.length + rest.length = off) (hask : Asks s off n) :
    StraddleFaults s off n := by
  intro r hr hover
  rw [← h.end_toNat hc hoff] at hr hover
  rw [← regionOverrun_record]
  exact stepFaults_of_fetchDecode hs (hask _ (memRead_of_straddle hr hover .fetch))

end Faulting

theorem encode_length_eq_fieldLength {nominal : Nat} {d : Operand} (hd : d.wf (some nominal) = true) :
    (d.encode (some nominal)).length = fieldLength nominal d.desc := by
  rw [fieldLength_desc hd, Operand.encode, leBytes_length]

/-! ### The statements of 20_memory.md -/

/-- Settles O8: a read inside one region answers, and each byte of it is the one at its address. -/
theorem readIsLittleEndian : Obligations.ReadIsLittleEndian := by
  intro s a n x h1 h8 hin
  obtain ⟨v, hv⟩ := memRead_of_inOneRegion h1 hin x
  exact ⟨v, hv, hin, memRead_fit hv, fun j hj => byteAt_of_memRead hv h8 hj⟩

/-- Settles O10: each byte of the read is the byte at its address, and a store changes those it covers. -/
theorem storeIsSeenByLaterReads : Obligations.StoreIsSeenByLaterReads := by
  intro s t a b n m v w x hm _ h8 hwrite hread j hj
  obtain ⟨hr, hfit, rfl⟩ := memWrite_ok hwrite
  rw [← byteAt_of_memRead hread h8 hj]
  exact byteAt_writeLE hm v hr hfit _

/-- Settles O18: the move writes the low bytes of the value at the place, and the store is seen byte by
byte. -/
theorem moveIntoMemory : Obligations.MoveIntoMemory := by
  intro s d x a n v i hi hwf hm hv hplace hlo hhi
  obtain ⟨o, rfl⟩ := mem_moves.1 hi
  rw [ofMove_wf, Bool.and_eq_true] at hwf
  obtain ⟨hdwf, hxwf⟩ := hwf
  have hnominal := nominalOk_operation (.move o)
  have hwidth : d.width (some o.nominal) = n := place_width hplace hdwf
  have hn : 1 ≤ n := hwidth ▸ (width_range hnominal hdwf).1
  have hr : route s.cfg a.toNat = some .ram :=
    route_eq_some.2 ⟨hlo, (Nat.lt_add_of_pos_right hn).trans_le hhi⟩
  have hfit : (a.toNat - s.cfg.ramBase) + n ≤ s.cfg.ramSize := by
    have htop : s.cfg.top = s.cfg.ramBase + s.cfg.ramSize := rfl
    omega
  have harm := (armOf_moveToPlace (srcValue_of_sourceIs hxwf hv) hplace).trans
    (memWrite_of_inside hr hfit)
  rw [hwidth] at harm
  have hbyte := byteAt_writeLE hm (lowBytes n v) hr hfit
  refine ⟨_, (exec_eq _ s).trans (normalCycle_of_ok harm), fun j hj => ?_, fun b hb => ?_,
    wf_writeLE hm _ _ _ hfit, ?_⟩
  · refine (hbyte _).trans ?_
    rw [if_pos (by omega), Nat.add_sub_cancel_left, ← byte, byte_lowBytes v hj]
  · exact (hbyte b).trans (if_neg (by omega))
  · simp [after, State.countCycle, State.setRam, State.decoded]

/-- Settles O21: an unreadable source is the fault of the arm. -/
theorem unreadableSourceFaults : Obligations.UnreadableSourceFaults := by
  intro s d x a n i hf hplace hi
  have hfault : ∀ f, memRead s a n .read = .error f →
      ∃ t, exec i s = .next t ∧ Faulted s t (f.record s.ip) := fun f hread =>
    exec_faults hf (armOf_unreadable hi fun nominal => (srcValue_of_place hplace nominal).trans hread)
  refine ⟨fun hnone => hfault _ (memRead_of_none hnone), fun r hr hover => ?_⟩
  rw [← regionOverrun_record]
  exact hfault _ (memRead_of_straddle hr hover .read)

/-- Settles O22: the source is read, and the write at the destination's place is the fault of the arm. -/
theorem unwritableDestinationFaults : Obligations.UnwritableDestinationFaults := by
  intro s d x v a n i hf hi hwf hv hplace
  obtain ⟨o, rfl⟩ := mem_moves.1 hi
  rw [ofMove_wf, Bool.and_eq_true] at hwf
  have harm := armOf_moveToPlace (srcValue_of_sourceIs hwf.2 hv) hplace
  refine ⟨fun hnone => ?_, fun hrom => ?_, fun hram hover => ?_⟩
  · exact exec_faults hf (harm.trans (memWrite_of_none hnone))
  · exact exec_faults hf (harm.trans (memWrite_of_rom hrom))
  · have htop : s.cfg.top = s.cfg.ramBase + s.cfg.ramSize := rfl
    have hlo : s.cfg.ramBase ≤ a.toNat := (route_eq_some.1 hram).1
    refine exec_faults hf (harm.trans (memWrite_of_overrun hram ?_))
    rw [State.decoded_cfg]
    omega

/-- Settles O30: each data field is asked for after what stands before it. -/
theorem straddlingOperandFieldFaults : Obligations.StraddlingOperandFieldFaults := by
  intro s e hc hs he
  refine ⟨fun o hw h => ?_, fun o e2 he2 h => ?_, fun o d hd h hin => ?_⟩
  · exact h.straddleFaults hc hs rfl (h.asks_sleepField hc he hw)
  · exact h.straddleFaults hc hs rfl (h.asks_moveField hc he he2)
  · refine h.straddleFaults hc hs ?_ (h.asks_moveSecondField hc hd he hin)
    rw [encode_length_eq_fieldLength hd]
    rfl

/-- Settles O31: each item after the opcode is asked for after what stands before it. -/
theorem fetchAfterTheOpcodeOutsideMemoryFaults :
    Obligations.FetchAfterTheOpcodeOutsideMemoryFaults := by
  intro s e hc hs he
  refine ⟨fun o h => ?_, fun o hw h => ?_, fun o h => ?_, fun o h => ?_, fun o e2 he2 h => ?_,
    fun o d hd h hin => ?_⟩
  · exact h.outsideFaults hc hs rfl (h.asks_sleepDesc hc)
  · exact h.outsideFaults hc hs rfl (h.asks_sleepField hc he hw)
  · exact h.outsideFaults hc hs rfl (h.asks_moveDesc hc)
  · exact h.outsideFaults hc hs rfl (h.asks_moveSecondDesc hc he)
  · exact h.outsideFaults hc hs rfl (h.asks_moveField hc he he2)
  · refine h.outsideFaults hc hs ?_ (h.asks_moveSecondField hc hd he hin)
    rw [encode_length_eq_fieldLength hd]
    rfl

/-- Settles O37: among the arms only a move into memory changes a byte, and a fault changes none. -/
theorem onlyMovesWriteMemory : Obligations.OnlyMovesWriteMemory := by
  intro i s t b hm h hb
  rcases exec_next h with ⟨u, hu, rfl⟩ | ⟨f, _, rfl⟩
  · obtain ⟨o, d, x, a, n, hi, hplace, hlo, hhi, hr⟩ := armOf_byte_changed hu hm hb
    exact ⟨d, x, a, n, mem_moves.2 ⟨o, hi⟩, hplace, hlo, hhi, hr⟩
  · exact absurd rfl hb

/-- Settles O53: byte `k` of the image is the byte of ROM at offset `k`. -/
theorem loadReplacesRomEntirely : Obligations.LoadReplacesRomEntirely := by
  intro s image
  refine ⟨fun hlen => ⟨_, if_pos hlen, rfl, fun k hk => ?_⟩, fun hlen => if_neg hlen⟩
  have hr : route s.cfg (s.cfg.romBase + k) = some .rom :=
    route_eq_some.2 ⟨Nat.le_add_right _ _, Nat.add_lt_add_left (hk.trans_eq hlen) _⟩
  refine (byteAt_of_route (s := { s with rom := Memory.ofBytes 0 image }) hr).trans ?_
  simp [State.store, Region.base, get_ofBytes, hk]

/-- Settles O54: the written bytes stand at their addresses, and reading them there gives them back. -/
theorem hostWriteThenReadBack : Obligations.HostWriteThenReadBack := by
  intro s a bytes hm hne hlo hhi
  have hbytes : BytesAt (s.setRam (s.ram.setBytes (a - s.cfg.ramBase) bytes)) a bytes := by
    intro k hk
    rw [byteAt_setBytes hm hlo hhi, if_pos (by omega), Nat.add_sub_cancel_left,
      List.getD_eq_getElem]
  refine ⟨_, hostWrite_of_inside hne hlo hhi, rfl, hbytes, ?_, fun b hb => ?_⟩
  · rw [hostRead_of_inside (List.length_pos_iff.2 hne) hlo hhi]
    congr 2
    exact eq_of_bytesAt (readBytes_length _ _ _) (bytesAt_readBytes hlo hhi) hbytes
  · rw [byteAt_setBytes hm hlo hhi, if_neg (by omega)]

/-- Settles O55: the region's check passes, and the bytes read stand at their addresses. -/
theorem hostReadGivesTheBytes : Obligations.HostReadGivesTheBytes := by
  intro s r a n hn hlo hhi
  exact ⟨_, hostRead_of_inside hn hlo hhi, readBytes_length _ _ _, bytesAt_readBytes hlo hhi⟩

/-- Settles O57: no cycle clears a sticky bit, and a successful host access touches none. -/
theorem stickyBitsAreResettable : Obligations.StickyBitsAreResettable := by
  intro s
  refine ⟨⟨rfl, rfl⟩, rfl, rfl, fun _ => ⟨rfl, rfl⟩, fun t r h hq => ?_, fun r q a n hn hlo hhi => ?_,
    fun r a bytes hne hlo hhi => ?_⟩
  · obtain ⟨hrom, hram⟩ := stickyBitsFollowOverruns s t h
    cases r with
    | rom => exact hrom.2 (.inl hq)
    | ram => exact hram.2 (.inl hq)
  · exact ⟨_, _, hostRead_of_inside hn hlo hhi, id⟩
  · refine ⟨_, hostWrite_of_inside hne hlo hhi, fun hq => ?_⟩
    cases r <;> exact hq

/-- Settles O7: `route` decides the two half-open ranges and answers `none` outside both. -/
theorem routeIsThePartition : Obligations.RouteIsThePartition :=
  fun _ _ => ⟨route_eq_some, route_eq_some, route_eq_none⟩

/-- Settles O9: routing looks at the first address, and the region's own end bounds the read. -/
theorem readNeverSpansRegions : Obligations.ReadNeverSpansRegions := by
  intro s a n x h1
  refine ⟨fun hlo hhi hover => ?_, fun ha hn h8 => ?_⟩
  · exact memRead_of_straddle (r := .rom) (route_eq_some.2 ⟨hlo, hhi⟩) hover x
  · have hr : route s.cfg a.toNat = some .ram :=
      route_eq_some.2 ⟨ha.ge, by rw [ha]; exact Nat.lt_add_of_pos_right (h1.trans hn)⟩
    have hoff : a.toNat - Region.ram.base s.cfg = 0 := Nat.sub_eq_zero_of_le ha.le
    have hfit : (a.toNat - Region.ram.base s.cfg) + n ≤ Region.ram.size s.cfg := by
      rw [hoff, Nat.zero_add]
      exact hn
    refine ⟨_, memRead_of_inside hr hfit, fun j hj => ?_⟩
    rw [byte, readLE_byte _ _ _ _ hj h8, hoff, Nat.zero_add]
    rfl

/-- Settles O25: the first opcode byte is the first item asked for. -/
theorem fetchOutsideMemoryFaults : Obligations.FetchOutsideMemoryFaults := by
  intro s hs hnone
  have hread : fetchAt s 0 1 = .error (busOutOfBounds s.ip 1 .fetch) := by
    rw [fetchAt, BitVec.add_zero, memRead_of_none hnone]
  exact stepFaults_of_fetchDecode hs (asks_opcode s _ hread)

/-- Settles O56: outside the region its check fails, and test mode decides what that does. -/
theorem hostPortRegionErrors : Obligations.HostPortRegionErrors := by
  intro s r a n hn hout
  have hcheck : ¬ regionCheck s.cfg r a n = true := fun h => by
    have := (regionCheck_iff hn).1 h
    omega
  refine ⟨fun ht => ?_, fun ht => ?_, ?_, ?_⟩
  · refine ⟨_, _, (if_neg hcheck).trans (if_pos ht), ?_⟩
    cases r <;> exact ⟨rfl, rfl, rfl, rfl, rfl⟩
  · simp [hostRead, hcheck, ht]
  · rintro bytes rfl rfl ht
    exact (if_neg hcheck).trans (if_pos ht)
  · rintro bytes rfl rfl ht
    simp [hostWrite, hcheck, ht]

end Sys2Proof.Claims
end

section
/-! SUPPORT. What the proofs of the encoding's rules (30_encoding.md) share: reads from a list of bytes and
the bytes that a decode has read, what the assembler parses, what a move's mnemonic changes, and the decode
faults at `ip`. -/

namespace Sys2Proof.Machine

open Sys2Proof.Claims

/-! ### Reads from a list of bytes -/

theorem leValue_singleton (b : Byte) : leValue [b] = b.setWidth 64 := by
  simp [leValue]

/-- A read of the bytes that stand at an offset gives their value. -/
theorem readBytes_of_split {pre mid post : List Byte} {off n : Nat} (hoff : pre.length = off)
    (hn : mid.length = n) : readBytes (pre ++ mid ++ post) off n = .ok (leValue mid) := by
  subst hoff hn
  rw [readBytes, if_pos (by simp only [List.length_append]; omega), List.append_assoc,
    List.drop_left, List.take_left]

/-- A read that answers has read the little-endian bytes of its value (30_encoding.md R117). -/
theorem readBytes_ok {bytes : List Byte} {off n : Nat} {v : Word} (h : readBytes bytes off n = .ok v)
    (h8 : n ≤ 8) : bytes.drop off = leBytes n v ++ bytes.drop (off + n) := by
  unfold readBytes at h
  split at h
  · rename_i hfit
    cases h
    have hlen : ((bytes.drop off).take n).length = n := by
      rw [List.length_take, List.length_drop]
      omega
    have hbytes := leBytes_leValue ((bytes.drop off).take n) (hlen.trans_le h8)
    rw [hlen] at hbytes
    rw [hbytes, ← List.drop_drop, List.take_append_drop]
  · cases h

/-- A read of one byte that answers has read it. -/
theorem readBytes_byte_ok {bytes : List Byte} {off : Nat} {v : Word}
    (h : readBytes bytes off 1 = .ok v) :
    bytes.drop off = v.setWidth 8 :: bytes.drop (off + 1) := readBytes_ok h (by decide)

/-! ### Decoding the encoder's bytes -/

/-- The decoder, on the encoding of an instruction with anything after it, takes exactly the encoding
(30_encoding.md R131). -/
theorem decodeWith_encode {c : Config} {i : Instr} (hc : c.wf = true) (hi : i.wf = true)
    (rest : List Byte) :
    decodeWith c BytesError.bad (readBytes (encode c i ++ rest)) = .ok (i, i.length c) := by
  refine decodeWith_of_reads hc hi (fun k hk => ?_) (fun j hj => ?_) (fun j hj => ?_)
  · obtain ⟨pre, post, he, hlen⟩ := encode_opcode c i k hk
    rw [he, List.append_assoc, ← leValue_singleton]
    exact readBytes_of_split hlen rfl
  · obtain ⟨pre, post, he, hlen⟩ := encode_desc c i j hj
    rw [he, List.append_assoc, ← leValue_singleton]
    exact readBytes_of_split hlen rfl
  · obtain ⟨pre, post, he, hlen⟩ := encode_data c i j hj
    rw [he, List.append_assoc, ← raw_encode hi j hj]
    exact readBytes_of_split hlen (leBytes_length _ _)

theorem decode_encode {c : Config} {i : Instr} (hc : c.wf = true) (hi : i.wf = true)
    (rest : List Byte) : decode c (encode c i ++ rest) = .ok (i, rest) := by
  simp only [decode, decodeWith_encode hc hi, ← encode_length, List.drop_left]

/-! ### The bytes a decode has read -/

theorem decode_ok {c : Config} {bytes rest : List Byte} {i : Instr}
    (h : decode c bytes = .ok (i, rest)) :
    ∃ n, decodeWith c BytesError.bad (readBytes bytes) = .ok (i, n) ∧ rest = bytes.drop n := by
  unfold decode at h
  split at h
  · cases h
  · rename_i n hn
    cases h
    exact ⟨n, hn, rfl⟩

theorem setWidth_64_8 {v : Word} (h : v.toNat < 2 ^ (8 * 1)) : (v.setWidth 8).setWidth 64 = v := by
  apply BitVec.eq_of_toNat_eq
  simp only [BitVec.toNat_setWidth]
  omega

/-- The bytes of an opcode value are those it was put together from (30_encoding.md R101). -/
theorem opcodeBytes_single {b : Byte} : opcodeBytes (b.setWidth 16) = [b] := by
  have hb := b.isLt
  rw [opcodeBytes_short (by rw [BitVec.toNat_setWidth]; omega)]
  congr 1
  apply BitVec.eq_of_toNat_eq
  simp only [BitVec.toNat_setWidth]
  omega

theorem opcodeBytes_pair {b0 b1 : Byte} (h : isPrefixByte b0 = true) :
    opcodeBytes (b0 ++ b1) = [b0, b1] := by
  have hlong : ¬ (b0 ++ b1).toNat < 0x100 := by
    have hb0 := isPrefixByte_iff.1 h
    have hle : b0.toNat <<< 8 ≤ (b0 ++ b1).toNat := by
      rw [BitVec.toNat_append]
      exact Nat.left_le_or
    rw [Nat.shiftLeft_eq] at hle
    omega
  rw [opcodeBytes_long hlong]
  congr 1
  · apply BitVec.eq_of_getLsbD_eq
    intro j hj
    simp only [BitVec.getLsbD_setWidth, BitVec.getLsbD_ushiftRight, BitVec.getLsbD_append]
    simp [hj]
  · congr 1
    apply BitVec.eq_of_getLsbD_eq
    intro j hj
    simp only [BitVec.getLsbD_setWidth, BitVec.getLsbD_append]
    simp [hj]

section Read
variable {c : Config} {bytes : List Byte}

/-- The opcode fetch has read the opcode bytes of its value (30_encoding.md R101). -/
theorem opcode_read {v : BitVec 16} {p : Nat} (h : fetchOpcode (readBytes bytes) = .ok (v, p)) :
    bytes = opcodeBytes v ++ bytes.drop p := by
  have hbyte : ∀ {off b}, readBytes bytes off 1 = .ok b →
      readBytes bytes off 1 = .ok ((b.setWidth 8).setWidth 64) := fun hb => by
    rw [setWidth_64_8 (readBytes_fit bytes _ _ _ hb), hb]
  rcases fetchOpcode_ok h with ⟨b0, h0, hp, _, _⟩ | ⟨b0, b1, h0, hp, h1, _, _⟩
  · cases h.symm.trans (fetchOpcode_of_single (hbyte h0) hp)
    rw [opcodeBytes_single]
    exact readBytes_byte_ok h0
  · cases h.symm.trans (fetchOpcode_of_pair (hbyte h0) hp (hbyte h1))
    rw [opcodeBytes_pair hp, List.cons_append, List.singleton_append, ← readBytes_byte_ok h1]
    exact readBytes_byte_ok h0

/-- The descriptor fetch has read the byte of its descriptor (30_encoding.md R112). -/
theorem desc_read (hc : c.wf = true) {nominal : Option Nat} {off : Nat} {d : Desc}
    (h : fetchDesc c BytesError.bad (readBytes bytes) nominal off = .ok d) :
    bytes.drop off = c.byteOf d :: bytes.drop (off + 1) := by
  obtain ⟨b, hb, hd, _⟩ := fetchDesc_ok h
  rw [(byteOf_descOf (wf_descriptorsOk hc) hd).1]
  exact readBytes_byte_ok hb

/-- The operand fetch has read the operand's data bytes (30_encoding.md R116, R117). -/
theorem operand_read {nominal : Option Nat} {off : Nat} {d : Desc} {x : Operand}
    (hn : nominalOk nominal) (hx : x.wf nominal = true)
    (h : fetchOperand BytesError.bad (readBytes bytes) nominal off d = .ok x) :
    bytes.drop off = x.encode nominal ++ bytes.drop (off + x.dataBytes nominal) :=
  readBytes_ok (fetchOperand_ok h).1 (dataBytes_range hn hx).2

/-- A decode has read the encoding of what it answers (30_encoding.md R100). -/
theorem decodeWith_read (hc : c.wf = true) {i : Instr} {n : Nat}
    (h : decodeWith c BytesError.bad (readBytes bytes) = .ok (i, n)) :
    bytes = encode c i ++ bytes.drop n := by
  have hi := (decodeWith_wf hc (readBytes_fit bytes) h).1
  obtain ⟨v, p, hv, h⟩ := decodeWith_ok h
  have hop := opcode_read hv
  rcases h with ⟨o, ho, rfl, rfl⟩ | ⟨o, d, x, ho, hd, hx, rfl, rfl⟩ |
    ⟨o, d1, d2, x1, x2, ho, hd1, hd2, hx1, hx2, rfl, rfl⟩
  · simpa [encode, opcodeOf_operationOf (wf_opcodesOk hc) ho] using hop
  · rw [ofSleep_wf] at hi
    rw [desc_read hc hd, operand_read (nominalOk_operation (.sleep o)) hi hx,
      ← (fetchOperand_ok hx).2] at hop
    simpa [encode, opcodeOf_operationOf (wf_opcodesOk hc) ho, Operation.nominal] using hop
  · rw [ofMove_wf, Bool.and_eq_true] at hi
    have hn : nominalOk (some o.nominal) := nominalOk_operation (.move o)
    rw [desc_read hc hd1, desc_read hc hd2, operand_read hn hi.1 hx1, operand_read hn hi.2 hx2,
      ← (fetchOperand_ok hx1).2, ← (fetchOperand_ok hx2).2] at hop
    simpa [encode, opcodeOf_operationOf (wf_opcodesOk hc) ho, Operation.nominal] using hop

end Read

/-! ### What the assembler parses -/

theorem tokenWidth_ok {t : List Char} {w : Nat} (h : tokenWidth t = some w) : widthOk w = true := by
  unfold tokenWidth at h
  split at h
  · split at h
    · rename_i hw
      cases h
      exact hw.2.1
    · cases h
  · cases h

/-- A token names one of the 33 descriptors (30_encoding.md R112, R113). -/
theorem descOfToken_mem {t : List Char} {d : Desc} (h : descOfToken t = some d) : d ∈ Desc.all := by
  have hwidth : ∀ {m : Mode} {u : List Char}, (tokenWidth u).map (Desc.mk m) = some d →
      d ∈ Desc.all := by
    intro m u hu
    obtain ⟨w, hw, rfl⟩ := Option.map_eq_some_iff.1 hu
    exact (mem_all_descs _).2 (.inl (tokenWidth_ok hw))
  unfold descOfToken at h
  split at h
  · exact hwidth h
  · exact hwidth h
  · exact hwidth h
  · cases h
    exact (mem_all_descs _).2 (.inr rfl)
  · exact hwidth h
  · cases h

theorem singleDesc_mem {t : String} {d : Desc} (h : singleDesc t = .ok d) : d ∈ Desc.all := by
  unfold singleDesc at h
  split at h
  · rename_i e he
    cases h
    split at he
    · exact descOfToken_mem he
    · cases he
  · cases h

theorem compoundDesc_mem {t : String} {d1 d2 : Desc} (h : compoundDesc t = .ok (d1, d2)) :
    d1 ∈ Desc.all ∧ d2 ∈ Desc.all := by
  unfold compoundDesc at h
  split at h
  · cases h
  · rename_i p rest _
    split at h
    · rename_i d hd
      cases h
      refine ⟨descOfToken_mem hd, ?_⟩
      cases he : rest.head?.bind descOfToken with
      | none => exact descOfToken_mem hd
      | some e =>
        obtain ⟨q, _, hq⟩ := Option.bind_eq_some_iff.1 he
        exact descOfToken_mem hq
    · cases h

/-- The operand that a legal descriptor and a literal make is well formed (30_encoding.md R129). -/
theorem operandOf_wf {nominal : Option Nat} {d : Desc} {v : Nat} {x : Operand} (hd : d ∈ Desc.all)
    (h : operandOf nominal d v = .ok x) : x.wf nominal = true := by
  have hfit : ∀ {w}, v < 2 ^ (8 * w) → (BitVec.ofNat 64 v).toNat < 2 ^ (8 * w) := fun hv =>
    (Nat.mod_le _ _).trans_lt hv
  obtain ⟨m, w⟩ := d
  have hwidth : m ≠ .i → widthOk w = true := fun hm => by
    rcases (mem_all_descs _).1 hd with hw | hw
    · exact hw
    · exact absurd (congrArg Desc.mode hw) hm
  cases m <;> simp only [operandOf] at h
  case r =>
    split at h
    · cases h
      exact hwidth (by decide)
    · cases h
  case i =>
    split at h
    · cases h
    · rename_i hw
      split at h
      · rename_i hv
        cases h
        exact wf_of_fits hd hw (hfit hv)
      · cases h
  case mi =>
    split at h
    · rename_i hv
      cases h
      have hw := (widthOk_iff w).1 (hwidth (by decide))
      exact wf_of_fits hd (fun hz => by simp only [desc_mi] at hz; omega) (hfit hv)
    · cases h
  case mr =>
    split at h
    · cases h
      exact hwidth (by decide)
    · cases h

/-- What a source line names is well formed (30_encoding.md R127 to R129). -/
theorem parseLine_wf {line : List String} {i : Instr} (h : parseLine line = .ok i) :
    i.wf = true := by
  unfold parseLine at h
  split at h
  · cases h
  · split at h
    · cases h
      exact ofZero_wf _
    · obtain ⟨d, hd, h⟩ := bind_ok h
      obtain ⟨v, _, h⟩ := bind_ok h
      obtain ⟨x, hx, h⟩ := bind_ok h
      cases h
      rw [ofSleep_wf]
      exact operandOf_wf (singleDesc_mem hd) hx
    · obtain ⟨⟨d1, d2⟩, hd, h⟩ := bind_ok h
      obtain ⟨v1, _, h⟩ := bind_ok h
      obtain ⟨v2, _, h⟩ := bind_ok h
      obtain ⟨x1, hx1, h⟩ := bind_ok h
      obtain ⟨x2, hx2, h⟩ := bind_ok h
      cases h
      obtain ⟨hd1, hd2⟩ := compoundDesc_mem hd
      rw [ofMove_wf, operandOf_wf hd1 hx1, operandOf_wf hd2 hx2]
      rfl
    · cases h

theorem assembleLine_ok {c : Config} {line : List String} {bytes : List Byte}
    (h : assembleLine c line = .ok bytes) : ∃ i, parseLine line = .ok i ∧ bytes = encode c i := by
  obtain ⟨i, hi, h⟩ := bind_ok h
  cases h
  exact ⟨i, hi, rfl⟩

/-! ### What a move's mnemonic changes -/

/-- The nominal width matters for the operand `i<` alone (30_encoding.md R115). -/
theorem srcValue_nominal {x : Operand} (hx : x.desc.width ≠ 0) (n m : Option Nat) (s : State) :
    srcValue n x s = srcValue m x s := by
  cases x with
  | i w v =>
    have hw : w ≠ 0 := hx
    simp only [srcValue, effWidth_pos _ hw]
  | r w k => rfl
  | mi w a => rfl
  | mr w k => rfl

theorem moveArm_nominal {d x : Operand} (hd : d.desc.width ≠ 0) (hx : x.desc.width ≠ 0) (n m : Nat)
    (s : State) : moveArm n d x s = moveArm m d x s := by
  have hvalue : moveValue n d x s = moveValue m d x s := by
    cases d with
    | i w v => rfl
    | r w k => exact srcValue_nominal hx _ _ s
    | mi w a => exact srcValue_nominal hx _ _ s
    | mr w k => exact srcValue_nominal hx _ _ s
  simp only [moveArm, hvalue, Operand.width, effWidth_pos _ hd]

/-- The state with another `ip`, `cur_op` and other operand latches, all that decode writes
(40_cycle_fetch_decode.md R147). -/
def State.redecode (a : Word) (v : BitVec 16) (l1 l2 : Latch) (s : State) : State :=
  { s.relatch v l1 l2 with ip := a }

theorem redecode_transparent (a : Word) (v : BitVec 16) (l1 l2 : Latch) :
    Transparent (State.redecode a v l1 l2) := by
  constructor <;> intros <;> rfl

theorem decoded_redecode (s : State) (i j : Instr) :
    s.decoded j = (s.decoded i).redecode (s.decoded j).ip (s.decoded j).curOp (s.decoded j).opnd1
      (s.decoded j).opnd2 := rfl

/-- Moves of two mnemonics, neither operand `i<`, answer alike, but for what decode wrote. -/
theorem armOf_move_mnemonic {d x : Operand} (hd : d.desc.width ≠ 0) (hx : x.desc.width ≠ 0)
    (o p : MoveOp) (s : State) :
    ∃ a v l1 l2, armOf (Instr.ofMove p d x) s (s.decoded (Instr.ofMove p d x)) =
      (armOf (Instr.ofMove o d x) s (s.decoded (Instr.ofMove o d x))).map
        (State.redecode a v l1 l2) := by
  rw [decoded_redecode s (Instr.ofMove o d x) (Instr.ofMove p d x), armOf_ofMove, armOf_ofMove,
    moveArm_nominal hd hx p.nominal o.nominal]
  exact ⟨_, _, _, _, (redecode_transparent _ _ _ _).moveArm _ _ _ _⟩

/-! ### The decode faults at `ip` -/

theorem bytesAt_cons {s : State} {a : Nat} {b : Byte} {bs : List Byte} (hb : s.byteAt a = some b)
    (hbs : BytesAt s (a + 1) bs) : BytesAt s a (b :: bs) := by
  intro k hk
  cases k with
  | zero => exact hb
  | succ k =>
    rw [show a + (k + 1) = a + 1 + k by omega]
    exact hbs k (Nat.lt_of_succ_lt_succ hk)

theorem bytesAt_nil (s : State) (a : Nat) : BytesAt s a [] := fun _ hk => absurd hk (Nat.not_lt_zero _)

/-- The earlier bytes of those that stand somewhere. -/
theorem bytesAt_append_left {s : State} {a : Nat} {bs cs : List Byte} (h : BytesAt s a (bs ++ cs)) :
    BytesAt s a bs := by
  intro k hk
  rw [h k (by rw [List.length_append]; omega), List.getElem_append_left hk]

/-- The first opcode byte is fetched, whatever the configuration (40_cycle_fetch_decode.md R143). -/
theorem fetchAt_first {s : State} {b : Byte} (h : s.byteAt s.ip.toNat = some b) :
    fetchAt s 0 1 = .ok (b.setWidth 64) := by
  rw [fetchAt, BitVec.add_zero]
  exact memRead_of_holdsValue (holdsValue_of_byteAt h) le_rfl (by decide) .fetch

section Readers
variable {ε : Type} {c : Config} {bad : DecodeError → ε} {read : Nat → Nat → Except ε Word}

/-- A first byte of `0x01..0x0F` asks for the byte after it (30_encoding.md R121). -/
theorem fetchOpcode_of_prefix_error {b0 : Byte} {f : ε} (h0 : read 0 1 = .ok (b0.setWidth 64))
    (hb : isPrefixByte b0 = true) (h1 : read 1 1 = .error f) : fetchOpcode read = .error f := by
  unfold fetchOpcode
  rw [bind_of_ok h0, setWidth_8_64, if_pos hb]
  exact bind_of_error h1 _

/-- An opcode value of no mnemonic is refused (60_exceptions.md R224). -/
theorem decodeWith_of_no_operation {v : BitVec 16} {p : Nat} (hf : fetchOpcode read = .ok (v, p))
    (hv : c.operationOf v = none) : decodeWith c bad read = .error (bad (.illegalOpcode v)) := by
  rw [decodeWith, bind_of_ok hf]
  simp only [hv]

/-- An index byte above 63 is refused, not masked (40_cycle_fetch_decode.md R146). -/
theorem fetchOperand_of_bad_index {nominal : Option Nat} {off : Nat} {d : Desc} {k : Byte}
    (hd : d.mode = .r ∨ d.mode = .mr) (hk : 63 < k.toNat) (h : read off 1 = .ok (k.setWidth 64)) :
    fetchOperand bad read nominal off d = .error (bad (.badRegisterIndex k)) := by
  have hcheck : checkIndex bad (k.setWidth 64) = .error (bad (.badRegisterIndex k)) := by
    have hge : ¬ (k.setWidth 64).toNat < 64 := by
      rw [BitVec.toNat_setWidth]
      omega
    rw [checkIndex, dif_neg hge, setWidth_8_64]
  obtain ⟨m, w⟩ := d
  rcases hd with rfl | rfl <;> exact (bind_of_ok h _).trans (bind_of_error hcheck _)

end Readers

end Sys2Proof.Machine

namespace Sys2Proof.Claims

open Sys2Proof.Machine

/-- The last of the bytes that stand at `ip` is fetched (40_cycle_fetch_decode.md R142). -/
theorem fetchAt_last {s : State} {bs : List Byte} {k : Byte} {off : Nat} (hc : s.cfg.wf = true)
    (h : BytesAt s s.ip.toNat (bs ++ [k])) (hoff : bs.length = off) :
    fetchAt s off 1 = .ok (k.setWidth 64) := by
  subst hoff
  simpa using fetchAt_byte hc h (k := bs.length) (by simp)

section BadIndex
variable {s : State} {k : Byte} {e : Desc}

theorem StandsAtIp.badIndex_sleep {o : SleepOp} (h : StandsAtIp s (.sleep o) [e] [k])
    (hc : s.cfg.wf = true) (he : e ∈ Desc.all) (hw : e.width ≠ 0)
    (hm : e.mode = .r ∨ e.mode = .mr) (hk : 63 < k.toNat) :
    fetchDecode s = .error (badRegisterIndex k) := by
  have hidx : fetchAt s (s.cfg.opcodeLength (.sleep o) + 1) 1 = .ok (k.setWidth 64) :=
    fetchAt_last hc h (by simp [opcodeBytes_length])
  rw [fetchDecode, decodeWith_sleep hc (h.opcode_fetched hc),
    bind_of_ok (h.firstDesc_fetched hc he fun hz => hw hz.1)]
  exact bind_of_error (fetchOperand_of_bad_index hm hk hidx) _

theorem StandsAtIp.badIndex_move {o : MoveOp} {e2 : Desc} (h : StandsAtIp s (.move o) [e, e2] [k])
    (hc : s.cfg.wf = true) (he : e ∈ Desc.all) (he2 : e2 ∈ Desc.all)
    (hm : e.mode = .r ∨ e.mode = .mr) (hk : 63 < k.toNat) :
    fetchDecode s = .error (badRegisterIndex k) := by
  have hidx : fetchAt s (s.cfg.opcodeLength (.move o) + 2) 1 = .ok (k.setWidth 64) :=
    fetchAt_last hc h (by simp [opcodeBytes_length])
  rw [fetchDecode, decodeWith_move hc (h.opcode_fetched hc),
    bind_of_ok (h.firstDesc_fetched hc he (by simp)),
    bind_of_ok (h.secondDesc_fetched hc he2 (by simp))]
  exact bind_of_error (fetchOperand_of_bad_index hm hk hidx) _

theorem StandsAtIp.badIndex_moveSource {o : MoveOp} {d : Operand}
    (h : StandsAtIp s (.move o) [d.desc, e] (d.encode (some o.nominal) ++ [k]))
    (hc : s.cfg.wf = true) (hd : d.wf (some o.nominal) = true) (he : e ∈ Desc.all)
    (hin : InOneRegion s.cfg (s.ip.toNat + (s.cfg.opcodeLength (.move o) + 2))
      (d.dataBytes (some o.nominal)))
    (hm : e.mode = .r ∨ e.mode = .mr) (hk : 63 < k.toNat) :
    fetchDecode s = .error (badRegisterIndex k) := by
  have hbytes : BytesAt s s.ip.toNat (opcodeBytes (s.cfg.opcodeOf (.move o)) ++
      [d.desc, e].map s.cfg.byteOf ++ d.encode (some o.nominal) ++ [k]) := by
    rw [List.append_assoc]
    exact h
  have hfirst : StandsAtIp s (.move o) [d.desc, e] (d.encode (some o.nominal)) :=
    bytesAt_append_left hbytes
  have hdata := hfirst.operand_fetched hc (nominalOk_operation (.move o)) hd
    (off := s.cfg.opcodeLength (.move o) + 2) rfl hin
  have hidx : fetchAt s (s.cfg.opcodeLength (.move o) + 2 + d.dataBytes (some o.nominal)) 1 =
      .ok (k.setWidth 64) :=
    fetchAt_last hc hbytes (by simp [opcodeBytes_length, Operand.encode]; omega)
  rw [fetchDecode, decodeWith_move hc (h.opcode_fetched hc),
    bind_of_ok (h.firstDesc_fetched hc (wf_desc hd).1 (by simp)),
    bind_of_ok (h.secondDesc_fetched hc he (by simp)), bind_of_ok hdata]
  exact bind_of_error (fetchOperand_of_bad_index hm hk hidx) _

end BadIndex

/-! ### The statements of 30_encoding.md -/

/-- Settles O1: the encoder's bytes serve every read of the decoder. -/
theorem decodeInvertsEncode : Obligations.DecodeInvertsEncode :=
  fun _ _ rest hc hi => decode_encode hc hi rest

/-- Settles O2: each read of the decoder fixes the bytes it took. -/
theorem encodeInvertsDecode : Obligations.EncodeInvertsDecode := by
  intro c bytes rest i hc h
  obtain ⟨n, hn, rfl⟩ := decode_ok h
  exact ⟨(decodeWith_wf hc (readBytes_fit bytes) hn).1, decodeWith_read hc hn⟩

/-- Settles O5: what a line names is well formed, so its encoding decodes to it. -/
theorem assembledLineDecodes : Obligations.AssembledLineDecodes := by
  intro c line bytes rest hc h
  obtain ⟨i, hi, rfl⟩ := assembleLine_ok h
  have hwf := parseLine_wf hi
  exact ⟨i, hi, hwf, encode_length c i, decode_encode hc hwf rest⟩

/-- Settles O19: the arms of the two moves are one, and what decode wrote is transparent to it. -/
theorem mnemonicOnlyWidensImmediates : Obligations.MnemonicOnlyWidensImmediates := by
  intro s d x i j t u hi hj hd hx ht hu
  obtain ⟨o, rfl⟩ := mem_moves.1 hi
  obtain ⟨p, rfl⟩ := mem_moves.1 hj
  obtain ⟨a, v, l1, l2, harm⟩ := armOf_move_mnemonic hd hx o p s
  rw [exec_eq] at ht hu
  cases ha : armOf (Instr.ofMove o d x) s (s.decoded (Instr.ofMove o d x)) with
  | ok w =>
    rw [ha] at harm
    cases (normalCycle_of_ok ha).symm.trans ht
    cases (normalCycle_of_ok harm).symm.trans hu
    exact ⟨rfl, rfl, rfl, rfl, rfl, rfl, rfl, rfl⟩
  | error f =>
    rw [ha] at harm
    cases (normalCycle_of_error ha).symm.trans ht
    cases (normalCycle_of_error harm).symm.trans hu
    exact ⟨rfl, rfl, rfl, rfl, rfl, rfl, rfl, rfl⟩

/-- Settles O26: after a first byte of `0x01..0x0F` the next item asked for is the second byte. -/
theorem prefixReadsItsSecondByteFirst : Obligations.PrefixReadsItsSecondByteFirst := by
  intro s b0 hc hs hlo hhi h0
  have hprefix : isPrefixByte b0 = true := isPrefixByte_iff.2 ⟨hlo, hhi⟩
  have hread := fetchAt_first h0
  refine ⟨fun hnone => ?_, fun b1 h1 hop => ?_⟩
  · rw [← ip_add_toNat hc (bytesAt_cons h0 (bytesAt_nil _ _)) (off := 1) le_rfl] at hnone
    have hsecond : fetchAt s 1 1 = .error (busOutOfBounds (s.ip + 1) 1 .fetch) :=
      memRead_of_none hnone
    exact stepFaults_of_fetchDecode hs
      (bind_of_error (fetchOpcode_of_prefix_error hread hprefix hsecond) _)
  · have hsecond : fetchAt s 1 1 = .ok (b1.setWidth 64) :=
      fetchAt_byte hc (bytesAt_cons h0 (bytesAt_cons h1 (bytesAt_nil _ _))) (k := 1) (by simp)
    exact stepFaults_of_fetchDecode hs
      (decodeWith_of_no_operation (fetchOpcode_of_pair hread hprefix hsecond) hop)

/-- Settles O29: the index byte is the operand's one data byte, and it is checked as soon as it is
fetched. -/
theorem badRegisterIndexFaults : Obligations.BadRegisterIndexFaults := by
  intro s k e hc hs hk hm he
  have hw : e.width ≠ 0 := by
    rcases (mem_all_descs e).1 he with hw | rfl
    · have := (widthOk_iff _).1 hw
      omega
    · simp at hm
  refine ⟨fun o h => ?_, fun o e2 he2 h => ?_, fun o d hd h hin => ?_⟩
  · have h : StandsAtIp s (.sleep o) [e] [k] := by simpa [StandsAtIp] using h
    exact stepFaults_of_fetchDecode hs (h.badIndex_sleep hc he hw hm hk)
  · have h : StandsAtIp s (.move o) [e, e2] [k] := by simpa [StandsAtIp] using h
    exact stepFaults_of_fetchDecode hs (h.badIndex_move hc he he2 hm hk)
  · have h : StandsAtIp s (.move o) [d.desc, e] (d.encode (some o.nominal) ++ [k]) := by
      simpa [StandsAtIp] using h
    exact stepFaults_of_fetchDecode hs (h.badIndex_moveSource hc hd he hin hm hk)

/-- Settles O3, byte by byte. -/
theorem descriptorTableIsBitFields : Obligations.DescriptorTableIsBitFields := by
  unfold Obligations.DescriptorTableIsBitFields
  decide

/-- Settles O4: the four words under the reference tables. -/
theorem specWordsDecode : Obligations.SpecWordsDecode := by
  unfold Obligations.SpecWordsDecode
  decide

/-- Settles O6: the lines at the bounds. -/
theorem literalBounds : Obligations.LiteralBounds := by
  unfold Obligations.LiteralBounds
  decide

/-- Settles O27: a first byte outside `0x01..0x0F` is the whole opcode value. -/
theorem illegalOneByteOpcodeFaults : Obligations.IllegalOneByteOpcodeFaults := by
  intro s b0 hs hb h0 hop
  have hwhole : isPrefixByte b0 = false := by
    rw [← Bool.not_eq_true, isPrefixByte_iff]
    omega
  exact stepFaults_of_fetchDecode hs
    (decodeWith_of_no_operation (fetchOpcode_of_single (fetchAt_first h0) hwhole) hop)

end Sys2Proof.Claims
end

section
/-! SUPPORT. What the proofs of the cycle's rules (40_cycle_fetch_decode.md) share: a step of each kind as an
equation, the items of an encoding that stands at `ip`, runs cut at a step, and the measure by which every
run ends. -/

namespace Sys2Proof.Machine

open Sys2Proof.Claims

/-! ### The step -/

/-- Every cycle answers a next state (notes/assumptions/7.md). -/
theorem step_answers (s : State) : ∃ t, step s = .next t := by
  by_cases hstop : s.fault ≠ none ∨ s.running = false
  · exact ⟨_, step_stopped hstop⟩
  obtain ⟨hf, hr⟩ : s.fault = none ∧ s.running = true := by simpa using hstop
  by_cases hsleep : s.flag .sleep = true ∧ s.countdown ≠ 0
  · exact ⟨_, step_tick hf hr hsleep.1 hsleep.2⟩
  rcases cycle_cases s with ⟨f, hc⟩ | ⟨i, n, u, hc⟩
  · exact ⟨_, step_fault hf hr hsleep hc⟩
  · exact ⟨_, step_runs hf hr hsleep hc⟩

/-- The start of a normal cycle clears the sleep flag, whatever it was. -/
theorem wake_eq_woken (s : State) : wake s = woken s := by
  rw [wake_eq, wake_flags]
  rfl

/-- A normal cycle that decodes an instruction runs it. -/
theorem stepRuns_of_fetchDecode {s : State} {i : Instr} {n : Nat} (hs : Ready s)
    (h : fetchDecode s = .ok (i, n)) : StepRuns s i := by
  obtain ⟨hf, hr, hawake⟩ := hs
  obtain ⟨t, ht⟩ := exec_answers i (woken s)
  refine ⟨t, ht, ?_⟩
  rw [step_normal hf hr hawake, h]
  exact congrArg (keepFlags s.flags) ((congrArg (exec i) (wake_eq_woken s)).trans ht)

/-! ### Sleep ticks -/

section Ticks
variable {s : State} (hf : s.fault = none) (hr : s.running = true) (hs : s.flag .sleep = true)
include hf hr hs

/-- The tick that brings the countdown to 0 clears the sleep flag (40_cycle_fetch_decode.md R141). -/
theorem step_tick_last (h : s.countdown = 1) :
    step s = .next
      { s with countdown := 0, cycles := s.cycles + 1, flags := s.flags &&& 0xDF#8 } := by
  rw [step_tick hf hr hs (by omega), sleepTick_eq, sleepTick_flags_last s h, h]
  rfl

/-- An earlier tick changes the two counters only (40_cycle_fetch_decode.md R141). -/
theorem step_tick_more (h : 1 < s.countdown) :
    step s = .next { s with countdown := s.countdown - 1, cycles := s.cycles + 1 } := by
  rw [step_tick hf hr hs (by omega), sleepTick_eq, sleepTick_flags_more s h]

end Ticks

/-! ### Runs -/

theorem run_succ_of_step {s t : State} (h : step s = .next t) (n : Nat) :
    Host.Core.run core (n + 1) s = Host.Core.run core n t := by
  have hstep : core.step s = .next t := h
  simp only [Host.Core.run, hstep]

/-- One more cycle at the end of a run. -/
theorem run_succ_of_run {n : Nat} {s t u : State} (hrun : Host.Core.run core n s = .next t)
    (hstep : step t = .next u) : Host.Core.run core (n + 1) s = .next u := by
  induction n generalizing s with
  | zero =>
    cases hrun
    exact run_succ_of_step hstep 0
  | succ n ih =>
    obtain ⟨s', hs⟩ := step_answers s
    rw [run_succ_of_step hs] at hrun ⊢
    exact ih hrun

/-- Before its last tick a sleep has changed the two counters only (43_sleep.md R214). -/
theorem run_sleeping {s : State} (hf : s.fault = none) (hr : s.running = true)
    (hs : s.flag .sleep = true) {k : Nat} (hk : k < s.countdown) :
    Host.Core.run core k s =
      .next { s with countdown := s.countdown - k, cycles := s.cycles + k } := by
  induction k with
  | zero => rfl
  | succ k ih =>
    have hmore : 1 < s.countdown - k := by omega
    exact run_succ_of_run (ih (by omega)) (step_tick_more hf hr hs hmore)

/-! ### The encoding that stands at `ip` -/

theorem bytesAt_middle {s : State} {a : Nat} {pre mid post : List Byte}
    (h : BytesAt s a (pre ++ mid ++ post)) : BytesAt s (a + pre.length) mid :=
  bytesAt_append_right (bytesAt_append_left h)

/-- The place of each operand's data is among the data fields (30_encoding.md R100). -/
theorem mem_dataFields (c : Config) (i : Instr) (j : Nat) (hj : j < i.operands.length) :
    (c.opcodeLength i.operation + i.operands.length +
        ((i.operands.take j).map (Operand.dataBytes i.operation.nominal)).sum,
      i.operands[j].dataBytes i.operation.nominal) ∈ dataFields c i := by
  rcases instr_cases i with ⟨o, rfl⟩ | ⟨o, x, rfl⟩ | ⟨o, d, x, rfl⟩
  · simp at hj
  · simp only [ofSleep_operands, List.length_singleton] at hj
    obtain rfl : j = 0 := by omega
    simp [dataFields]
  · simp only [ofMove_operands, List.length_cons, List.length_nil] at hj
    obtain rfl | rfl : j = 0 ∨ j = 1 := by omega
    · simp [dataFields]
    · simp [dataFields]

/-- The instruction whose encoding stands at `ip`, each data field in one region, is the one decoded
(40_cycle_fetch_decode.md R142 to R147). -/
theorem fetchDecode_of_encode {s : State} {i : Instr} (hc : s.cfg.wf = true) (hi : i.wf = true)
    (h : BytesAt s s.ip.toNat (encode s.cfg i))
    (hin : ∀ f ∈ dataFields s.cfg i, InOneRegion s.cfg (s.ip.toNat + f.1) f.2) :
    fetchDecode s = .ok (i, i.length s.cfg) := by
  refine decodeWith_of_reads hc hi (fun k hk => ?_) (fun j hj => ?_) (fun j hj => ?_)
  · obtain ⟨pre, post, he, hlen⟩ := encode_opcode s.cfg i k hk
    exact fetchAt_last hc (bytesAt_append_left (he ▸ h)) hlen
  · obtain ⟨pre, post, he, hlen⟩ := encode_desc s.cfg i j hj
    exact fetchAt_last hc (bytesAt_append_left (he ▸ h)) hlen
  · obtain ⟨pre, post, he, hlen⟩ := encode_data s.cfg i j hj
    have hwf : i.operands[j].wf i.operation.nominal = true :=
      List.all_eq_true.1 hi _ (List.getElem_mem hj)
    obtain ⟨h1, h8⟩ := dataBytes_range (nominalOk_operation i.operation) hwf
    have hfield := hin _ (mem_dataFields s.cfg i j hj)
    rw [he] at h
    rw [← hlen] at hfield ⊢
    exact fetchAt_of_holdsValue hc h (by simp only [List.length_append]; omega)
      (holdsValue_of_leBytes hfield (raw_fits hwf) (bytesAt_middle h)) h1 h8

/-! ### Every run ends -/

theorem ended_iff {s : State} : s.ended ↔ s.fault ≠ none ∨ s.running = false := by
  unfold State.ended State.phase
  split_ifs with hf hr hs
  · simp [hf]
  · simp [hr]
  · simp [not_not.1 hf, hr]
  · simp [not_not.1 hf, hr]

/-- What is left of a run: the bytes from `ip` to `TOP`, and then the ticks of the sleep. No tick moves
`ip`, and each completed instruction moves it on (40_cycle_fetch_decode.md R152). -/
def State.remaining (s : State) : Nat ×ₗ Nat := toLex (s.cfg.top - s.ip.toNat, s.countdown)

/-- A cycle ends the run, or leaves less of it. -/
theorem step_ends_or_decreases {s t : State} (hc : s.cfg.wf = true) (hs : ¬ s.ended)
    (h : step s = .next t) : t.ended ∨ (t.cfg = s.cfg ∧ t.remaining < s.remaining) := by
  rcases step_next h with ⟨hstop, rfl⟩ | ⟨_, _, _, hn, rfl⟩ |
    ⟨_, _, _, ⟨f, _, rfl⟩ | ⟨i, n, u, hrun, rfl⟩⟩
  · exact absurd (ended_iff.2 hstop) hs
  · refine .inr ⟨sleepTick_cfg s, Prod.Lex.toLex_lt_toLex.2 (.inr ⟨?_, ?_⟩)⟩
    · rw [sleepTick_cfg, sleepTick_ip]
    · rw [sleepTick_countdown]
      omega
  · exact .inl (ended_iff.2 (.inr rfl))
  · obtain ⟨hi, hlen⟩ := fetchDecode_wf hc hrun.1
    have hpos := (length_range (c := s.cfg) hi).1
    have hinside := (fetchDecode_inside hc hrun.1).2
    refine .inr ⟨hrun.cfg_eq, Prod.Lex.toLex_lt_toLex.2 (.inl ?_)⟩
    rw [State.countCycle_cfg, State.countCycle_ip, hrun.cfg_eq, hrun.ip_toNat hc]
    omega

theorem run_ends (s : State) (hc : s.cfg.wf = true) :
    ∃ n t, Host.Core.run core n s = .next t ∧ t.ended := by
  by_cases hs : s.ended
  · exact ⟨0, s, rfl, hs⟩
  obtain ⟨t, ht⟩ := step_answers s
  rcases step_ends_or_decreases hc hs ht with hend | ⟨hcfg, hless⟩
  · exact ⟨1, t, run_succ_of_step ht 0, hend⟩
  · obtain ⟨n, u, hu, hend⟩ := run_ends t (hcfg ▸ hc)
    exact ⟨n + 1, u, (run_succ_of_step ht n).trans hu, hend⟩
termination_by s.remaining
decreasing_by exact hless

end Sys2Proof.Machine

namespace Sys2Proof.Claims

open Sys2Proof.Machine

/-! ### The statements of 40_cycle_fetch_decode.md -/

/-- Settles O16: all ticks but the last count, by induction on their number; the last one clears the
flag. -/
theorem sleepLastsItsCountdown : Obligations.SleepLastsItsCountdown := by
  intro s hf hr hs hpos
  refine ⟨fun k hk => run_sleeping hf hr hs hk, ?_⟩
  obtain ⟨k, hk⟩ : ∃ k, s.countdown = k + 1 := ⟨s.countdown - 1, by omega⟩
  have hlast : s.countdown - k = 1 := by omega
  rw [hk]
  exact run_succ_of_run (run_sleeping hf hr hs (by omega)) (step_tick_last hf hr hs hlast)

/-- Settles O24: every read of the decoder is served by the bytes at `ip`. -/
theorem stepRunsTheInstructionInMemory : Obligations.StepRunsTheInstructionInMemory := by
  intro s i hc hs hi h hin
  exact stepRuns_of_fetchDecode hs (fetchDecode_of_encode hc hi h hin)

/-- Settles O39: of the cases of `step_next` only `raise` sets the fault latch, from the state at the
start of the cycle. -/
theorem faultsArePrecise : Obligations.FaultsArePrecise := by
  intro s t h hf ht
  rcases step_next h with ⟨_, rfl⟩ | ⟨_, _, _, _, rfl⟩ |
    ⟨_, _, _, ⟨f, _, rfl⟩ | ⟨i, n, u, hc, rfl⟩⟩
  · exact absurd hf ht
  · exact absurd ((sleepTick_fault s).trans hf) ht
  · have hraise := faulted_raise hf f
    exact ⟨_, hraise.fault, rfl, hraise⟩
  · exact absurd (hc.fault_eq.trans hf) ht

/-- Settles O50, by induction on what is left of the run. -/
theorem everyRunEnds : Obligations.EveryRunEnds := run_ends

/-- Settles O15: the tick that brings the countdown to 0 clears the flag, an earlier one does not. -/
theorem sleepTickOnlyCounts : Obligations.SleepTickOnlyCounts := by
  intro s hf hr hs
  exact ⟨step_tick_last hf hr hs, step_tick_more hf hr hs⟩

/-- Settles O23: `exec` answers a state, and the step puts the flags back where that state has faulted. -/
theorem stepRunsTheDecodedInstruction : Obligations.StepRunsTheDecodedInstruction :=
  fun _ _ _ hs h => stepRuns_of_fetchDecode hs h

/-- Settles O46, by the cases of a cycle: stopped, a tick, a fault, a completed instruction. -/
theorem everyStepAnswers : Obligations.EveryStepAnswers := step_answers

end Sys2Proof.Claims
end

section
/-! SUPPORT. What the proofs of the zero-operand instructions (41_zero_operand.md) share: the encoding and
the cycle of an instruction of format Z whose opcode value is one byte. -/

namespace Sys2Proof.Machine

/-- Under the opcode assignment of 30_encoding.md R108 a mnemonic has the reference opcode value. -/
theorem opcodeOf_of_refOpcodes {c : Config} (h : c.opcodes = refOpcodes) (o : Operation) :
    c.opcodeOf o = Config.ref.opcodeOf o := by
  rw [Config.opcodeOf, h]
  rfl

/-! ### Format Z with a one-byte opcode -/

section OneByte
variable (o : ZeroOp) {b : Byte}

/-- The encoding is the opcode byte alone (30_encoding.md R103). -/
theorem encode_ofZero {c : Config} (hop : c.opcodeOf (.zero o) = b.setWidth 16) :
    encode c (Instr.ofZero o) = [b] := by
  simp [encode, hop, opcodeBytes_single]

/-- Decode moves `ip` by 1, writes `cur_op`, and no latch (40_cycle_fetch_decode.md R147). -/
theorem decoded_ofZero {s : State} (hop : s.cfg.opcodeOf (.zero o) = b.setWidth 16) :
    s.decoded (Instr.ofZero o) = { s with ip := s.ip + 1, curOp := b.setWidth 16 } := by
  have hlen : (Instr.ofZero o).length s.cfg = 1 := by rw [← encode_length, encode_ofZero o hop]; rfl
  simp [State.decoded, hlen, hop]

/-- The cycle is what the arm does on the decoded state, counted. -/
theorem exec_ofZero {s u : State} (hop : s.cfg.opcodeOf (.zero o) = b.setWidth 16)
    (harm : armOf (Instr.ofZero o) s { s with ip := s.ip + 1, curOp := b.setWidth 16 } = .ok u) :
    exec (Instr.ofZero o) s = .next u.countCycle := by
  rw [exec_eq]
  apply normalCycle_of_ok
  rw [decoded_ofZero o hop, harm]

end OneByte

end Sys2Proof.Machine

namespace Sys2Proof.Claims

open Sys2Proof.Machine

/-! ### The statements of 41_zero_operand.md -/

/-- Settles O11: the arm of `nac` changes nothing in the decoded state. -/
theorem nacOnlyTakesItsCycle : Obligations.NacOnlyTakesItsCycle := by
  intro s h
  have hop : s.cfg.opcodeOf (.zero .nac) = (0x00#8).setWidth 16 := opcodeOf_of_refOpcodes h _
  exact ⟨encode_ofZero .nac hop, exec_ofZero .nac hop rfl⟩

/-- Settles O12: the arm of `wait` changes nothing in the decoded state. -/
theorem waitOnlyTakesItsCycle : Obligations.WaitOnlyTakesItsCycle := by
  intro s h
  have hop : s.cfg.opcodeOf (.zero .wait) = (0x10#8).setWidth 16 := opcodeOf_of_refOpcodes h _
  exact ⟨encode_ofZero .wait hop, exec_ofZero .wait hop rfl⟩

/-- Settles O13: the arm of `stop` clears `running`, and a stopped cycle keeps the state. -/
theorem stopHaltsForGood : Obligations.StopHaltsForGood := by
  intro s h
  have hop : s.cfg.opcodeOf (.zero .stop) = (0x11#8).setWidth 16 := opcodeOf_of_refOpcodes h _
  exact ⟨encode_ofZero .stop hop, _, exec_ofZero .stop hop rfl, rfl, step_stopped (.inr rfl)⟩

end Sys2Proof.Claims
end

section
/-! SUPPORT. What the proofs of the sleeps (43_sleep.md) share: the arm and the cycle of a sleep whose operand
is read. -/

namespace Sys2Proof.Machine

open Sys2Proof.Claims

/-- A sleep whose operand is read loads the countdown and sets the sleep flag (43_sleep.md R211). -/
theorem sleepArm_of_srcValue {unit : Nat} {x : Operand} {s : State} {k : Word}
    (h : srcValue none x s = .ok k) : sleepArm unit x s = .ok (s.startSleep (k.toNat * unit)) := by
  rw [sleepArm, h]

/-- A sleep whose operand is read completes; its format has no second operand, so that latch stays
(43_sleep.md R211, notes/assumptions/16.md). -/
theorem exec_ofSleep_of_srcValue {s : State} {x : Operand} {k : Word} (o : SleepOp)
    (h : srcValue none x s = .ok k) :
    exec (Instr.ofSleep o x) s = .next
      { after (Instr.ofSleep o x) (latchOf none x) s.opnd2 s with
        countdown := k.toNat * sleepUnit s.cfg o, flags := s.flags ||| 0x20#8 } := by
  have harm := sleepArm_of_srcValue (unit := sleepUnit s.cfg o)
    ((srcValue_decoded s (Instr.ofSleep o x) none x).trans h)
  rw [exec_ofSleep, normalCycle_of_ok harm]
  cases o <;> rfl

end Sys2Proof.Machine

namespace Sys2Proof.Claims

open Sys2Proof.Machine

/-! ### The statements of 43_sleep.md -/

/-- Settles O14: the operand's value is what the arm reads, so each sleep completes with its own unit. -/
theorem sleepsLoadTheCountdown : Obligations.SleepsLoadTheCountdown := by
  intro s x k hx hk
  have hread := srcValue_of_sourceIs hx hk
  exact ⟨exec_ofSleep_of_srcValue .sleepms hread, exec_ofSleep_of_srcValue .sleepsec hread⟩

end Sys2Proof.Claims
end

section
/-! SUPPORT. What the proofs of the exceptions' rules (60_exceptions.md) share: the faults of a decode, an
execute arm and a cycle, all of which have the fields of their kind, and the descriptor byte at which a
decode stops. -/

namespace Sys2Proof.Machine

open Sys2Proof.Claims

/-! ### The codes -/

/-- The kind of fault that a code names (60_exceptions.md R220). -/
def kindOfCode : Nat → FaultKind
  | 1 => .busOutOfBounds
  | 2 => .busWriteToROM
  | 3 => .regionOverrunROM
  | 4 => .regionOverrunRAM
  | 5 => .illegalOpcode
  | 6 => .illegalDescriptor
  | 7 => .badRegisterIndex
  | _ => .illegalDestination

theorem kindOfCode_code (k : FaultKind) : kindOfCode k.code = k := by
  cases k <;> rfl

/-! ### The errors of a computation -/

section Errors
variable {ε α β : Type} {P : ε → Prop}

/-- Every error that the computation can answer has the property. -/
def ErrorsMeet (P : ε → Prop) (x : Except ε α) : Prop := ∀ f, x = .error f → P f

theorem errorsMeet_ok (a : α) : ErrorsMeet P (.ok a) := fun _ h => nomatch h

theorem errorsMeet_error {f : ε} (h : P f) : ErrorsMeet P (.error f : Except ε α) := by
  intro e he
  cases he
  exact h

theorem errorsMeet_bind {x : Except ε α} {k : α → Except ε β} (hx : ErrorsMeet P x)
    (hk : ∀ a, ErrorsMeet P (k a)) : ErrorsMeet P (x >>= k) := by
  intro f h
  cases x with
  | error e => cases h; exact hx f rfl
  | ok a => exact hk a f h

end Errors

/-! ### The errors of the decoder -/

section Readers
variable {ε : Type} {P : ε → Prop} {c : Config} {bad : DecodeError → ε}
  {read : Nat → Nat → Except ε Word}

theorem fetchOpcode_errors (hread : ∀ off n, ErrorsMeet P (read off n)) :
    ErrorsMeet P (fetchOpcode read) := by
  refine errorsMeet_bind (hread 0 1) fun b0 => ?_
  split
  · exact errorsMeet_bind (hread 1 1) fun b1 => errorsMeet_ok _
  · exact errorsMeet_ok _

theorem fetchDesc_errors (hbad : ∀ e, P (bad e)) (hread : ∀ off n, ErrorsMeet P (read off n))
    (nominal : Option Nat) (off : Nat) : ErrorsMeet P (fetchDesc c bad read nominal off) := by
  refine errorsMeet_bind (hread off 1) fun b => ?_
  unfold resolveDesc
  split
  · exact errorsMeet_error (hbad _)
  · split
    · exact errorsMeet_error (hbad _)
    · exact errorsMeet_ok _

theorem checkIndex_errors (hbad : ∀ e, P (bad e)) (v : Word) : ErrorsMeet P (checkIndex bad v) := by
  unfold checkIndex
  split
  · exact errorsMeet_ok _
  · exact errorsMeet_error (hbad _)

theorem fetchOperand_errors (hbad : ∀ e, P (bad e)) (hread : ∀ off n, ErrorsMeet P (read off n))
    (nominal : Option Nat) (off : Nat) (d : Desc) :
    ErrorsMeet P (fetchOperand bad read nominal off d) := by
  refine errorsMeet_bind (hread _ _) fun v => ?_
  obtain ⟨m, w⟩ := d
  cases m with
  | r => exact errorsMeet_bind (checkIndex_errors hbad v) fun x => errorsMeet_ok _
  | i => exact errorsMeet_ok _
  | mi => exact errorsMeet_ok _
  | mr => exact errorsMeet_bind (checkIndex_errors hbad v) fun x => errorsMeet_ok _

/-- A decode that fails has failed at the read of an item, or has refused the bytes by name
(40_cycle_fetch_decode.md R147). -/
theorem decodeWith_errors (hbad : ∀ e, P (bad e)) (hread : ∀ off n, ErrorsMeet P (read off n)) :
    ErrorsMeet P (decodeWith c bad read) := by
  have hdesc := fetchDesc_errors (c := c) hbad hread
  have hoperand := fetchOperand_errors hbad hread
  refine errorsMeet_bind (fetchOpcode_errors hread) fun ⟨v, p⟩ => ?_
  dsimp only
  split
  · exact errorsMeet_error (hbad _)
  · exact errorsMeet_ok _
  · exact errorsMeet_bind (hdesc _ _) fun d => errorsMeet_bind (hoperand _ _ d) fun x =>
      errorsMeet_ok _
  · exact errorsMeet_bind (hdesc _ _) fun d1 => errorsMeet_bind (hdesc _ _) fun d2 =>
      errorsMeet_bind (hoperand _ _ d1) fun x1 => errorsMeet_bind (hoperand _ _ d2) fun x2 =>
      errorsMeet_ok _

/-- A byte that is no descriptor here is refused (40_cycle_fetch_decode.md R145). -/
theorem fetchDesc_of_illegal {nominal : Option Nat} {off : Nat} {b : Byte}
    (h : read off 1 = .ok (b.setWidth 64))
    (hb : ∀ e, c.descOf b = some e → e.width = 0 ∧ nominal = none) :
    fetchDesc c bad read nominal off = .error (bad (.illegalDescriptor b)) := by
  rw [fetchDesc, bind_of_ok h, setWidth_8_64, resolveDesc]
  cases hd : c.descOf b with
  | none => rfl
  | some e => exact if_pos (hb e hd)

end Readers

/-! ### The fields of a fault -/

/-- The fault has `addr`, `width` and `access` if it is a memory fault, and `info` if it is a decode fault,
by its code (60_exceptions.md R220, R221). -/
def FaultCause.HasFields (f : FaultCause) : Prop :=
  (f.kind.code ≤ 4 → f.addr ≠ none ∧ f.width ≠ none ∧ f.access ≠ none ∧ f.info = none) ∧
  (4 < f.kind.code → f.addr = none ∧ f.width = none ∧ f.access = none ∧ f.info ≠ none)

theorem hasFields_memory {k : FaultKind} (hk : k.code ≤ 4) (a : Word) (n : Nat) (x : Access) :
    FaultCause.HasFields ⟨k, some a, some n, some x, none⟩ :=
  ⟨fun _ => ⟨nofun, nofun, nofun, rfl⟩, fun h => absurd hk h.not_ge⟩

theorem hasFields_decode {k : FaultKind} (hk : 4 < k.code) (v : BitVec 16) :
    FaultCause.HasFields ⟨k, none, none, none, some v⟩ :=
  ⟨fun h => absurd hk h.not_gt, fun _ => ⟨rfl, rfl, rfl, nofun⟩⟩

theorem regionOverrun_hasFields (r : Region) (a : Word) (n : Nat) (x : Access) :
    (regionOverrun r a n x).HasFields := by
  cases r with
  | rom => exact hasFields_memory (by decide) a n x
  | ram => exact hasFields_memory (by decide) a n x

theorem decodeFault_hasFields (e : DecodeError) : (decodeFault e).HasFields := by
  cases e with
  | illegalOpcode v => exact hasFields_decode (by decide) v
  | illegalDescriptor b => exact hasFields_decode (by decide) _
  | badRegisterIndex b => exact hasFields_decode (by decide) _

theorem illegalDestination_hasFields (b : Byte) : (illegalDestination b).HasFields :=
  hasFields_decode (by decide) _

/-- A read that faults is in no region or overruns one (20_memory.md R66). -/
theorem memRead_errors (s : State) (a : Word) (n : Nat) (x : Access) :
    ErrorsMeet FaultCause.HasFields (memRead s a n x) := by
  unfold memRead
  split
  · exact errorsMeet_error (hasFields_memory (by decide) a n x)
  · split
    · exact errorsMeet_error (regionOverrun_hasFields _ a n x)
    · exact errorsMeet_ok _

/-- A write that faults is to ROM, overruns RAM or is in no region (20_memory.md R67). -/
theorem memWrite_errors (s : State) (a : Word) (n : Nat) (v : Word) :
    ErrorsMeet FaultCause.HasFields (memWrite s a n v) := by
  unfold memWrite
  split
  · exact errorsMeet_error (hasFields_memory (by decide) a n .write)
  · split
    · exact errorsMeet_error (regionOverrun_hasFields .ram a n .write)
    · exact errorsMeet_ok _
  · exact errorsMeet_error (hasFields_memory (by decide) a n .write)

theorem srcValue_errors (nominal : Option Nat) (x : Operand) (s : State) :
    ErrorsMeet FaultCause.HasFields (srcValue nominal x s) := by
  cases x with
  | r w k => exact errorsMeet_ok _
  | i w v => exact errorsMeet_ok _
  | mi w a => exact memRead_errors s a w .read
  | mr w k => exact memRead_errors s (s.reg k) w .read

theorem dstWrite_errors (d : Operand) (v : Word) (s : State) :
    ErrorsMeet FaultCause.HasFields (dstWrite d v s) := by
  cases d with
  | r w k => exact errorsMeet_ok _
  | i w y => exact errorsMeet_error (illegalDestination_hasFields _)
  | mi w a => exact memWrite_errors s a w v
  | mr w k => exact memWrite_errors s (s.reg k) w v

theorem sleepArm_errors (unit : Nat) (x : Operand) (s : State) :
    ErrorsMeet FaultCause.HasFields (sleepArm unit x s) := by
  have hsrc := srcValue_errors none x s
  unfold sleepArm
  split
  · rename_i f hf
    exact errorsMeet_error (hsrc f hf)
  · exact errorsMeet_ok _

theorem moveValue_errors (nominal : Nat) (d x : Operand) (s : State) :
    ErrorsMeet FaultCause.HasFields (moveValue nominal d x s) := by
  cases d with
  | i w y => exact errorsMeet_error (illegalDestination_hasFields _)
  | r w k => exact srcValue_errors _ x s
  | mi w a => exact srcValue_errors _ x s
  | mr w k => exact srcValue_errors _ x s

theorem moveArm_errors (nominal : Nat) (d x : Operand) (s : State) :
    ErrorsMeet FaultCause.HasFields (moveArm nominal d x s) := by
  have hvalue := moveValue_errors nominal d x s
  unfold moveArm
  split
  · rename_i f hf
    exact errorsMeet_error (hvalue f hf)
  · exact dstWrite_errors d _ s

/-- An arm faults in the read of an operand or in the write of the result (40_cycle_fetch_decode.md
R148). -/
theorem armOf_errors (i : Instr) (s u : State) : ErrorsMeet FaultCause.HasFields (armOf i s u) := by
  rcases instr_cases i with ⟨o, rfl⟩ | ⟨o, x, rfl⟩ | ⟨o, d, x, rfl⟩
  · cases o with
    | nac => exact errorsMeet_ok _
    | wait => exact errorsMeet_ok _
    | stop => exact errorsMeet_ok _
  · rw [armOf_ofSleep]
    exact sleepArm_errors _ x u
  · rw [armOf_ofMove]
    exact moveArm_errors _ d x u

/-- The fault of a cycle has the fields of its kind (60_exceptions.md R221). -/
theorem CycleFault.hasFields {s : State} {f : FaultCause} (h : CycleFault s f) : f.HasFields := by
  rcases h with hd | ⟨i, n, _, ha⟩
  · exact decodeWith_errors decodeFault_hasFields (fun off n => memRead_errors s _ n .fetch) f hd
  · exact armOf_errors i _ _ f ha

/-- A fault that a step latches is the fault of its cycle (60_exceptions.md R230). -/
theorem step_latches {s t : State} {f : FaultRecord} (h : step s = .next t) (hs : s.fault = none)
    (ht : t.fault = some f) : ∃ g, CycleFault s g ∧ f = g.record s.ip := by
  have hunset : ∀ {u : State}, u.fault = s.fault → u.fault ≠ some f := by
    intro u hu
    simp [hu, hs]
  rcases step_next h with ⟨_, rfl⟩ | ⟨_, _, _, _, rfl⟩ |
    ⟨_, _, _, ⟨g, hg, rfl⟩ | ⟨i, n, u, hc, rfl⟩⟩
  · exact absurd ht (hunset rfl)
  · exact absurd ht (hunset (sleepTick_fault s))
  · rw [(faulted_raise hs g).fault] at ht
    exact ⟨g, hg, (Option.some.inj ht).symm⟩
  · exact absurd ht (hunset hc.fault_eq)

/-! ### The immediate destination -/

/-- A move with an immediate destination does not look at its source (42_move.md R185). -/
theorem armOf_immediateDestination (o : MoveOp) (w : Nat) (y : Word) (x : Operand) (s u : State) :
    armOf (Instr.ofMove o (.i w y) x) s u = .error (illegalDestination (u.cfg.byteOf ⟨.i, w⟩)) := by
  rw [armOf_ofMove]
  rfl

end Sys2Proof.Machine

namespace Sys2Proof.Claims

open Sys2Proof.Machine

/-! ### The descriptor at which a decode stops -/

section Descriptors
variable {s : State} {d : Byte}

theorem StandsAtIp.illegalDesc_sleep {o : SleepOp} (h : StandsAtIp s (.sleep o) [] [d])
    (hc : s.cfg.wf = true) (hd : ∀ e, s.cfg.descOf d = some e → e.width = 0) :
    fetchDecode s = .error (illegalDescriptor d) := by
  have hbyte : fetchAt s (s.cfg.opcodeLength (.sleep o)) 1 = .ok (d.setWidth 64) :=
    fetchAt_last hc h (by simp [opcodeBytes_length])
  rw [fetchDecode, decodeWith_sleep hc (h.opcode_fetched hc)]
  exact bind_of_error (fetchDesc_of_illegal hbyte fun e he => ⟨hd e he, rfl⟩) _

theorem StandsAtIp.illegalDesc_move {o : MoveOp} (h : StandsAtIp s (.move o) [] [d])
    (hc : s.cfg.wf = true) (hd : s.cfg.descOf d = none) :
    fetchDecode s = .error (illegalDescriptor d) := by
  have hbyte : fetchAt s (s.cfg.opcodeLength (.move o)) 1 = .ok (d.setWidth 64) :=
    fetchAt_last hc h (by simp [opcodeBytes_length])
  rw [fetchDecode, decodeWith_move hc (h.opcode_fetched hc)]
  exact bind_of_error (fetchDesc_of_illegal hbyte (by simp [hd])) _

theorem StandsAtIp.illegalDesc_moveSource {o : MoveOp} {e : Desc}
    (h : StandsAtIp s (.move o) [e] [d]) (hc : s.cfg.wf = true) (he : e ∈ Desc.all)
    (hd : s.cfg.descOf d = none) : fetchDecode s = .error (illegalDescriptor d) := by
  have hbyte : fetchAt s (s.cfg.opcodeLength (.move o) + 1) 1 = .ok (d.setWidth 64) :=
    fetchAt_last hc h (by simp [opcodeBytes_length])
  rw [fetchDecode, decodeWith_move hc (h.opcode_fetched hc),
    bind_of_ok (h.firstDesc_fetched hc he (by simp))]
  exact bind_of_error (fetchDesc_of_illegal hbyte (by simp [hd])) _

end Descriptors

/-! ### The statements of 60_exceptions.md -/

/-- Settles O20: the arm faults at its destination's mode, before it takes the source. -/
theorem immediateDestinationFaults : Obligations.ImmediateDestinationFaults := by
  intro s w y x i hi hf
  obtain ⟨o, rfl⟩ := mem_moves.1 hi
  exact exec_faults hf (armOf_immediateDestination o w y x s _)

/-- Settles O28: the byte is refused before the next item is asked for. -/
theorem illegalDescriptorFaults : Obligations.IllegalDescriptorFaults := by
  intro s d hc hs
  refine ⟨fun o h hd => ?_, fun o h hd => ?_, fun o d1 e h he hd => ?_⟩
  · have h : StandsAtIp s (.sleep o) [] [d] := by simpa [StandsAtIp] using h
    exact stepFaults_of_fetchDecode hs (h.illegalDesc_sleep hc hd)
  · have h : StandsAtIp s (.move o) [] [d] := by simpa [StandsAtIp] using h
    exact stepFaults_of_fetchDecode hs (h.illegalDesc_move hc hd)
  · obtain ⟨rfl, hmem⟩ := byteOf_descOf (wf_descriptorsOk hc) he
    have h : StandsAtIp s (.move o) [e] [d] := by simpa [StandsAtIp] using h
    exact stepFaults_of_fetchDecode hs (h.illegalDesc_moveSource hc hmem hd)

/-- Settles O40: a latched record is that of the cycle's fault, and every fault that a cycle can raise has
the fields of its kind. -/
theorem faultRecordFields : Obligations.FaultRecordFields := by
  intro s t f h hs ht
  obtain ⟨g, hg, rfl⟩ := step_latches h hs ht
  exact hg.hasFields

/-- Settles O41: the kind of a fault can be read off its code. -/
theorem faultCodesOfTheTable : Obligations.FaultCodesOfTheTable := by
  refine ⟨⟨rfl, rfl, rfl, rfl, rfl, rfl, rfl, rfl⟩, fun j k h => ?_⟩
  exact Function.LeftInverse.injective kindOfCode_code h

end Sys2Proof.Claims
end

section
/-! SUPPORT. What the proofs of the reset's rules (70_reset_and_hazards.md) share: the addresses that reset
loads into `ip` and `sp`, the invariant of the reset state, and the state that power-up leaves. -/

namespace Sys2Proof.Machine

open Sys2Proof.Claims

/-! ### The addresses of reset -/

/-- `ROM_BASE` is an address, so `ip` holds it after reset (70_reset_and_hazards.md R261). -/
theorem resetWith_ip_toNat {c : Config} (hc : c.wf = true) (rom : Memory) (x : ResetInputs) :
    (State.resetWith c rom x).ip.toNat = c.romBase := by
  obtain ⟨_, _, htop, _⟩ := wf_sizes hc
  simp only [Config.top, Config.ramBase] at htop
  exact (BitVec.toNat_ofNat _ _).trans (Nat.mod_eq_of_lt (by omega))

/-- The last address of RAM, the value that 10_state.md R26 gives `SP_RESET`. -/
theorem ramLast_toNat {c : Config} (hc : c.wf = true) :
    c.ramLast.toNat = c.ramBase + c.ramSize - 1 := by
  obtain ⟨_, _, htop, _⟩ := wf_sizes hc
  simp only [Config.top] at htop
  exact (BitVec.toNat_ofNat _ _).trans (Nat.mod_eq_of_lt (by omega))

/-! ### The invariant of the reset state -/

theorem inv_resetWith {c : Config} {rom : Memory} {x : ResetInputs} (hc : c.wf = true)
    (hrom : rom.wf c.romSize = true) (hx : x.Ok c) : (State.resetWith c rom x).Inv where
  cfg := hc
  rom := hrom
  ram := hx.ram
  sp := rfl
  inert := BitVec.zero_and
  stopped := fun hn => absurd rfl hn
  awake := fun _ => rfl
  sticky := fun _ => ⟨rfl, rfl⟩
  opnd1 := hx.opnd1
  opnd2 := hx.opnd2

theorem ipMapped_resetWith {c : Config} (hc : c.wf = true) (rom : Memory) (x : ResetInputs) :
    (State.resetWith c rom x).ipMapped := by
  intro _
  rw [resetWith_ip_toNat hc]
  exact ⟨le_rfl, (Nat.le_add_right _ _).trans (Nat.le_add_right _ _)⟩

/-- The count of free values that were drawn is no part of the invariant (notes/assumptions/6.md). -/
theorem State.Inv.withDraws {s : State} (h : s.Inv) (n : Nat) : { s with draws := n }.Inv :=
  { h with }

theorem ResetInputs.zero_ok (c : Config) : ResetInputs.zero.Ok c where
  ram := rfl
  opnd1 := ⟨le_rfl, by decide⟩
  opnd2 := ⟨le_rfl, by decide⟩

/-! ### Ready after reset, and power-up -/

theorem ready_resetWith (c : Config) (rom : Memory) (x : ResetInputs) :
    Ready (State.resetWith c rom x) := ⟨rfl, rfl, fun h => h.2 rfl⟩

/-- Power-up is a reset with the image as ROM (70_reset_and_hazards.md R266). -/
theorem powerUp_of_length {c : Config} {image : List Byte} (x : ResetInputs)
    (h : image.length = c.romSize) :
    powerUp c image x = .next (State.resetWith c (Memory.ofBytes 0 image) x) := if_pos h

end Sys2Proof.Machine

namespace Sys2Proof.Claims

open Sys2Proof.Machine

/-- After power-up the image stands in ROM (20_memory.md R83). -/
theorem bytesAt_powerUp {c : Config} {image : List Byte} {x : ResetInputs} {s : State}
    (hlen : image.length = c.romSize) (h : powerUp c image x = .next s) :
    BytesAt s c.romBase image := by
  obtain ⟨t, ht, _, hbytes⟩ := (loadReplacesRomEntirely (State.resetWith c [] x) image).1 hlen
  obtain rfl : t = s := Host.Outcome.next.inj (ht.symm.trans h)
  exact hbytes

/-! ### The statements of 70_reset_and_hazards.md -/

/-- Settles O51: power-up leaves the reset state with the image as its ROM. -/
theorem powerUpLeavesTheResetState : Obligations.PowerUpLeavesTheResetState := by
  intro c image x hc hlen
  have hsp (h : c.spReset = c.ramLast) : c.spReset.toNat = c.ramBase + c.ramSize - 1 :=
    h ▸ ramLast_toNat hc
  have hrom : (Memory.ofBytes 0 image).wf c.romSize = true :=
    wf_ofBytes _ _ _ (by rw [hlen, Nat.zero_add])
  have hpower := powerUp_of_length x hlen
  exact ⟨_, hpower, resetWith_ip_toNat hc _ x, rfl, hsp, rfl, rfl, rfl, rfl, rfl, rfl, rfl, rfl, rfl,
    rfl, rfl, rfl, rfl, hrom, bytesAt_powerUp hlen hpower⟩

/-- Settles O52: a reset is `State.resetWith` on the configuration and the ROM there are, and only `draws`
goes on from the machine before it. -/
theorem machineResetStartsAnew : Obligations.MachineResetStartsAnew := by
  intro s x hc
  refine ⟨ready_resetWith s.cfg s.rom x, rfl, rfl, resetWith_ip_toNat hc s.rom x, rfl, rfl, rfl, rfl,
    rfl, rfl, rfl, rfl, rfl, rfl, rfl, rfl, rfl, fun hrom hx => ?_⟩
  exact ⟨(inv_resetWith hc hrom hx).withDraws s.draws, ipMapped_resetWith hc s.rom x⟩

/-- Settles O48: the invariant is that of every reset state, and `State.reset` is one of them. -/
theorem resetMeetsTheInvariant : Obligations.ResetMeetsTheInvariant := by
  have href : Config.ref.wf = true := by decide
  refine ⟨fun c rom x hc hrom hx => ⟨inv_resetWith hc hrom hx, ipMapped_resetWith hc rom x⟩, ?_, ?_⟩
  · exact inv_resetWith href reset_stores_wf.1 (ResetInputs.zero_ok _)
  · exact ipMapped_resetWith href [] ResetInputs.zero

end Sys2Proof.Claims
end
